-- ==== Sys2Proof/Word.lean ====
section
/-! DEFINITION. The word sizes of the Teto core (00_scope.md R7, R8): bit 0 is the least significant bit, every register,
the pc, every resolved operand and every address is a 32-bit vector. -/

namespace Sys2Proof

/-- Four bits: the `reg` and `mode` fields of the instruction word (30_encoding.md R100). -/
abbrev Nibble := BitVec 4

/-- One byte of memory (20_memory.md R60). -/
abbrev Byte := BitVec 8

/-- Sixteen bits: the `imm16` field (30_encoding.md R100) and one half of a register. -/
abbrev Half := BitVec 16

/-- Thirty-two bits: a register, the pc, a resolved operand, an address (00_scope.md R8). -/
abbrev Word := BitVec 32

end Sys2Proof
end

