-- ==== Sys2Proof/Config.lean ====
section
/-! DEFINITION. What is fixed for one machine: the parameters of 00_scope.md R6 and the two free values the spec leaves
open. The opcode assignment (parameter `OPC`) stands with the decoder, in Decode.lean. -/

namespace Sys2Proof

/-- Bytes of memory, `MEM_SIZE` (00_scope.md R6, 20_memory.md R60). -/
abbrev Config.memSize : Nat := 0x10000

/-- First address of the text segment, `TEXT_BASE`; `loadProgram` copies to it (20_memory.md R61, R62). -/
abbrev Config.textBase : Nat := 0x0000

/-- Last address of the text segment, `TEXT_END`; advisory, no access is checked against it (20_memory.md R61). -/
abbrev Config.textEnd : Nat := 0x3FFF

/-- First address of the data segment, `DATA_BASE`: a program image may not reach it (20_memory.md R61, R62). -/
abbrev Config.dataBase : Nat := 0x4000

/-- Last address of the data segment, `DATA_END`; advisory, no access is checked against it (20_memory.md R61). -/
abbrev Config.dataEnd : Nat := 0x7FFF

/-- First address of the heap segment, `HEAP_BASE`: what addressing mode 3 adds (20_memory.md R62, 30_encoding.md R108). -/
abbrev Config.heapBase : Word := 0x00008000#32

/-- Last address of the heap segment, `HEAP_END`; advisory, no access is checked against it (20_memory.md R61). -/
abbrev Config.heapEnd : Nat := 0xBFFF

/-- Low bound of the stack segment, `STACK_BASE`, checked by Push (20_memory.md R61, R80). -/
abbrev Config.stackBase : Int := 0xC000

/-- High bound of the stack segment, `STACK_END`, inclusive, checked by Pop (20_memory.md R61, R81). -/
abbrev Config.stackEnd : Int := 0xFFFF

/-- The pc after reset, `RESET_PC` (00_scope.md R6, 10_state.md R52). -/
abbrev Config.resetPc : Word := 0x00000000#32

/-- ESP and EBP after reset, `RESET_SP` (00_scope.md R6, 10_state.md R52). -/
abbrev Config.resetSp : Word := 0x0000FFFF#32

/-- The default cycle cutoff of Run, `MAX_CYCLES` (00_scope.md R6, 70_reset_and_hazards.md R332). -/
abbrev Config.maxCycles : Nat := 1000

/-- `MEM_INIT`: what every byte of memory holds at power-on, and so what an address that memory does not list reads as.
The value is the spec's default (10_state.md R52). DESIGN CHOICE (log entry 4): the parameter is held at that default. -/
abbrev Config.memInit : Byte := 0x00#8

/-- The two readings of `SHR` that parameter `SHR_KIND` chooses between (43_bitwise.md R205). -/
inductive ShrKind where
  /-- zeros enter at bit 31 -/
  | logical
  /-- copies of bit 31 enter -/
  | arithmetic
  deriving DecidableEq, Repr

/-- `SHR_KIND`, at the spec's default (00_scope.md R6). DESIGN CHOICE (log entry 6). -/
abbrev Config.shrKind : ShrKind := .logical

/-- The two answers that parameter `POST_FAULT` gives to whether a core that faulted can step again (00_scope.md R6). -/
inductive PostFault where
  /-- no: the latch holds the core until Reset (60_exceptions.md R301) -/
  | latched
  /-- yes: the next Step begins with the latch empty; the spec describes this value no further (log entry 7) -/
  | steppable
  deriving DecidableEq, Repr

/-- `POST_FAULT`, at the spec's default (00_scope.md R6). DESIGN CHOICE (log entry 7). -/
abbrev Config.postFault : PostFault := .latched

/-- The draw behind `NAN_RESULT` (00_scope.md R6, 42_float.md R190): a FREE VALUE, nothing constrains it. The n-th draw of
a run reads it at n; Machine/Binary32.lean turns the draw into a NaN pattern, and every NaN pattern is the image of a draw.
Log entry 2. -/
opaque Config.nanDraw : Nat → BitVec 32

/-- `FTOI_INVALID` (00_scope.md R6, 42_float.md R192): a FREE VALUE, any 32-bit value. The n-th draw of a run reads it
at n. Log entry 3. -/
opaque Config.ftoiInvalid : Nat → BitVec 32

end Sys2Proof
end

