-- ==== Sys2Proof/Machine/State.lean ====
section
/-! DEFINITION. The state of the machine as plain data: everything 10_state.md and 20_memory.md give it (00_scope.md R13
lists it whole), the reasons a step can stop, and the state after reset. -/

namespace Sys2Proof.Machine

/-- The 8 general registers, by the names of 10_state.md R21 in index order. -/
inductive Reg where
  | eax | ebx | ecx | edx | esi | edi
  /-- frame base -/
  | ebp
  /-- stack pointer -/
  | esp
  deriving DecidableEq, Repr

/-- The register file: 8 registers of 32 bits, one bank, none hard-wired (10_state.md R20, R22). -/
structure Regs where
  eax : Word
  ebx : Word
  ecx : Word
  edx : Word
  esi : Word
  edi : Word
  ebp : Word
  esp : Word
  deriving DecidableEq, Repr

/-- The flags slot (10_state.md R35): "a small enumerated state, not a bitmask". Its numbers are in Machine/Flags.lean. -/
inductive Flag where
  /-- value 0; also TEST's "nonzero" -/
  | less
  /-- value 1; also TEST's "zero" -/
  | equal
  /-- value 2 -/
  | greater
  deriving DecidableEq, Repr

/-- Which stack bound a `StackFault` reports (60_exceptions.md R280). -/
inductive StackBound where
  /-- a push below the low bound -/
  | overflow
  /-- a pop above the high bound -/
  | underflow
  deriving DecidableEq, Repr

/-- The fault record `(kind, info)` (10_state.md R43): the six kinds of 60_exceptions.md R280, each with its `info`. -/
inductive FaultRecord where
  /-- an access outside memory; the address of its first byte -/
  | memoryFault (address : Word)
  /-- a push or a pop past a bound of the stack segment -/
  | stackFault (bound : StackBound)
  /-- DIV or MOD by zero -/
  | arithmeticFault
  /-- an opcode byte with no instruction; the byte -/
  | illegalInstruction (opcode : Byte)
  /-- an addressing mode 12 to 15; the mode -/
  | illegalAddressingMode (mode : Nibble)
  /-- a register index outside 0 to 7; the index as an integer -/
  | illegalRegister (index : Int)
  deriving DecidableEq, Repr

/-- Memory: the bytes that differ from `Config.memInit`, by address (20_memory.md R60). -/
abbrev Memory := List Host.Cell

/-- What a byte that memory does not list reads as. -/
abbrev Memory.unlisted : Byte := Config.memInit

/-- The canonical form: addresses strictly rising, all inside memory, and no byte listed that equals what an unlisted
address reads as. -/
abbrev Memory.wf (m : Memory) : Prop :=
  m.Pairwise (fun c d => c.1 < d.1) ∧ ∀ c ∈ m, c.1 < Config.memSize ∧ c.2 ≠ Memory.unlisted

/-- The machine state (00_scope.md R13). -/
structure State where
  /-- `x[0..7]` (10_state.md R20) -/
  regs : Regs
  /-- the program counter (10_state.md R30); while an instruction executes it holds the post-fetch value (R31) -/
  pc : Word
  /-- the comparison flags (10_state.md R35) -/
  flags : Flag
  /-- the halted bit (10_state.md R40) -/
  halted : Bool
  /-- the fault latch (10_state.md R42) -/
  fault : Option FaultRecord
  /-- `mem[0..65535]` (20_memory.md R60) -/
  mem : Memory
  /-- THE MODEL'S OWN: how many free values have been drawn (log entry 2); the next draw reads the free value here -/
  draws : Nat
  deriving DecidableEq, Repr

/-- Why a step can stop with a fault: for no reason. Every fault of the spec is an exception whose entry it describes
(60_exceptions.md R300): the step ends in a next state that holds the fault record in `State.fault`. Log entry 1. -/
inductive Fault where
  deriving DecidableEq, Repr

/-- Why a step can be refused. -/
inductive Refusal where
  /-- Raised by `exec` for an instruction that has no meaning yet; safe, since nothing can be proved of what it does. No arm
  of `exec` raises it: all 52 instructions have their meaning. -/
  | notModelled (mnemonic : String)
  deriving DecidableEq, Repr

/-- The machine at power-on, which is the Reset state over memory that holds `MEM_INIT` (10_state.md R52,
70_reset_and_hazards.md R320, R322). `draws` is the model's own field: its value is a DESIGN CHOICE (log entry 2). -/
def State.reset : State where
  regs :=
    { eax := 0, ebx := 0, ecx := 0, edx := 0, esi := 0, edi := 0, ebp := Config.resetSp, esp := Config.resetSp }
  pc := Config.resetPc
  flags := .less
  halted := false
  fault := none
  mem := []
  draws := 0

end Sys2Proof.Machine
end

