-- ==== Sys2Proof/Machine/Ops.lean ====
section
/-! DEFINITION. The named operations over registers and memory that every meaning is written with (00_scope.md R9), taking
a fault as one shared operation (60_exceptions.md R300), and Reset, the only way back from one (60_exceptions.md R302). -/

namespace Sys2Proof.Machine

/-! ### Registers -/

/-- The content of one register. -/
def Regs.get (x : Regs) : Reg → Word
  | .eax => x.eax
  | .ebx => x.ebx
  | .ecx => x.ecx
  | .edx => x.edx
  | .esi => x.esi
  | .edi => x.edi
  | .ebp => x.ebp
  | .esp => x.esp

/-- The register file with one register written. -/
def Regs.set (x : Regs) (i : Reg) (v : Word) : Regs :=
  match i with
  | .eax => { x with eax := v }
  | .ebx => { x with ebx := v }
  | .ecx => { x with ecx := v }
  | .edx => { x with edx := v }
  | .esi => { x with esi := v }
  | .edi => { x with edi := v }
  | .ebp => { x with ebp := v }
  | .esp => { x with esp := v }

/-- The register of an index, in the order of 10_state.md R21. -/
def Reg.ofNat? : Nat → Option Reg
  | 0 => some .eax
  | 1 => some .ebx
  | 2 => some .ecx
  | 3 => some .edx
  | 4 => some .esi
  | 5 => some .edi
  | 6 => some .ebp
  | 7 => some .esp
  | _ => none

/-- The index of a register (10_state.md R21). -/
def Reg.index : Reg → Nat
  | .eax => 0
  | .ebx => 1
  | .ecx => 2
  | .edx => 3
  | .esi => 4
  | .edi => 5
  | .ebp => 6
  | .esp => 7

/-- `x[i]`, read. -/
def State.reg (s : State) (i : Reg) : Word := s.regs.get i

/-- `x[i] <- v`. -/
def State.setReg (s : State) (i : Reg) (v : Word) : State := { s with regs := s.regs.set i v }

/-- `pc <- t`: any 32-bit target is stored, unchecked and unaligned (10_state.md R32, R33). -/
def State.setPc (s : State) (t : Word) : State := { s with pc := t }

/-- `flags <- c`. -/
def State.setFlags (s : State) (c : Flag) : State := { s with flags := c }

/-- `halted <- true` (10_state.md R40). -/
def State.setHalted (s : State) : State := { s with halted := true }

/-- The memory written; nothing else changes. -/
def State.setMem (s : State) (m : Memory) : State := { s with mem := m }

/-! ### Bytes of memory -/

/-- The byte at an address. -/
def Memory.read (m : Memory) (a : Nat) : Byte :=
  match m with
  | [] => Memory.unlisted
  | (c, d) :: rest => if c = a then d else Memory.read rest a

/-- Memory without an entry for an address, which then reads as `Memory.unlisted`. -/
def Memory.erase (m : Memory) (a : Nat) : Memory :=
  m.filter fun c => decide (c.1 ≠ a)

/-- Memory with an entry for an address put at its place in the order. -/
def Memory.insert (m : Memory) (a : Nat) (b : Byte) : Memory :=
  match m with
  | [] => [(a, b)]
  | (c, d) :: rest =>
    if a < c then (a, b) :: (c, d) :: rest
    else if c = a then (a, b) :: rest
    else (c, d) :: Memory.insert rest a b

/-- One byte stored. The canonical form is kept: a byte that equals what an unlisted address reads as is not listed. -/
def Memory.write (m : Memory) (a : Nat) (b : Byte) : Memory :=
  if b = Memory.unlisted then Memory.erase m a else Memory.insert m a b

/-- `n` bytes read little-endian (20_memory.md R64, R66): the sum of `256^k` times the byte at `a + k`. -/
def Memory.readLE (m : Memory) (a : Nat) : Nat → Nat
  | 0 => 0
  | n + 1 => (Memory.read m a).toNat + 256 * Memory.readLE m (a + 1) n

/-- The low `8n` bits of a word stored little-endian (20_memory.md R64, R67): byte `k` at `a + k`. -/
def Memory.writeLE (m : Memory) (a : Nat) (v : Word) : Nat → Memory
  | 0 => m
  | n + 1 => Memory.writeLE (Memory.write m a (v.setWidth 8)) (a + 1) (v >>> 8) n

/-- A list of bytes copied to an address and on. -/
def Memory.copyIn (m : Memory) (a : Nat) : List Byte → Memory
  | [] => m
  | b :: bs => Memory.copyIn (Memory.write m a b) (a + 1) bs

/-! ### Accesses -/

/-- The widths of an access: `n` in 1, 2, 4 (20_memory.md R66). -/
inductive Width where
  | one | two | four
  deriving DecidableEq, Repr

/-- The bytes of an access. -/
def Width.bytes : Width → Nat
  | .one => 1
  | .two => 2
  | .four => 4

/-- An access whose last byte lies in memory (20_memory.md R63, R66): on integers, with no wrap. -/
def inMemory (a : Word) (n : Width) : Bool := decide (a.toNat + n.bytes ≤ Config.memSize)

/-- `MemRead(a, n)` (20_memory.md R66), zero-extended to 32 bits. -/
def State.memRead (s : State) (a : Word) (n : Width) : Except FaultRecord Word :=
  if inMemory a n then .ok (BitVec.ofNat 32 (Memory.readLE s.mem a.toNat n.bytes)) else .error (.memoryFault a)

/-- `MemWrite(a, n, v)` (20_memory.md R67): the bounds check precedes every byte. -/
def State.memWrite (s : State) (a : Word) (n : Width) (v : Word) : Except FaultRecord State :=
  if inMemory a n then .ok (s.setMem (Memory.writeLE s.mem a.toNat v n.bytes)) else .error (.memoryFault a)

/-! ### The stack -/

/-- `Push(val)` (20_memory.md R80): the stack test reads ESP as a signed integer and does not wrap, and comes first. -/
def State.push (s : State) (val : Word) : Except FaultRecord State :=
  let sp := s.reg .esp
  if sp.toInt - 4 < Config.stackBase then .error (.stackFault .overflow)
  else do
    let t ← s.memWrite (sp - 4) .four val
    pure (t.setReg .esp (sp - 4))

/-- `Pop()` (20_memory.md R81): the value popped and the state after it. -/
def State.pop (s : State) : Except FaultRecord (Word × State) :=
  let sp := s.reg .esp
  if sp.toInt + 4 > Config.stackEnd then .error (.stackFault .underflow)
  else do
    let val ← s.memRead sp .four
    pure (val, s.setReg .esp (sp + 4))

/-! ### Fetch -/

/-- The fault latch as the next Step finds it, under each value of `POST_FAULT` (00_scope.md R6, 60_exceptions.md R301). -/
def latchAfter (p : PostFault) (latch : Option FaultRecord) : Option FaultRecord :=
  match p with
  | .latched => latch
  | .steppable => none

/-- The state a Step begins in: `s` with its fault latch as `POST_FAULT` leaves it. -/
def State.released (s : State) : State := { s with fault := latchAfter Config.postFault s.fault }

/-- Whether a Step executes: not halted and no fault latched (10_state.md R44), the latch being the one the Step finds. -/
def State.running (s : State) : Bool := !s.halted && s.released.fault.isNone

/-- The fetch stage's read: the little-endian word at the pc (10_state.md R45). -/
def State.fetch (s : State) : Except FaultRecord Word := s.memRead s.pc .four

/-- The fetch stage's advance: the post-fetch pc (10_state.md R31). -/
def State.advancePc (s : State) : State := s.setPc (s.pc + 4)

/-! ### Faults -/

/-- Taking a fault (60_exceptions.md R300): the record is latched and nothing else changes; the pc stays as it is, the
post-fetch value in the execute stage and the bad fetch address in the fetch stage. -/
def State.takeFault (s : State) (f : FaultRecord) : State := { s with fault := some f }

/-- The end of an instruction (00_scope.md R10): `s` is the state its execute stage began in and `e` what its pseudocode
made of a working copy. Without a fault the working copy becomes the state; with one it is discarded. -/
def State.commit (s : State) (e : Except FaultRecord State) : Host.Outcome State Fault Refusal :=
  match e with
  | .ok t => .next t
  | .error f => .next (s.takeFault f)

/-- `Reset()` (70_reset_and_hazards.md R320): the way out of Halted and of Faulted; memory is unchanged. The model's own
count of draws goes on (log entry 2). -/
def State.hostReset (s : State) : State :=
  { State.reset with mem := s.mem, draws := s.draws }

/-! ### Placing an instruction -/

/-- A state with a word where its next fetch reads (log entry 9): the word's bytes at the pc, the core Running, and the pc
at its reset value if it stood where no fetch can read. -/
def State.placeWord (s : State) (w : Word) : State :=
  let base := if inMemory s.pc .four then s.pc else Config.resetPc
  { s with pc := base, halted := false, fault := none, mem := Memory.writeLE s.mem base.toNat w 4 }

end Sys2Proof.Machine
end

