-- ==== Sys2Proof/Machine/Flags.lean ====
section
/-! DEFINITION. The flags slot: its numbers (10_state.md R35), its two writers' computations (44_compare_control.md R220,
43_bitwise.md R209) and the predicates of its six readers (44_compare_control.md R221). -/

namespace Sys2Proof.Machine

/-- The number the slot holds (10_state.md R35): what a host observer reads. -/
def Flag.value : Flag → Nat
  | .less => 0
  | .equal => 1
  | .greater => 2

/-- What CMP writes (44_compare_control.md R220): a signed comparison, with no subtraction. -/
def compareFlags (x v : Word) : Flag :=
  if x = v then .equal else if x.toInt > v.toInt then .greater else .less

/-- What TEST writes (43_bitwise.md R209): 1, which reads as Equal, for a zero result; else 0, which reads as Less. -/
def testFlags (x v : Word) : Flag :=
  if x &&& v = 0 then .equal else .less

/-- JEQ is taken (44_compare_control.md R221, R222). -/
def takenJeq (c : Flag) : Bool := c.value == 1

/-- JNE is taken (44_compare_control.md R221, R223). -/
def takenJne (c : Flag) : Bool := c.value != 1

/-- JGT is taken (44_compare_control.md R221, R224). -/
def takenJgt (c : Flag) : Bool := c.value == 2

/-- JLT is taken (44_compare_control.md R221, R225). -/
def takenJlt (c : Flag) : Bool := c.value == 0

/-- JGE is taken (44_compare_control.md R221, R226). -/
def takenJge (c : Flag) : Bool := c.value == 1 || c.value == 2

/-- JLE is taken (44_compare_control.md R221, R227). -/
def takenJle (c : Flag) : Bool := c.value == 0 || c.value == 1

end Sys2Proof.Machine
end

