-- ==== Sys2Proof/Syntax.lean ====
section
/-! DEFINITION. The syntax of the instruction set: one constructor of `Instr` per row of spec/opcode_table.json
(30_encoding.md R120). A constructor holds exactly the fields the instruction uses (30_encoding.md R122, 10_state.md R46),
as wide as the encoding has them: the decoder never faults (30_encoding.md R102), so a register index of 8 to 15 and an
addressing mode of 12 to 15 are terms too, and the execute stage rejects them. -/

namespace Sys2Proof

/-- The 52 mnemonics of 30_encoding.md R120, in the order of the table. -/
inductive Mnemonic where
  | mov
  | movhi
  | movlo
  | ld
  | ldhi
  | ldlo
  | st
  | sthi
  | stlo
  | push
  | pop
  | xchg
  | add
  | sub
  | mul
  | div
  | mod
  | inc
  | dec
  | neg
  | fadd
  | fsub
  | fmul
  | fdiv
  | fmovhi
  | fmovlo
  | itof
  | ftoi
  | and
  | or
  | xor
  | not
  | shl
  | shr
  | rol
  | ror
  | test
  | cmp
  | jeq
  | jne
  | jgt
  | jlt
  | jge
  | jle
  | jmp
  | jmprel
  | jmpx
  | call
  | ret
  | enter
  | leave
  | hlt
  deriving DecidableEq, Repr

/-- The resolver's input (30_encoding.md R107): the `mode` field and the 16-bit operand field, not yet sign-extended. -/
structure Operand where
  /-- bits 15..12 of the word, 0 to 15 -/
  mode : Nibble
  /-- bits 31..16 of the word -/
  imm16 : Half
  deriving DecidableEq, Repr

/-- An instruction. `r` is the `reg` field, `o` the input of the resolver, `d` and `t` the raw `imm16` field of the three
instructions that bypass the resolver (30_encoding.md R110). -/
inductive Instr where
  /-- MOV, opcode 0x01, rule R140 -/
  | mov (r : Nibble) (o : Operand)
  /-- MOVHI, opcode 0x02, rule R141 -/
  | movhi (r : Nibble) (o : Operand)
  /-- MOVLO, opcode 0x03, rule R142 -/
  | movlo (r : Nibble) (o : Operand)
  /-- LD, opcode 0x04, rule R143 -/
  | ld (r : Nibble) (o : Operand)
  /-- LDHI, opcode 0x05, rule R144 -/
  | ldhi (r : Nibble) (o : Operand)
  /-- LDLO, opcode 0x06, rule R145 -/
  | ldlo (r : Nibble) (o : Operand)
  /-- ST, opcode 0x07, rule R146 -/
  | st (r : Nibble) (o : Operand)
  /-- STHI, opcode 0x08, rule R147 -/
  | sthi (r : Nibble) (o : Operand)
  /-- STLO, opcode 0x09, rule R148 -/
  | stlo (r : Nibble) (o : Operand)
  /-- PUSH, opcode 0x0A, rule R250 -/
  | push (r : Nibble)
  /-- POP, opcode 0x0B, rule R251 -/
  | pop (r : Nibble)
  /-- XCHG, opcode 0x0C, rule R252 -/
  | xchg (r : Nibble)
  /-- ADD, opcode 0x10, rule R160 -/
  | add (r : Nibble) (o : Operand)
  /-- SUB, opcode 0x11, rule R161 -/
  | sub (r : Nibble) (o : Operand)
  /-- MUL, opcode 0x12, rule R162 -/
  | mul (r : Nibble) (o : Operand)
  /-- DIV, opcode 0x13, rule R163 -/
  | div (r : Nibble) (o : Operand)
  /-- MOD, opcode 0x14, rule R164 -/
  | mod (r : Nibble) (o : Operand)
  /-- INC, opcode 0x15, rule R165 -/
  | inc (r : Nibble)
  /-- DEC, opcode 0x16, rule R166 -/
  | dec (r : Nibble)
  /-- NEG, opcode 0x17, rule R167 -/
  | neg (r : Nibble)
  /-- FADD, opcode 0x20, rule R180 -/
  | fadd (r : Nibble) (o : Operand)
  /-- FSUB, opcode 0x21, rule R181 -/
  | fsub (r : Nibble) (o : Operand)
  /-- FMUL, opcode 0x22, rule R182 -/
  | fmul (r : Nibble) (o : Operand)
  /-- FDIV, opcode 0x23, rule R183 -/
  | fdiv (r : Nibble) (o : Operand)
  /-- FMOVHI, opcode 0x24, rule R184 -/
  | fmovhi (r : Nibble) (o : Operand)
  /-- FMOVLO, opcode 0x25, rule R185 -/
  | fmovlo (r : Nibble) (o : Operand)
  /-- ITOF, opcode 0x26, rule R186 -/
  | itof (r : Nibble) (d : Half)
  /-- FTOI, opcode 0x27, rule R187 -/
  | ftoi (r : Nibble) (d : Half)
  /-- AND, opcode 0x30, rule R200 -/
  | and (r : Nibble) (o : Operand)
  /-- OR, opcode 0x31, rule R201 -/
  | or (r : Nibble) (o : Operand)
  /-- XOR, opcode 0x32, rule R202 -/
  | xor (r : Nibble) (o : Operand)
  /-- NOT, opcode 0x33, rule R203 -/
  | not (r : Nibble)
  /-- SHL, opcode 0x34, rule R204 -/
  | shl (r : Nibble) (o : Operand)
  /-- SHR, opcode 0x35, rule R205 -/
  | shr (r : Nibble) (o : Operand)
  /-- ROL, opcode 0x36, rule R206 -/
  | rol (r : Nibble) (o : Operand)
  /-- ROR, opcode 0x37, rule R207 -/
  | ror (r : Nibble) (o : Operand)
  /-- TEST, opcode 0x38, rule R209 -/
  | test (r : Nibble) (o : Operand)
  /-- CMP, opcode 0x40, rule R220 -/
  | cmp (r : Nibble) (o : Operand)
  /-- JEQ, opcode 0x41, rule R222 -/
  | jeq (o : Operand)
  /-- JNE, opcode 0x42, rule R223 -/
  | jne (o : Operand)
  /-- JGT, opcode 0x43, rule R224 -/
  | jgt (o : Operand)
  /-- JLT, opcode 0x44, rule R225 -/
  | jlt (o : Operand)
  /-- JGE, opcode 0x45, rule R226 -/
  | jge (o : Operand)
  /-- JLE, opcode 0x46, rule R227 -/
  | jle (o : Operand)
  /-- JMP, opcode 0x47, rule R228 -/
  | jmp (o : Operand)
  /-- JMPREL, opcode 0x48, rule R229 -/
  | jmprel (o : Operand)
  /-- JMPX, opcode 0x49, rule R230 -/
  | jmpx (t : Half)
  /-- CALL, opcode 0x4A, rule R231 -/
  | call (o : Operand)
  /-- RET, opcode 0x4B, rule R232 -/
  | ret
  /-- ENTER, opcode 0x50, rule R253 -/
  | enter (o : Operand)
  /-- LEAVE, opcode 0x51, rule R254 -/
  | leave
  /-- HLT, opcode 0x60, rule R270 -/
  | hlt
  deriving DecidableEq, Repr

/-- The mnemonic of an instruction. -/
def Instr.mnemonic : Instr → Mnemonic
  | .mov _ _ => .mov
  | .movhi _ _ => .movhi
  | .movlo _ _ => .movlo
  | .ld _ _ => .ld
  | .ldhi _ _ => .ldhi
  | .ldlo _ _ => .ldlo
  | .st _ _ => .st
  | .sthi _ _ => .sthi
  | .stlo _ _ => .stlo
  | .push _ => .push
  | .pop _ => .pop
  | .xchg _ => .xchg
  | .add _ _ => .add
  | .sub _ _ => .sub
  | .mul _ _ => .mul
  | .div _ _ => .div
  | .mod _ _ => .mod
  | .inc _ => .inc
  | .dec _ => .dec
  | .neg _ => .neg
  | .fadd _ _ => .fadd
  | .fsub _ _ => .fsub
  | .fmul _ _ => .fmul
  | .fdiv _ _ => .fdiv
  | .fmovhi _ _ => .fmovhi
  | .fmovlo _ _ => .fmovlo
  | .itof _ _ => .itof
  | .ftoi _ _ => .ftoi
  | .and _ _ => .and
  | .or _ _ => .or
  | .xor _ _ => .xor
  | .not _ => .not
  | .shl _ _ => .shl
  | .shr _ _ => .shr
  | .rol _ _ => .rol
  | .ror _ _ => .ror
  | .test _ _ => .test
  | .cmp _ _ => .cmp
  | .jeq _ => .jeq
  | .jne _ => .jne
  | .jgt _ => .jgt
  | .jlt _ => .jlt
  | .jge _ => .jge
  | .jle _ => .jle
  | .jmp _ => .jmp
  | .jmprel _ => .jmprel
  | .jmpx _ => .jmpx
  | .call _ => .call
  | .ret => .ret
  | .enter _ => .enter
  | .leave => .leave
  | .hlt => .hlt

end Sys2Proof
end

