-- ==== Sys2Proof/Decode.lean ====
section
/-! DEFINITION. The decoder and the encoder of the one instruction format, `[operand:16][mode:4][register:4][opcode:8]`
(30_encoding.md R100 to R104), and the opcode assignment `OPC` (30_encoding.md R120). Both are written for any assignment;
`opc` is the table of R120, which the machine runs with. -/

namespace Sys2Proof

/-- An assignment of opcode bytes to the 52 mnemonics, parameter `OPC` (00_scope.md R6). -/
abbrev OpcodeMap := Mnemonic → Byte

/-- The table of 30_encoding.md R120. DESIGN CHOICE (log entry 5): the parameter is held at the spec's default. -/
def opc : OpcodeMap
  | .mov => 0x01#8
  | .movhi => 0x02#8
  | .movlo => 0x03#8
  | .ld => 0x04#8
  | .ldhi => 0x05#8
  | .ldlo => 0x06#8
  | .st => 0x07#8
  | .sthi => 0x08#8
  | .stlo => 0x09#8
  | .push => 0x0A#8
  | .pop => 0x0B#8
  | .xchg => 0x0C#8
  | .add => 0x10#8
  | .sub => 0x11#8
  | .mul => 0x12#8
  | .div => 0x13#8
  | .mod => 0x14#8
  | .inc => 0x15#8
  | .dec => 0x16#8
  | .neg => 0x17#8
  | .fadd => 0x20#8
  | .fsub => 0x21#8
  | .fmul => 0x22#8
  | .fdiv => 0x23#8
  | .fmovhi => 0x24#8
  | .fmovlo => 0x25#8
  | .itof => 0x26#8
  | .ftoi => 0x27#8
  | .and => 0x30#8
  | .or => 0x31#8
  | .xor => 0x32#8
  | .not => 0x33#8
  | .shl => 0x34#8
  | .shr => 0x35#8
  | .rol => 0x36#8
  | .ror => 0x37#8
  | .test => 0x38#8
  | .cmp => 0x40#8
  | .jeq => 0x41#8
  | .jne => 0x42#8
  | .jgt => 0x43#8
  | .jlt => 0x44#8
  | .jge => 0x45#8
  | .jle => 0x46#8
  | .jmp => 0x47#8
  | .jmprel => 0x48#8
  | .jmpx => 0x49#8
  | .call => 0x4A#8
  | .ret => 0x4B#8
  | .enter => 0x50#8
  | .leave => 0x51#8
  | .hlt => 0x60#8

/-- Every mnemonic, once, in the order of the table. -/
def Mnemonic.all : List Mnemonic :=
  [.mov, .movhi, .movlo, .ld, .ldhi, .ldlo, .st, .sthi, .stlo, .push, .pop, .xchg,
   .add, .sub, .mul, .div, .mod, .inc, .dec, .neg, .fadd, .fsub, .fmul, .fdiv,
   .fmovhi, .fmovlo, .itof, .ftoi, .and, .or, .xor, .not, .shl, .shr, .rol, .ror,
   .test, .cmp, .jeq, .jne, .jgt, .jlt, .jge, .jle, .jmp, .jmprel, .jmpx, .call,
   .ret, .enter, .leave, .hlt]

/-- Why a byte sequence is no instruction. -/
inductive DecodeError where
  /-- The opcode byte has no mnemonic (30_encoding.md R121): the execute stage raises `IllegalInstruction` with it. -/
  | unassignedOpcode (opcode : Byte)
  /-- Fewer than four bytes: every instruction is 4 bytes (30_encoding.md R104). Only a caller of `decodeBytes` outside the
  machine meets it; the machine's fetch reads four bytes or faults. -/
  | tooFewBytes
  deriving DecidableEq, Repr

/-- The mnemonic an assignment gives to an opcode byte, if any: an instruction is selected by its opcode byte alone
(30_encoding.md R120). -/
def mnemonicOf (m : OpcodeMap) (b : Byte) : Option Mnemonic :=
  Mnemonic.all.find? fun k => m k == b

/-- Bits 7..0 (30_encoding.md R102). -/
def opcodeField (w : Word) : Byte := w.extractLsb' 0 8

/-- Bits 11..8 (30_encoding.md R102). -/
def regField (w : Word) : Nibble := w.extractLsb' 8 4

/-- Bits 15..12 (30_encoding.md R102). -/
def modeField (w : Word) : Nibble := w.extractLsb' 12 4

/-- Bits 31..16, before the sign extension of 30_encoding.md R103. -/
def immField (w : Word) : Half := w.extractLsb' 16 16

/-- The 32-bit `operand` of a decoded instruction: the 16-bit field sign-extended (30_encoding.md R102, R103). -/
def operandOf (h : Half) : Word := h.signExtend 32

/-- The instruction a mnemonic and the three fields of the word stand for: the fields it uses are kept, the others are
ignored whatever they hold (10_state.md R46, 30_encoding.md R122). -/
def instrOf (k : Mnemonic) (r mode : Nibble) (imm : Half) : Instr :=
  match k with
  | .mov => .mov r ⟨mode, imm⟩
  | .movhi => .movhi r ⟨mode, imm⟩
  | .movlo => .movlo r ⟨mode, imm⟩
  | .ld => .ld r ⟨mode, imm⟩
  | .ldhi => .ldhi r ⟨mode, imm⟩
  | .ldlo => .ldlo r ⟨mode, imm⟩
  | .st => .st r ⟨mode, imm⟩
  | .sthi => .sthi r ⟨mode, imm⟩
  | .stlo => .stlo r ⟨mode, imm⟩
  | .push => .push r
  | .pop => .pop r
  | .xchg => .xchg r
  | .add => .add r ⟨mode, imm⟩
  | .sub => .sub r ⟨mode, imm⟩
  | .mul => .mul r ⟨mode, imm⟩
  | .div => .div r ⟨mode, imm⟩
  | .mod => .mod r ⟨mode, imm⟩
  | .inc => .inc r
  | .dec => .dec r
  | .neg => .neg r
  | .fadd => .fadd r ⟨mode, imm⟩
  | .fsub => .fsub r ⟨mode, imm⟩
  | .fmul => .fmul r ⟨mode, imm⟩
  | .fdiv => .fdiv r ⟨mode, imm⟩
  | .fmovhi => .fmovhi r ⟨mode, imm⟩
  | .fmovlo => .fmovlo r ⟨mode, imm⟩
  | .itof => .itof r imm
  | .ftoi => .ftoi r imm
  | .and => .and r ⟨mode, imm⟩
  | .or => .or r ⟨mode, imm⟩
  | .xor => .xor r ⟨mode, imm⟩
  | .not => .not r
  | .shl => .shl r ⟨mode, imm⟩
  | .shr => .shr r ⟨mode, imm⟩
  | .rol => .rol r ⟨mode, imm⟩
  | .ror => .ror r ⟨mode, imm⟩
  | .test => .test r ⟨mode, imm⟩
  | .cmp => .cmp r ⟨mode, imm⟩
  | .jeq => .jeq ⟨mode, imm⟩
  | .jne => .jne ⟨mode, imm⟩
  | .jgt => .jgt ⟨mode, imm⟩
  | .jlt => .jlt ⟨mode, imm⟩
  | .jge => .jge ⟨mode, imm⟩
  | .jle => .jle ⟨mode, imm⟩
  | .jmp => .jmp ⟨mode, imm⟩
  | .jmprel => .jmprel ⟨mode, imm⟩
  | .jmpx => .jmpx imm
  | .call => .call ⟨mode, imm⟩
  | .ret => .ret
  | .enter => .enter ⟨mode, imm⟩
  | .leave => .leave
  | .hlt => .hlt

/-- Decode one fetched word under an assignment (30_encoding.md R102): total, and it refuses only an opcode byte that the
assignment leaves out. -/
def decodeWith (m : OpcodeMap) (w : Word) : Except DecodeError Instr :=
  match mnemonicOf m (opcodeField w) with
  | some k => .ok (instrOf k (regField w) (modeField w) (immField w))
  | none => .error (.unassignedOpcode (opcodeField w))

/-- Decode one fetched word under the table of 30_encoding.md R120. -/
def decodeWord (w : Word) : Except DecodeError Instr := decodeWith opc w

/-- The word whose bytes, lowest address first, are `b0` to `b3` (30_encoding.md R101, 20_memory.md R64). -/
def wordOfBytes (b0 b1 b2 b3 : Byte) : Word := b3 ++ b2 ++ b1 ++ b0

/-- The four bytes of a word as memory holds them, lowest address first (30_encoding.md R101). -/
def bytesOfWord (w : Word) : List Byte :=
  [w.extractLsb' 0 8, w.extractLsb' 8 8, w.extractLsb' 16 8, w.extractLsb' 24 8]

/-- Decode the instruction at the front of a byte sequence, and give the bytes after it. -/
def decodeBytes : List Byte → Except DecodeError (Instr × List Byte)
  | b0 :: b1 :: b2 :: b3 :: rest =>
    match decodeWord (wordOfBytes b0 b1 b2 b3) with
    | .ok i => .ok (i, rest)
    | .error e => .error e
  | _ => .error .tooFewBytes

/-- The `reg`, `mode` and `imm16` fields of an instruction's word; unused fields encode as 0 (30_encoding.md R130).
DESIGN CHOICE (log entry 11). -/
def fieldsOf : Instr → Nibble × Nibble × Half
  | .mov r o => (r, o.mode, o.imm16)
  | .movhi r o => (r, o.mode, o.imm16)
  | .movlo r o => (r, o.mode, o.imm16)
  | .ld r o => (r, o.mode, o.imm16)
  | .ldhi r o => (r, o.mode, o.imm16)
  | .ldlo r o => (r, o.mode, o.imm16)
  | .st r o => (r, o.mode, o.imm16)
  | .sthi r o => (r, o.mode, o.imm16)
  | .stlo r o => (r, o.mode, o.imm16)
  | .push r => (r, 0, 0)
  | .pop r => (r, 0, 0)
  | .xchg r => (r, 0, 0)
  | .add r o => (r, o.mode, o.imm16)
  | .sub r o => (r, o.mode, o.imm16)
  | .mul r o => (r, o.mode, o.imm16)
  | .div r o => (r, o.mode, o.imm16)
  | .mod r o => (r, o.mode, o.imm16)
  | .inc r => (r, 0, 0)
  | .dec r => (r, 0, 0)
  | .neg r => (r, 0, 0)
  | .fadd r o => (r, o.mode, o.imm16)
  | .fsub r o => (r, o.mode, o.imm16)
  | .fmul r o => (r, o.mode, o.imm16)
  | .fdiv r o => (r, o.mode, o.imm16)
  | .fmovhi r o => (r, o.mode, o.imm16)
  | .fmovlo r o => (r, o.mode, o.imm16)
  | .itof r d => (r, 0, d)
  | .ftoi r d => (r, 0, d)
  | .and r o => (r, o.mode, o.imm16)
  | .or r o => (r, o.mode, o.imm16)
  | .xor r o => (r, o.mode, o.imm16)
  | .not r => (r, 0, 0)
  | .shl r o => (r, o.mode, o.imm16)
  | .shr r o => (r, o.mode, o.imm16)
  | .rol r o => (r, o.mode, o.imm16)
  | .ror r o => (r, o.mode, o.imm16)
  | .test r o => (r, o.mode, o.imm16)
  | .cmp r o => (r, o.mode, o.imm16)
  | .jeq o => (0, o.mode, o.imm16)
  | .jne o => (0, o.mode, o.imm16)
  | .jgt o => (0, o.mode, o.imm16)
  | .jlt o => (0, o.mode, o.imm16)
  | .jge o => (0, o.mode, o.imm16)
  | .jle o => (0, o.mode, o.imm16)
  | .jmp o => (0, o.mode, o.imm16)
  | .jmprel o => (0, o.mode, o.imm16)
  | .jmpx t => (0, 0, t)
  | .call o => (0, o.mode, o.imm16)
  | .ret => (0, 0, 0)
  | .enter o => (0, o.mode, o.imm16)
  | .leave => (0, 0, 0)
  | .hlt => (0, 0, 0)

/-- The word of an instruction under an assignment (30_encoding.md R100, R130). -/
def encodeWith (m : OpcodeMap) (i : Instr) : Word :=
  (fieldsOf i).2.2 ++ (fieldsOf i).2.1 ++ (fieldsOf i).1 ++ m i.mnemonic

/-- The word of an instruction under the table of 30_encoding.md R120. -/
def encode (i : Instr) : Word := encodeWith opc i

/-- The bytes of an instruction as memory holds them. -/
def encodeBytes (i : Instr) : List Byte := bytesOfWord (encode i)

/-- The instruction the decoder reads from the bits `w` of a row of spec/opcode_table.json. Every row is one 32-bit word;
bits above `nbits` are 0. -/
def decodeTableWord (nbits w : Nat) : Option Instr :=
  match decodeBytes (bytesOfWord (BitVec.ofNat 32 (w % 2 ^ nbits))) with
  | .ok (i, _) => some i
  | .error _ => none

end Sys2Proof
end

