-- ==== Sys2Proof/Machine/Operands.lean ====
section
/-! DEFINITION. The operand forms: the register check `Reg(i)` (30_encoding.md R106), the addressing-mode resolver (R107,
R108), the raw operand of the bypassing instructions (R110), and the shapes of instruction that share them. -/

namespace Sys2Proof.Machine

/-- `Reg(i)` (30_encoding.md R106): the register an integer names, or `IllegalRegister` with that integer. -/
def checkReg (i : Int) : Except FaultRecord Reg :=
  if 0 ≤ i then
    match Reg.ofNat? i.toNat with
    | some q => .ok q
    | none => .error (.illegalRegister i)
  else .error (.illegalRegister i)

/-- `Reg(r)` of a 4-bit field: the field is an unsigned number 0 to 15. -/
def regOf (r : Nibble) : Except FaultRecord Reg := checkReg r.toNat

/-- The `reg` field that names a register. -/
def Reg.field (q : Reg) : Nibble := BitVec.ofNat 4 q.index

/-- `Reg(s(operand))` of the raw operand of ITOF and FTOI (42_float.md R186): the whole sign-extended operand, not masked. -/
def rawRegOf (d : Half) : Except FaultRecord Reg := checkReg (operandOf d).toInt

/-- The rows of the resolver's table (30_encoding.md R107). -/
inductive AddrMode where
  /-- modes 0 and 1 -/
  | immediate
  /-- mode 2 -/
  | register
  /-- mode 3 -/
  | heapRelative
  /-- modes 4 to 9 -/
  | basePlus (base : Reg)
  /-- modes 10 and 11 -/
  | baseMinus (base : Reg)
  /-- modes 12 to 15 -/
  | illegal
  deriving DecidableEq, Repr

/-- The row of a mode (30_encoding.md R107). -/
def addrModeOf (mode : Nibble) : AddrMode :=
  match mode.toNat with
  | 0 => .immediate
  | 1 => .immediate
  | 2 => .register
  | 3 => .heapRelative
  | 4 => .basePlus .eax
  | 5 => .basePlus .ebx
  | 6 => .basePlus .ecx
  | 7 => .basePlus .edx
  | 8 => .basePlus .esi
  | 9 => .basePlus .edi
  | 10 => .baseMinus .ebp
  | 11 => .baseMinus .esp
  | _ => .illegal

/-- `Resolve(mode, operand)` (30_encoding.md R108): a 32-bit value, never the content of memory; sums wrap. -/
def State.resolve (s : State) (o : Operand) : Except FaultRecord Word :=
  let operand := operandOf o.imm16
  match addrModeOf o.mode with
  | .immediate => .ok operand
  | .register => do
    let i ← checkReg (operand.extractLsb' 0 4).toNat
    pure (s.reg i)
  | .heapRelative => .ok (Config.heapBase + operand)
  | .basePlus b => .ok (s.reg b + operand)
  | .baseMinus b => .ok (s.reg b - operand)
  | .illegal => .error (.illegalAddressingMode o.mode)

/-- The shape of an instruction that resolves its operand, checks its register, and then acts: `act` is given the state,
the register and the resolved value (60_exceptions.md R290, orders 3 to 6). -/
def State.withRegOperand (s : State) (r : Nibble) (o : Operand)
    (act : Reg → Word → Except FaultRecord State) : Host.Outcome State Fault Refusal :=
  s.commit do
    let v ← s.resolve o
    let i ← regOf r
    act i v

/-- The shape `x[i] <- f(x[i], v)` of an instruction with a resolved second operand. -/
def State.updateWith (s : State) (r : Nibble) (o : Operand) (f : Word → Word → Word) :
    Host.Outcome State Fault Refusal :=
  s.withRegOperand r o fun i v => pure (s.setReg i (f (s.reg i) v))

/-- The shape `x[i] <- f(x[i])` of an instruction that ignores `mode` and `imm16`. -/
def State.updateReg (s : State) (r : Nibble) (f : Word → Word) : Host.Outcome State Fault Refusal :=
  s.commit do
    let i ← regOf r
    pure (s.setReg i (f (s.reg i)))

/-- The upper half of a register, bits 31..16. -/
def highHalf (v : Word) : Half := v.extractLsb' 16 16

/-- The lower half of a register, bits 15..0. -/
def lowHalf (v : Word) : Half := v.extractLsb' 0 16

/-- `h ++ old[15:0]`: the upper half replaced (40_data_movement.md R141, R144). -/
def withHigh (old : Word) (h : Half) : Word := h ++ lowHalf old

/-- `old[31:16] ++ h`: the lower half replaced (40_data_movement.md R142, R145). -/
def withLow (old : Word) (h : Half) : Word := highHalf old ++ h

end Sys2Proof.Machine
end

