-- ==== Sys2Proof/Machine/Bitwise.lean ====
section
/-! DEFINITION. Bitwise, shift, rotate and test instructions (43_bitwise.md). -/

namespace Sys2Proof.Machine

/-- The count of a shift or rotate: `v[4:0]`, 0 to 31 (43_bitwise.md R208). -/
def shiftCount (v : Word) : Nat := (v.extractLsb' 0 5).toNat

/-- SHR's shift by a count, in the reading that `SHR_KIND` names (43_bitwise.md R205). -/
def shiftRight (kind : ShrKind) (x : Word) (n : Nat) : Word :=
  match kind with
  | .logical => x >>> n
  | .arithmetic => x.sshiftRight n

/-- AND (43_bitwise.md R200). -/
def execAnd (r : Nibble) (o : Operand) (s : State) : Host.Outcome State Fault Refusal :=
  s.updateWith r o fun x v => x &&& v

/-- OR (43_bitwise.md R201). -/
def execOr (r : Nibble) (o : Operand) (s : State) : Host.Outcome State Fault Refusal :=
  s.updateWith r o fun x v => x ||| v

/-- XOR (43_bitwise.md R202). -/
def execXor (r : Nibble) (o : Operand) (s : State) : Host.Outcome State Fault Refusal :=
  s.updateWith r o fun x v => x ^^^ v

/-- NOT (43_bitwise.md R203). -/
def execNot (r : Nibble) (s : State) : Host.Outcome State Fault Refusal :=
  s.updateReg r fun x => ~~~x

/-- SHL (43_bitwise.md R204). -/
def execShl (r : Nibble) (o : Operand) (s : State) : Host.Outcome State Fault Refusal :=
  s.updateWith r o fun x v => x <<< shiftCount v

/-- SHR (43_bitwise.md R205). -/
def execShr (r : Nibble) (o : Operand) (s : State) : Host.Outcome State Fault Refusal :=
  s.updateWith r o fun x v => shiftRight Config.shrKind x (shiftCount v)

/-- ROL (43_bitwise.md R206). -/
def execRol (r : Nibble) (o : Operand) (s : State) : Host.Outcome State Fault Refusal :=
  s.updateWith r o fun x v => x.rotateLeft (shiftCount v)

/-- ROR (43_bitwise.md R207). -/
def execRor (r : Nibble) (o : Operand) (s : State) : Host.Outcome State Fault Refusal :=
  s.updateWith r o fun x v => x.rotateRight (shiftCount v)

/-- TEST (43_bitwise.md R209): the flags slot only. -/
def execTest (r : Nibble) (o : Operand) (s : State) : Host.Outcome State Fault Refusal :=
  s.withRegOperand r o fun i v => pure (s.setFlags (testFlags (s.reg i) v))

end Sys2Proof.Machine
end

