-- ==== Sys2Proof/Machine/Control.lean ====
section
/-! DEFINITION. Comparison and control transfer (44_compare_control.md). While these execute, `s.pc` is the post-fetch pc (10_state.md R31). -/

namespace Sys2Proof.Machine

/-- The common shape of the conditional jumps (44_compare_control.md R221): the operand is resolved whether or not the jump
is taken, and the target is absolute. -/
def State.jumpIf (s : State) (o : Operand) (taken : Bool) : Host.Outcome State Fault Refusal :=
  s.commit do
    let v ← s.resolve o
    pure (if taken then s.setPc v else s)

/-- CMP (44_compare_control.md R220): the flags slot only. -/
def execCmp (r : Nibble) (o : Operand) (s : State) : Host.Outcome State Fault Refusal :=
  s.withRegOperand r o fun i v => pure (s.setFlags (compareFlags (s.reg i) v))

/-- JEQ (44_compare_control.md R222). -/
def execJeq (o : Operand) (s : State) : Host.Outcome State Fault Refusal :=
  s.jumpIf o (takenJeq s.flags)

/-- JNE (44_compare_control.md R223). -/
def execJne (o : Operand) (s : State) : Host.Outcome State Fault Refusal :=
  s.jumpIf o (takenJne s.flags)

/-- JGT (44_compare_control.md R224). -/
def execJgt (o : Operand) (s : State) : Host.Outcome State Fault Refusal :=
  s.jumpIf o (takenJgt s.flags)

/-- JLT (44_compare_control.md R225). -/
def execJlt (o : Operand) (s : State) : Host.Outcome State Fault Refusal :=
  s.jumpIf o (takenJlt s.flags)

/-- JGE (44_compare_control.md R226). -/
def execJge (o : Operand) (s : State) : Host.Outcome State Fault Refusal :=
  s.jumpIf o (takenJge s.flags)

/-- JLE (44_compare_control.md R227). -/
def execJle (o : Operand) (s : State) : Host.Outcome State Fault Refusal :=
  s.jumpIf o (takenJle s.flags)

/-- JMP (44_compare_control.md R228). -/
def execJmp (o : Operand) (s : State) : Host.Outcome State Fault Refusal :=
  s.commit do
    let v ← s.resolve o
    pure (s.setPc v)

/-- JMPREL (44_compare_control.md R229): relative to the post-fetch pc. -/
def execJmprel (o : Operand) (s : State) : Host.Outcome State Fault Refusal :=
  s.commit do
    let v ← s.resolve o
    pure (s.setPc (s.pc + v))

/-- JMPX (44_compare_control.md R230): the raw operand, with no resolver. -/
def execJmpx (t : Half) (s : State) : Host.Outcome State Fault Refusal :=
  s.commit (pure (s.setPc (operandOf t)))

/-- CALL (44_compare_control.md R231): the target is resolved before the push of the return address. -/
def execCall (o : Operand) (s : State) : Host.Outcome State Fault Refusal :=
  s.commit do
    let v ← s.resolve o
    let t ← s.push s.pc
    pure (t.setPc v)

/-- RET (44_compare_control.md R232). -/
def execRet (s : State) : Host.Outcome State Fault Refusal :=
  s.commit do
    let (val, t) ← s.pop
    pure (t.setPc val)

end Sys2Proof.Machine
end

