-- ==== Sys2Proof/Machine/DataMovement.lean ====
section
/-! DEFINITION. Data movement (40_data_movement.md): MOV, MOVHI, MOVLO and the 1- and 2-byte loads and stores. -/

namespace Sys2Proof.Machine

/-- MOV (40_data_movement.md R140). -/
def execMov (r : Nibble) (o : Operand) (s : State) : Host.Outcome State Fault Refusal :=
  s.updateWith r o fun _ v => v

/-- MOVHI (40_data_movement.md R141): the upper half from `v[15:0]`, the lower half kept. -/
def execMovhi (r : Nibble) (o : Operand) (s : State) : Host.Outcome State Fault Refusal :=
  s.updateWith r o fun x v => withHigh x (lowHalf v)

/-- MOVLO (40_data_movement.md R142): the lower half from `v[15:0]`, the upper half kept. -/
def execMovlo (r : Nibble) (o : Operand) (s : State) : Host.Outcome State Fault Refusal :=
  s.updateWith r o fun x v => withLow x (lowHalf v)

/-- LD (40_data_movement.md R143): one byte, zero-extended. -/
def execLd (r : Nibble) (o : Operand) (s : State) : Host.Outcome State Fault Refusal :=
  s.withRegOperand r o fun i a => do
    let b ← s.memRead a .one
    pure (s.setReg i b)

/-- LDHI (40_data_movement.md R144): two bytes into the upper half, the lower half kept. -/
def execLdhi (r : Nibble) (o : Operand) (s : State) : Host.Outcome State Fault Refusal :=
  s.withRegOperand r o fun i a => do
    let h ← s.memRead a .two
    pure (s.setReg i (withHigh (s.reg i) (lowHalf h)))

/-- LDLO (40_data_movement.md R145): two bytes into the lower half, the upper half kept. -/
def execLdlo (r : Nibble) (o : Operand) (s : State) : Host.Outcome State Fault Refusal :=
  s.withRegOperand r o fun i a => do
    let h ← s.memRead a .two
    pure (s.setReg i (withLow (s.reg i) (lowHalf h)))

/-- ST (40_data_movement.md R146): the low byte. -/
def execSt (r : Nibble) (o : Operand) (s : State) : Host.Outcome State Fault Refusal :=
  s.withRegOperand r o fun i a => s.memWrite a .one (s.reg i)

/-- STHI (40_data_movement.md R147): the upper half as two bytes. -/
def execSthi (r : Nibble) (o : Operand) (s : State) : Host.Outcome State Fault Refusal :=
  s.withRegOperand r o fun i a => s.memWrite a .two ((highHalf (s.reg i)).setWidth 32)

/-- STLO (40_data_movement.md R148): the lower half as two bytes. -/
def execStlo (r : Nibble) (o : Operand) (s : State) : Host.Outcome State Fault Refusal :=
  s.withRegOperand r o fun i a => s.memWrite a .two ((lowHalf (s.reg i)).setWidth 32)

end Sys2Proof.Machine
end

