-- ==== Sys2Proof/Machine/Binary32.lean ====
section
/-! DEFINITION. IEEE 754 binary32 on the bits of a register (42_float.md R188 to R192). A finite datum is a sign and a
magnitude counted in units of 2^-149, the smallest subnormal, so that every finite datum, its exact sum and its exact
product is a natural number of such units and every exact quotient is a ratio of two of them; one operation rounds. -/

namespace Sys2Proof.Machine

/-- A binary32 datum, held by its bits: `f32(v)` is `⟨v⟩` and `bits(f)` is `f.bits` (00_scope.md R9). -/
structure F32 where
  bits : Word
  deriving DecidableEq, Repr

/-- Bit 31 (42_float.md R188). -/
def F32.negative (f : F32) : Bool := f.bits.getLsbD 31

/-- Bits 30..23, the biased exponent (42_float.md R188). -/
def F32.exponent (f : F32) : Nat := (f.bits.extractLsb' 23 8).toNat

/-- Bits 22..0, the fraction (42_float.md R188). -/
def F32.fraction (f : F32) : Nat := (f.bits.extractLsb' 0 23).toNat

/-- Exponent 255 with a non-zero fraction (42_float.md R188). -/
def F32.isNaN (f : F32) : Bool := f.exponent == 255 && f.fraction != 0

/-- What a datum stands for. -/
inductive F32Value where
  | nan
  | infinite (neg : Bool)
  /-- a signed zero, a subnormal or a normal number: its magnitude is `mag * 2^-149` -/
  | finite (neg : Bool) (mag : Nat)
  deriving DecidableEq, Repr

/-- The magnitude of a finite datum in units of 2^-149 (42_float.md R188): bias 127, 23 fraction bits, subnormals kept. -/
def F32.magnitude (f : F32) : Nat :=
  if f.exponent = 0 then f.fraction else (2 ^ 23 + f.fraction) * 2 ^ (f.exponent - 1)

/-- The value of a datum (42_float.md R188). -/
def F32.value (f : F32) : F32Value :=
  if f.isNaN then .nan
  else if f.exponent = 255 then .infinite f.negative
  else .finite f.negative f.magnitude

/-- A datum from its sign and its lower 31 bits. -/
def F32.pack (neg : Bool) (low : Nat) : F32 := ⟨BitVec.ofBool neg ++ BitVec.ofNat 31 low⟩

/-- The lower 31 bits of an infinity: exponent 255, fraction 0. -/
abbrev infinityBits : Nat := 0x7F800000

/-- An infinity. -/
def F32.inf (neg : Bool) : F32 := .pack neg infinityBits

/-- A zero. -/
def F32.zero (neg : Bool) : F32 := .pack neg 0

/-- The integer nearest to `n / d`, ties to even. -/
def roundHalfEven (n d : Nat) : Nat :=
  if 2 * (n % d) < d then n / d
  else if d < 2 * (n % d) then n / d + 1
  else n / d + n / d % 2

/-- The lower 31 bits of the datum nearest to `n / d` units of 2^-149, ties to even (42_float.md R189). `k` is the binary
exponent of one unit in the last place, 0 for subnormals; the significand may round up to `2^24`, and the sum then carries
into the exponent. From half a unit above the largest finite datum on, the result is an infinity. -/
def roundMagnitude (n d : Nat) : Nat :=
  let k := (n / d).log2 - 23
  min (k * 2 ^ 23 + roundHalfEven n (d * 2 ^ k)) infinityBits

/-- The datum nearest to `n / d` units of 2^-149 with a given sign. -/
def F32.round (neg : Bool) (n d : Nat) : F32 := .pack neg (roundMagnitude n d)

/-- A magnitude with its sign. -/
def signedMag (neg : Bool) (mag : Nat) : Int := if neg then -(mag : Int) else mag

/-- The datum nearest to an integer number of units of 2^-149; a zero takes the given sign. -/
def F32.roundInt (z : Int) (zeroNeg : Bool) : F32 :=
  if z = 0 then .zero zeroNeg else .round (decide (z < 0)) z.natAbs 1

/-- `-f`: the sign bit flipped. -/
def F32.flip (f : F32) : F32 := ⟨f.bits ^^^ 0x80000000#32⟩

/-- `f + g` (42_float.md R189, R190); none where the result is a NaN. A sum that is exactly zero is `-0` only where both
operands are negative. -/
def F32.add (f g : F32) : Option F32 :=
  match f.value, g.value with
  | .finite s m, .finite t n => some (.roundInt (signedMag s m + signedMag t n) (s && t))
  | .finite _ _, .infinite t => some (.inf t)
  | .infinite s, .finite _ _ => some (.inf s)
  | .infinite s, .infinite t => if s = t then some (.inf s) else none
  | .nan, _ => none
  | _, .nan => none

/-- `f - g`: the sum with `g`'s sign flipped; a NaN stays one. -/
def F32.sub (f g : F32) : Option F32 := f.add g.flip

/-- `f * g` (42_float.md R189, R190). The exact product counts units of 2^-298. -/
def F32.mul (f g : F32) : Option F32 :=
  match f.value, g.value with
  | .finite s m, .finite t n => some (.round (s != t) (m * n) (2 ^ 149))
  | .finite s m, .infinite t => if m = 0 then none else some (.inf (s != t))
  | .infinite s, .finite t n => if n = 0 then none else some (.inf (s != t))
  | .infinite s, .infinite t => some (.inf (s != t))
  | .nan, _ => none
  | _, .nan => none

/-- `f / g` (42_float.md R189, R190): a non-zero finite number or an infinity by a zero gives an infinity. -/
def F32.div (f g : F32) : Option F32 :=
  match f.value, g.value with
  | .finite s m, .finite t n =>
    if n = 0 then (if m = 0 then none else some (.inf (s != t))) else some (.round (s != t) (m * 2 ^ 149) n)
  | .finite s _, .infinite t => some (.zero (s != t))
  | .infinite s, .finite t _ => some (.inf (s != t))
  | .infinite _, .infinite _ => none
  | .nan, _ => none
  | _, .nan => none

/-- The nearest datum to a signed integer, ties to even (42_float.md R191). -/
def F32.ofInt (z : Int) : F32 := .roundInt (z * 2 ^ 149) false

/-- The datum truncated toward zero, where the truncated value is in -2^31 .. 2^31-1; else none (42_float.md R192). -/
def F32.toInt? (f : F32) : Option Int :=
  match f.value with
  | .finite s m =>
    let t := signedMag s (m / 2 ^ 149)
    if -2 ^ 31 ≤ t ∧ t ≤ 2 ^ 31 - 1 then some t else none
  | _ => none

/-- The NaN pattern of a draw: its sign and fraction with exponent 255; a draw whose fraction is 0 stands for the fraction
0x400000. Every NaN pattern is its own image, so nothing is chosen among them (42_float.md R190; log entry 2). -/
def nanOf (draw : BitVec 32) : Word :=
  let fraction := draw.extractLsb' 0 23
  draw.extractLsb' 31 1 ++ 0xFF#8 ++ (if fraction = 0 then 0x400000#23 else fraction)

end Sys2Proof.Machine
end

