-- ==== Sys2Proof/Machine/FloatInstr.lean ====
section
/-! DEFINITION. The floating-point instructions (42_float.md), over Machine/Binary32.lean. None faults on a value; a NaN result and an
unconvertible FTOI are free values, drawn one at a time. -/

namespace Sys2Proof.Machine

/-- The state after a draw. -/
def State.drawn (s : State) : State := { s with draws := s.draws + 1 }

/-- `x[i] <- NAN_RESULT` (42_float.md R190): the next draw, as a NaN pattern. -/
def State.setRegNaN (s : State) (i : Reg) : State := s.drawn.setReg i (nanOf (Config.nanDraw s.draws))

/-- `x[d] <- FTOI_INVALID` (42_float.md R192): the next draw. -/
def State.setRegInvalid (s : State) (d : Reg) : State := s.drawn.setReg d (Config.ftoiInvalid s.draws)

/-- The shape `x[i] <- bits(f32(x[i]) op f32(v))` (42_float.md R180 to R183); `none` is a NaN result. -/
def State.floatWith (s : State) (r : Nibble) (o : Operand) (op : F32 → F32 → Option F32) :
    Host.Outcome State Fault Refusal :=
  s.withRegOperand r o fun i v =>
    match op ⟨s.reg i⟩ ⟨v⟩ with
    | some f => pure (s.setReg i f.bits)
    | none => pure (s.setRegNaN i)

/-- The shape of ITOF and FTOI (42_float.md R186, R187): the source register is checked first, then the raw destination. -/
def State.convertWith (s : State) (r : Nibble) (d : Half) (act : Reg → Reg → State) :
    Host.Outcome State Fault Refusal :=
  s.commit do
    let i ← regOf r
    let q ← rawRegOf d
    pure (act i q)

/-- FADD (42_float.md R180). -/
def execFadd (r : Nibble) (o : Operand) (s : State) : Host.Outcome State Fault Refusal :=
  s.floatWith r o F32.add

/-- FSUB (42_float.md R181). -/
def execFsub (r : Nibble) (o : Operand) (s : State) : Host.Outcome State Fault Refusal :=
  s.floatWith r o F32.sub

/-- FMUL (42_float.md R182). -/
def execFmul (r : Nibble) (o : Operand) (s : State) : Host.Outcome State Fault Refusal :=
  s.floatWith r o F32.mul

/-- FDIV (42_float.md R183). -/
def execFdiv (r : Nibble) (o : Operand) (s : State) : Host.Outcome State Fault Refusal :=
  s.floatWith r o F32.div

/-- FMOVHI (42_float.md R184): as MOVHI, bits and no conversion. -/
def execFmovhi (r : Nibble) (o : Operand) (s : State) : Host.Outcome State Fault Refusal :=
  s.updateWith r o fun x v => withHigh x (lowHalf v)

/-- FMOVLO (42_float.md R185): as MOVLO, bits and no conversion. -/
def execFmovlo (r : Nibble) (o : Operand) (s : State) : Host.Outcome State Fault Refusal :=
  s.updateWith r o fun x v => withLow x (lowHalf v)

/-- ITOF (42_float.md R186, R191). -/
def execItof (r : Nibble) (d : Half) (s : State) : Host.Outcome State Fault Refusal :=
  s.convertWith r d fun i q => s.setReg q (F32.ofInt (s.reg i).toInt).bits

/-- FTOI (42_float.md R187, R192). -/
def execFtoi (r : Nibble) (d : Half) (s : State) : Host.Outcome State Fault Refusal :=
  s.convertWith r d fun i q =>
    match F32.toInt? ⟨s.reg i⟩ with
    | some z => s.setReg q (BitVec.ofInt 32 z)
    | none => s.setRegInvalid q

end Sys2Proof.Machine
end

