-- ==== Sys2Proof/Machine/IntegerArith.lean ====
section
/-! DEFINITION. Integer arithmetic (41_integer_arithmetic.md). Every result is the low 32 bits of the exact one (R168). -/

namespace Sys2Proof.Machine

/-- The quotient truncated toward zero, low 32 bits (41_integer_arithmetic.md R169). -/
def quotient (a b : Word) : Word := BitVec.ofInt 32 (a.toInt.tdiv b.toInt)

/-- The remainder with the dividend's sign, low 32 bits (41_integer_arithmetic.md R169). -/
def remainder (a b : Word) : Word := BitVec.ofInt 32 (a.toInt.tmod b.toInt)

/-- The shape of DIV and MOD: a zero divisor is an `ArithmeticFault` (60_exceptions.md R283). -/
def State.divideWith (s : State) (r : Nibble) (o : Operand) (f : Word → Word → Word) :
    Host.Outcome State Fault Refusal :=
  s.withRegOperand r o fun i v =>
    if v = 0 then .error .arithmeticFault else pure (s.setReg i (f (s.reg i) v))

/-- ADD (41_integer_arithmetic.md R160). -/
def execAdd (r : Nibble) (o : Operand) (s : State) : Host.Outcome State Fault Refusal :=
  s.updateWith r o fun x v => x + v

/-- SUB (41_integer_arithmetic.md R161). -/
def execSub (r : Nibble) (o : Operand) (s : State) : Host.Outcome State Fault Refusal :=
  s.updateWith r o fun x v => x - v

/-- MUL (41_integer_arithmetic.md R162): the low 32 bits of the product. -/
def execMul (r : Nibble) (o : Operand) (s : State) : Host.Outcome State Fault Refusal :=
  s.updateWith r o fun x v => x * v

/-- DIV (41_integer_arithmetic.md R163). -/
def execDiv (r : Nibble) (o : Operand) (s : State) : Host.Outcome State Fault Refusal :=
  s.divideWith r o quotient

/-- MOD (41_integer_arithmetic.md R164). -/
def execMod (r : Nibble) (o : Operand) (s : State) : Host.Outcome State Fault Refusal :=
  s.divideWith r o remainder

/-- INC (41_integer_arithmetic.md R165). -/
def execInc (r : Nibble) (s : State) : Host.Outcome State Fault Refusal :=
  s.updateReg r fun x => x + 1

/-- DEC (41_integer_arithmetic.md R166). -/
def execDec (r : Nibble) (s : State) : Host.Outcome State Fault Refusal :=
  s.updateReg r fun x => x - 1

/-- NEG (41_integer_arithmetic.md R167): `~r + 1`. -/
def execNeg (r : Nibble) (s : State) : Host.Outcome State Fault Refusal :=
  s.updateReg r fun x => ~~~x + 1

end Sys2Proof.Machine
end

