-- ==== Sys2Proof/Machine/StackFrame.lean ====
section
/-! DEFINITION. Stack and frame instructions (45_stack_frames.md), over Push and Pop (20_memory.md R80, R81). -/

namespace Sys2Proof.Machine

/-- PUSH (45_stack_frames.md R250): the register is read before ESP changes. -/
def execPush (r : Nibble) (s : State) : Host.Outcome State Fault Refusal :=
  s.commit do
    let i ← regOf r
    s.push (s.reg i)

/-- POP (45_stack_frames.md R251): the destination is written after the ESP update. -/
def execPop (r : Nibble) (s : State) : Host.Outcome State Fault Refusal :=
  s.commit do
    let i ← regOf r
    let (val, t) ← s.pop
    pure (t.setReg i val)

/-- XCHG (45_stack_frames.md R252): the prior content is the register's at instruction start; the register is written last. -/
def execXchg (r : Nibble) (s : State) : Host.Outcome State Fault Refusal :=
  s.commit do
    let i ← regOf r
    let (val, t) ← s.pop
    let u ← t.push (s.reg i)
    pure (u.setReg i val)

/-- ENTER (45_stack_frames.md R253): the size is resolved before the push; the subtraction wraps and is not checked. -/
def execEnter (o : Operand) (s : State) : Host.Outcome State Fault Refusal :=
  s.commit do
    let v ← s.resolve o
    let t ← s.push (s.reg .ebp)
    let u := t.setReg .ebp (t.reg .esp)
    pure (u.setReg .esp (u.reg .esp - v))

/-- LEAVE (45_stack_frames.md R254): ESP = EBP, then EBP is popped. -/
def execLeave (s : State) : Host.Outcome State Fault Refusal :=
  s.commit do
    let (val, t) ← (s.setReg .esp (s.reg .ebp)).pop
    pure (t.setReg .ebp val)

end Sys2Proof.Machine
end

