-- ==== Sys2Proof/Machine/System.lean ====
section
/-! DEFINITION. The system instruction (46_system.md) and the unassigned opcodes. -/

namespace Sys2Proof.Machine

/-- HLT (46_system.md R270): the halted bit, no further effect; the pc keeps its post-fetch value. -/
def execHlt (s : State) : Host.Outcome State Fault Refusal :=
  s.commit (pure s.setHalted)

/-- An opcode byte that no mnemonic has (46_system.md R271, 30_encoding.md R121): `IllegalInstruction`, with the pc advanced
and no other field of the word looked at. `s` is the post-fetch state. -/
def execUnassigned (opcode : Byte) (s : State) : Host.Outcome State Fault Refusal :=
  s.commit (.error (.illegalInstruction opcode))

end Sys2Proof.Machine
end

