-- ==== Sys2Proof/Machine/Dispatch.lean ====
section
/-! DEFINITION. The dispatch: one arm per constructor of `Instr`, each one direct call of its meaning. `s` is the
post-fetch state, its pc already the address of the instruction plus 4 (10_state.md R31). -/

namespace Sys2Proof.Machine

def exec (i : Instr) (s : State) : Host.Outcome State Fault Refusal :=
  match i with
  | .mov r o => Sys2Proof.Machine.execMov r o s
  | .movhi r o => Sys2Proof.Machine.execMovhi r o s
  | .movlo r o => Sys2Proof.Machine.execMovlo r o s
  | .ld r o => Sys2Proof.Machine.execLd r o s
  | .ldhi r o => Sys2Proof.Machine.execLdhi r o s
  | .ldlo r o => Sys2Proof.Machine.execLdlo r o s
  | .st r o => Sys2Proof.Machine.execSt r o s
  | .sthi r o => Sys2Proof.Machine.execSthi r o s
  | .stlo r o => Sys2Proof.Machine.execStlo r o s
  | .push r => Sys2Proof.Machine.execPush r s
  | .pop r => Sys2Proof.Machine.execPop r s
  | .xchg r => Sys2Proof.Machine.execXchg r s
  | .add r o => Sys2Proof.Machine.execAdd r o s
  | .sub r o => Sys2Proof.Machine.execSub r o s
  | .mul r o => Sys2Proof.Machine.execMul r o s
  | .div r o => Sys2Proof.Machine.execDiv r o s
  | .mod r o => Sys2Proof.Machine.execMod r o s
  | .inc r => Sys2Proof.Machine.execInc r s
  | .dec r => Sys2Proof.Machine.execDec r s
  | .neg r => Sys2Proof.Machine.execNeg r s
  | .fadd r o => Sys2Proof.Machine.execFadd r o s
  | .fsub r o => Sys2Proof.Machine.execFsub r o s
  | .fmul r o => Sys2Proof.Machine.execFmul r o s
  | .fdiv r o => Sys2Proof.Machine.execFdiv r o s
  | .fmovhi r o => Sys2Proof.Machine.execFmovhi r o s
  | .fmovlo r o => Sys2Proof.Machine.execFmovlo r o s
  | .itof r d => Sys2Proof.Machine.execItof r d s
  | .ftoi r d => Sys2Proof.Machine.execFtoi r d s
  | .and r o => Sys2Proof.Machine.execAnd r o s
  | .or r o => Sys2Proof.Machine.execOr r o s
  | .xor r o => Sys2Proof.Machine.execXor r o s
  | .not r => Sys2Proof.Machine.execNot r s
  | .shl r o => Sys2Proof.Machine.execShl r o s
  | .shr r o => Sys2Proof.Machine.execShr r o s
  | .rol r o => Sys2Proof.Machine.execRol r o s
  | .ror r o => Sys2Proof.Machine.execRor r o s
  | .test r o => Sys2Proof.Machine.execTest r o s
  | .cmp r o => Sys2Proof.Machine.execCmp r o s
  | .jeq o => Sys2Proof.Machine.execJeq o s
  | .jne o => Sys2Proof.Machine.execJne o s
  | .jgt o => Sys2Proof.Machine.execJgt o s
  | .jlt o => Sys2Proof.Machine.execJlt o s
  | .jge o => Sys2Proof.Machine.execJge o s
  | .jle o => Sys2Proof.Machine.execJle o s
  | .jmp o => Sys2Proof.Machine.execJmp o s
  | .jmprel o => Sys2Proof.Machine.execJmprel o s
  | .jmpx t => Sys2Proof.Machine.execJmpx t s
  | .call o => Sys2Proof.Machine.execCall o s
  | .ret => Sys2Proof.Machine.execRet s
  | .enter o => Sys2Proof.Machine.execEnter o s
  | .leave => Sys2Proof.Machine.execLeave s
  | .hlt => Sys2Proof.Machine.execHlt s

end Sys2Proof.Machine
end

