-- ==== Sys2Proof/Machine/Step.lean ====
section
/-! DEFINITION. One Step (10_state.md R44): nothing while Halted or Faulted, else fetch, decode, execute. -/

namespace Sys2Proof.Machine

/-- `Step()` (10_state.md R44). A fetch fault leaves the pc; every later fault leaves it advanced (60_exceptions.md R300). -/
def step (s : State) : Host.Outcome State Fault Refusal :=
  if s.running then
    match s.fetch with
    | .error f => .next (s.takeFault f)
    | .ok w =>
      match decodeWord w with
      | .ok i => exec i s.released.advancePc
      | .error _ => execUnassigned (opcodeField w) s.released.advancePc
  else .next s

/-- `s` with the instruction whose bits are `w` (bits above `nbits` zero) where `step` fetches its next one (log entry 9). -/
def State.withFetchWord (s : State) (nbits w : Nat) : State :=
  s.placeWord (BitVec.ofNat 32 (w % 2 ^ nbits))

end Sys2Proof.Machine
end

