-- ==== Sys2Proof/Machine/HostPort.lean ====
section
/-! DEFINITION. The host's operations (70_reset_and_hazards.md R320 to R336). The host acts between Steps only (R321), so each
is a function of the state. One that is refused answers none and changes nothing (R326, R328, R330); none sets the fault
latch. `Reset` is `State.hostReset` of Machine/Ops.lean. -/

namespace Sys2Proof.Machine

/-! ### Memory -/

/-- A `MemRead` or `MemWrite` of the host: out of bounds it is refused, and no fault is latched. -/
def hostResult {α : Type} (e : Except FaultRecord α) : Option α :=
  match e with
  | .ok v => some v
  | .error _ => none

/-- `readByte(addr)` (R326). -/
def State.readByte (s : State) (a : Word) : Option Byte := (hostResult (s.memRead a .one)).map fun v => v.setWidth 8

/-- `readWord(addr)` (R326). -/
def State.readWord (s : State) (a : Word) : Option Word := hostResult (s.memRead a .four)

/-- `writeByte(addr, byte)` (R326). -/
def State.writeByte (s : State) (a : Word) (b : Byte) : Option State := hostResult (s.memWrite a .one (b.setWidth 32))

/-- `writeWord(addr, u32)` (R326). -/
def State.writeWord (s : State) (a : Word) (v : Word) : Option State := hostResult (s.memWrite a .four v)

/-- Memory with every byte zero. -/
def Memory.cleared : Memory := Memory.copyIn [] 0 (if Memory.unlisted = 0 then [] else List.replicate Config.memSize 0)

/-- `clear()` (R327): memory zero-filled, no core state changed. -/
def State.clear (s : State) : State := s.setMem Memory.cleared

/-- `loadProgram(bytes)` (R328): none is `LoadFault`, with nothing written; else the bytes stand from the text origin on. -/
def State.loadProgram (s : State) (bytes : List Byte) : Option State :=
  if bytes.length > Config.dataBase - Config.textBase then none
  else some (s.setMem (Memory.copyIn s.mem Config.textBase bytes))

/-! ### Registers and observers -/

/-- The register of an index, for the host: an index outside 0 to 7 is refused (R330). -/
def hostReg (i : Int) : Option Reg := if 0 ≤ i then Reg.ofNat? i.toNat else none

/-- `getRegister(i)` (R330). -/
def State.getRegister (s : State) (i : Int) : Option Word := (hostReg i).map s.reg

/-- `setRegister(i, v)` (R330). -/
def State.setRegister (s : State) (i : Int) (v : Word) : Option State := (hostReg i).map fun q => s.setReg q v

/-- `getRegisterAsFloat(i)` (R331): the same bits, no conversion. -/
def State.getRegisterAsFloat (s : State) (i : Int) : Option F32 := (s.getRegister i).map fun v => ⟨v⟩

/-- `setRegisterAsFloat(i, f)` (R331): the same bits, no conversion. -/
def State.setRegisterAsFloat (s : State) (i : Int) (f : F32) : Option State := s.setRegister i f.bits

/-- The number of a fault kind (60_exceptions.md R280), for a host that wants an integer. -/
def FaultRecord.code : FaultRecord → Nat
  | .memoryFault _ => 1
  | .stackFault _ => 2
  | .arithmeticFault => 3
  | .illegalInstruction _ => 4
  | .illegalAddressingMode _ => 5
  | .illegalRegister _ => 6

/-- What the host's read-only observers show (R336): pc, flags, halted, and the fault record. -/
structure Observed where
  pc : Word
  flags : Nat
  halted : Bool
  fault : Option FaultRecord
  deriving DecidableEq, Repr

/-- The observers (R336). -/
def State.observe (s : State) : Observed :=
  { pc := s.pc, flags := s.flags.value, halted := s.halted, fault := s.fault }

/-! ### Step and Run -/

/-- The three-valued result of `step()` (R329). -/
inductive StepResult where
  | ok
  | fault (f : FaultRecord)
  | noop
  deriving DecidableEq, Repr

/-- What a Step from `s` to `t` reports (R329). -/
def stepResult (s t : State) : StepResult :=
  if s.running then
    match t.fault with
    | some f => .fault f
    | none => .ok
  else .noop

/-- `step()` (R329): one Step and its result. -/
def State.hostStep (s : State) : Host.Outcome (StepResult × State) Fault Refusal :=
  match step s with
  | .next t => .next (stepResult s t, t)
  | .fault r => .fault r
  | .refused r => .refused r

/-- The four outcomes of Run (R332). -/
inductive RunOutcome where
  | fault (f : FaultRecord)
  | halted
  | pcOutOfRange
  | cycleLimit
  deriving DecidableEq, Repr

/-- Why Run stops before it counts, if it does, in the order R332 tests: the latched fault, `halted`, the pc. -/
def State.runStop (s : State) : Option RunOutcome :=
  match s.fault with
  | some f => some (.fault f)
  | none =>
    if s.halted then some .halted
    else if Config.memSize ≤ s.pc.toNat then some .pcOutOfRange
    else none

/-- The loop of Run with `left` cycles to go (R332): the outcome, the Steps taken, and the state it leaves. -/
def State.runLoop : Nat → State → Host.Outcome ((RunOutcome × Nat) × State) Fault Refusal
  | 0, s =>
    match s.runStop with
    | some out => .next ((out, 0), s)
    | none => .next ((.cycleLimit, 0), s)
  | left + 1, s =>
    match s.runStop with
    | some out => .next ((out, 0), s)
    | none =>
      match step s with
      | .next t =>
        match State.runLoop left t with
        | .next ((out, n), u) => .next ((out, n + 1), u)
        | .fault r => .fault r
        | .refused r => .refused r
      | .fault r => .fault r
      | .refused r => .refused r

/-- `Run(maxCycles)` (R332), the default cutoff 1000. `delay` has no effect and is dropped. -/
def State.run (s : State) (maxCycles : Nat := Config.maxCycles) :
    Host.Outcome ((RunOutcome × Nat) × State) Fault Refusal :=
  State.runLoop maxCycles s

end Sys2Proof.Machine
end

