-- ==== Sys2Proof/WellFormed.lean ====
section
/-! DEFINITION. The static checks: the conditions on an instruction's own fields without which the execute stage rejects it
whatever the state holds (30_encoding.md R106, R108, R111; 42_float.md R186). An ill-formed instruction still decodes and
still has its meaning: it takes `IllegalAddressingMode` or `IllegalRegister`. -/

namespace Sys2Proof

/-- A `reg` field that names one of the 8 registers (30_encoding.md R106). -/
def regFieldOk (r : Nibble) : Bool := decide (r.toNat < 8)

/-- An addressing mode that has a meaning: 0 to 11 (30_encoding.md R107, R111). -/
def modeOk (o : Operand) : Bool := decide (o.mode.toNat < 12)

/-- In mode 2, the low four bits of the operand name one of the 8 registers (30_encoding.md R109). -/
def modeRegOk (o : Operand) : Bool := decide (o.mode.toNat = 2 → o.imm16.toNat % 16 < 8)

/-- What the resolver needs of its input. -/
def operandOk (o : Operand) : Bool := modeOk o && modeRegOk o

/-- The raw destination index of ITOF and FTOI: the whole operand is one of 0 to 7 (42_float.md R186). -/
def rawRegOk (d : Half) : Bool := decide (d.toNat < 8)

/-- Well-formed: no field the instruction uses is one that the execute stage rejects by itself. -/
def Instr.wellFormed : Instr → Bool
  | .mov r o => operandOk o && regFieldOk r
  | .movhi r o => operandOk o && regFieldOk r
  | .movlo r o => operandOk o && regFieldOk r
  | .ld r o => operandOk o && regFieldOk r
  | .ldhi r o => operandOk o && regFieldOk r
  | .ldlo r o => operandOk o && regFieldOk r
  | .st r o => operandOk o && regFieldOk r
  | .sthi r o => operandOk o && regFieldOk r
  | .stlo r o => operandOk o && regFieldOk r
  | .push r => regFieldOk r
  | .pop r => regFieldOk r
  | .xchg r => regFieldOk r
  | .add r o => operandOk o && regFieldOk r
  | .sub r o => operandOk o && regFieldOk r
  | .mul r o => operandOk o && regFieldOk r
  | .div r o => operandOk o && regFieldOk r
  | .mod r o => operandOk o && regFieldOk r
  | .inc r => regFieldOk r
  | .dec r => regFieldOk r
  | .neg r => regFieldOk r
  | .fadd r o => operandOk o && regFieldOk r
  | .fsub r o => operandOk o && regFieldOk r
  | .fmul r o => operandOk o && regFieldOk r
  | .fdiv r o => operandOk o && regFieldOk r
  | .fmovhi r o => operandOk o && regFieldOk r
  | .fmovlo r o => operandOk o && regFieldOk r
  | .itof r d => regFieldOk r && rawRegOk d
  | .ftoi r d => regFieldOk r && rawRegOk d
  | .and r o => operandOk o && regFieldOk r
  | .or r o => operandOk o && regFieldOk r
  | .xor r o => operandOk o && regFieldOk r
  | .not r => regFieldOk r
  | .shl r o => operandOk o && regFieldOk r
  | .shr r o => operandOk o && regFieldOk r
  | .rol r o => operandOk o && regFieldOk r
  | .ror r o => operandOk o && regFieldOk r
  | .test r o => operandOk o && regFieldOk r
  | .cmp r o => operandOk o && regFieldOk r
  | .jeq o => operandOk o
  | .jne o => operandOk o
  | .jgt o => operandOk o
  | .jlt o => operandOk o
  | .jge o => operandOk o
  | .jle o => operandOk o
  | .jmp o => operandOk o
  | .jmprel o => operandOk o
  | .jmpx _ => true
  | .call o => operandOk o
  | .ret => true
  | .enter o => operandOk o
  | .leave => true
  | .hlt => true

end Sys2Proof
end

