-- ==== Sys2Proof/Safety.lean ====
section
/-! DEFINITION. The terms the claims use: how a run ends (00_scope.md R16), the invariant, what an observer sees of a state,
and the shapes of rule that instructions share. -/

namespace Sys2Proof.Machine

/-! ### Ends of a run -/

/-- The only good end of a run: a Halted core (00_scope.md R16). -/
def State.goodEnd (s : State) : Prop := s.halted = true ∧ s.fault = none

/-- A Faulted core, never a good end (00_scope.md R16). -/
def State.badEnd (s : State) : Prop := s.fault ≠ none

/-- A run of `n` Steps is safe when it leaves no fault behind. -/
def State.safeFor (s : State) (n : Nat) : Prop := ∃ t, Host.Core.run core n s = .next t ∧ ¬ t.badEnd

/-! ### The invariant -/

/-- The `info` a fault record of each kind can hold (60_exceptions.md R280). -/
def FaultRecord.legal : FaultRecord → Prop
  | .memoryFault a => Config.memSize < a.toNat + 4
  | .stackFault _ => True
  | .arithmeticFault => True
  | .illegalInstruction b => ∀ k, opc k ≠ b
  | .illegalAddressingMode m => 12 ≤ m.toNat
  | .illegalRegister i => -32768 ≤ i ∧ i ≤ 32767 ∧ (i < 0 ∨ 7 < i)

/-- What every Step keeps: memory is in canonical form, a Faulted core is not Halted (60_exceptions.md R301), and a latched
record is one that 60_exceptions.md R280 gives. -/
structure State.Inv (s : State) : Prop where
  mem : Memory.wf s.mem
  exclusive : s.halted = true → s.fault = none
  legal : ∀ f, s.fault = some f → f.legal

/-! ### What an observer sees -/

/-- The byte at an address. -/
def State.byte (s : State) (a : Nat) : Byte := Memory.read s.mem a

/-- Everything there is to see of a state: each register, each byte of memory, and the rest. -/
@[ext] structure View where
  reg : Reg → Word
  pc : Word
  flags : Flag
  halted : Bool
  fault : Option FaultRecord
  byte : Nat → Byte
  draws : Nat

/-- The view of a state. -/
def State.view (s : State) : View :=
  { reg := s.reg, pc := s.pc, flags := s.flags, halted := s.halted, fault := s.fault, byte := s.byte, draws := s.draws }

/-- The instruction runs from the post-fetch state `s` to a next state that looks like `w`. -/
def Does (i : Instr) (s : State) (w : View) : Prop := ∃ t, exec i s = .next t ∧ t.view = w

/-- The view of `s` with a fault latched and nothing else changed (60_exceptions.md R300). -/
def faulted (s : State) (f : FaultRecord) : View := { s.view with fault := some f }

/-- The view of `s` with one register changed. -/
def withReg (s : State) (q : Reg) (v : Word) : View := { s.view with reg := Function.update s.reg q v }

/-- Bytes with the low `n` bytes of a word stored at `a`, the lowest first (20_memory.md R67). -/
def storedAt (old : Nat → Byte) (a n : Nat) (v : Word) : Nat → Byte :=
  fun b => if a ≤ b ∧ b < a + n then v.extractLsb' (8 * (b - a)) 8 else old b

/-- The number that `n` bytes at `a` make, the lowest first (20_memory.md R66). -/
def littleEndian (bytes : Nat → Byte) (a n : Nat) : Nat := ∑ k ∈ Finset.range n, 256 ^ k * (bytes (a + k)).toNat

/-- The same as a word. -/
def wordAt (s : State) (a : Word) (n : Nat) : Word := BitVec.ofNat 32 (littleEndian s.byte a.toNat n)

/-! ### Shapes of rule -/

/-- Every word with opcode byte `b` decodes to `ins` of its register field, mode and operand. -/
def DecodesFull (b : Byte) (ins : Nibble → Operand → Instr) : Prop :=
  ∀ w, opcodeField w = b → decodeWord w = .ok (ins (regField w) ⟨modeField w, immField w⟩)

/-- Every word with opcode byte `b` decodes to `ins` of its register field; mode and operand are ignored. -/
def DecodesReg (b : Byte) (ins : Nibble → Instr) : Prop :=
  ∀ w, opcodeField w = b → decodeWord w = .ok (ins (regField w))

/-- Every word with opcode byte `b` decodes to `ins` of its mode and operand; the register field is ignored. -/
def DecodesOperand (b : Byte) (ins : Operand → Instr) : Prop :=
  ∀ w, opcodeField w = b → decodeWord w = .ok (ins ⟨modeField w, immField w⟩)

/-- Every word with opcode byte `b` decodes to `i`; the other fields are ignored. -/
def DecodesBare (b : Byte) (i : Instr) : Prop := ∀ w, opcodeField w = b → decodeWord w = .ok i

/-- The operand is resolved first, then the register is checked; the first that fails is the fault taken
(60_exceptions.md R290). -/
def ChecksInOrder (ins : Nibble → Operand → Instr) : Prop :=
  (∀ s r o f, State.resolve s o = .error f → Does (ins r o) s (faulted s f)) ∧
  ∀ s r o v, State.resolve s o = .ok v → 8 ≤ r.toNat → Does (ins r o) s (faulted s (.illegalRegister r.toNat))

/-- The register is checked. -/
def ChecksReg (ins : Nibble → Instr) : Prop :=
  ∀ (s : State) (r : Nibble), 8 ≤ r.toNat → Does (ins r) s (faulted s (.illegalRegister r.toNat))

/-- The operand is resolved, and its fault is the instruction's. -/
def ChecksOperand (ins : Operand → Instr) : Prop :=
  ∀ s o f, State.resolve s o = .error f → Does (ins o) s (faulted s f)

/-- `v <- Resolve(mode, operand); i <- Reg(r); x[i] <- f(x[i], v)`, and nothing else. -/
def UpdateRule (b : Byte) (ins : Nibble → Operand → Instr) (f : Word → Word → Word) : Prop :=
  DecodesFull b ins ∧ ChecksInOrder ins ∧
  ∀ s q o v, State.resolve s o = .ok v → Does (ins q.field o) s (withReg s q (f (s.reg q) v))

/-- `i <- Reg(r); x[i] <- f(x[i])`, and nothing else. -/
def UnaryRule (b : Byte) (ins : Nibble → Instr) (f : Word → Word) : Prop :=
  DecodesReg b ins ∧ ChecksReg ins ∧
  ∀ (s : State) (q : Reg), Does (ins q.field) s (withReg s q (f (s.reg q)))

/-- `v <- Resolve(mode, operand); i <- Reg(r); flags <- c(x[i], v)`, and nothing else. -/
def FlagRule (b : Byte) (ins : Nibble → Operand → Instr) (c : Word → Word → Flag) : Prop :=
  DecodesFull b ins ∧ ChecksInOrder ins ∧
  ∀ s q o v, State.resolve s o = .ok v → Does (ins q.field o) s { s.view with flags := c (s.reg q) v }

/-- A load of `n` bytes at the resolved address: `x[i] <- f(x[i], bytes)`, or `MemoryFault`. -/
def LoadRule (b : Byte) (ins : Nibble → Operand → Instr) (n : Nat) (f : Word → Word → Word) : Prop :=
  DecodesFull b ins ∧ ChecksInOrder ins ∧
  ∀ s q o a, State.resolve s o = .ok a →
    if a.toNat + n ≤ 0x10000 then Does (ins q.field o) s (withReg s q (f (s.reg q) (wordAt s a n)))
    else Does (ins q.field o) s (faulted s (.memoryFault a))

/-- A store of `n` bytes at the resolved address, the low bytes of `f(x[i])`, or `MemoryFault` with no byte stored. -/
def StoreRule (b : Byte) (ins : Nibble → Operand → Instr) (n : Nat) (f : Word → Word) : Prop :=
  DecodesFull b ins ∧ ChecksInOrder ins ∧
  ∀ s q o a, State.resolve s o = .ok a →
    if a.toNat + n ≤ 0x10000 then
      Does (ins q.field o) s { s.view with byte := storedAt s.byte a.toNat n (f (s.reg q)) }
    else Does (ins q.field o) s (faulted s (.memoryFault a))

/-- A jump to `target(pc, v)`, absolute or relative to the post-fetch pc, taken for the flags values given. -/
def JumpRule (b : Byte) (ins : Operand → Instr) (less equal greater : Bool) (target : Word → Word → Word) : Prop :=
  DecodesOperand b ins ∧ ChecksOperand ins ∧
  ∀ s o v, State.resolve s o = .ok v →
    Does (ins o) s
      { s.view with
        pc := if (match s.flags with | .less => less | .equal => equal | .greater => greater) then target s.pc v
              else s.pc }

/-- What a push does first (20_memory.md R80): `StackFault`, else `MemoryFault`, else what `done` shows. -/
def PushCases (i : Instr) (s : State) (done : View) : Prop :=
  if (s.reg .esp).toInt - 4 < 0xC000 then Does i s (faulted s (.stackFault .overflow))
  else if 0x10000 < (s.reg .esp).toInt then Does i s (faulted s (.memoryFault (s.reg .esp - 4)))
  else Does i s done

/-- What a pop at `sp` does first (20_memory.md R81): `StackFault`, else `MemoryFault`, else what `done` shows. -/
def PopCases (i : Instr) (s : State) (sp : Word) (done : View) : Prop :=
  if 0xFFFF < sp.toInt + 4 then Does i s (faulted s (.stackFault .underflow))
  else if sp.toInt < 0 then Does i s (faulted s (.memoryFault sp))
  else Does i s done

/-- A float instruction: the datum of `op`, or any NaN pattern where it has none, counted as a draw. -/
def FloatRule (b : Byte) (ins : Nibble → Operand → Instr) (op : F32 → F32 → Option F32) : Prop :=
  DecodesFull b ins ∧ ChecksInOrder ins ∧
  ∀ s q o v, State.resolve s o = .ok v →
    match op ⟨s.reg q⟩ ⟨v⟩ with
    | some f => Does (ins q.field o) s (withReg s q f.bits)
    | none => ∃ n : Word, F32.isNaN ⟨n⟩ = true ∧ Does (ins q.field o) s { withReg s q n with draws := s.draws + 1 }

/-- ITOF and FTOI: source register, then raw destination, then the conversion; `conv` gives the result, or none where it is a
free value, counted as a draw. -/
def ConvertRule (b : Byte) (ins : Nibble → Half → Instr) (conv : Word → Option Word) : Prop :=
  (∀ w, opcodeField w = b → decodeWord w = .ok (ins (regField w) (immField w))) ∧
  (∀ (s : State) (r : Nibble) (d : Half), 8 ≤ r.toNat → Does (ins r d) s (faulted s (.illegalRegister r.toNat))) ∧
  (∀ (s : State) (q : Reg) (d : Half), d.toInt < 0 ∨ 7 < d.toInt →
    Does (ins q.field d) s (faulted s (.illegalRegister d.toInt))) ∧
  ∀ (s : State) (q p : Reg) (d : Half), d.toInt = p.index →
    match conv (s.reg q) with
    | some v => Does (ins q.field d) s (withReg s p v)
    | none => ∃ v : Word, Does (ins q.field d) s { withReg s p v with draws := s.draws + 1 }

/-- The kinds of fault that an instruction's own fields cause: the mode and the register indices. -/
def FaultRecord.isStatic : FaultRecord → Bool
  | .illegalAddressingMode _ => true
  | .illegalRegister _ => true
  | _ => false

/-! ### Binary32 data as rational numbers (42_float.md R188) -/

/-- A zero, a subnormal or a normal number. -/
def F32.isFinite (f : F32) : Bool := f.exponent != 255

/-- An infinity. -/
def F32.isInfinite (f : F32) : Bool := f.exponent == 255 && f.fraction == 0

/-- The number a finite datum stands for: bias 127, exponent 0 without the implicit bit. -/
def F32.rat (f : F32) : ℚ :=
  (if f.negative then -1 else 1) *
    (if f.exponent = 0 then (f.fraction : ℚ) * 2 ^ (-149 : ℤ)
     else (2 ^ 23 + f.fraction : ℚ) * 2 ^ ((f.exponent : ℤ) - 150))

/-- `z` is `x` correctly rounded to binary32, to nearest with ties to even (42_float.md R189): from half a unit above the
largest finite datum on an infinity of the right sign; below, a finite datum that no finite datum is nearer than, and that is
even where another is as near. -/
def RoundsTo (x : ℚ) (z : F32) : Prop :=
  ((2 ^ 25 - 1) * 2 ^ 103 ≤ |x| → z.isInfinite = true ∧ (z.negative = true ↔ x < 0)) ∧
  (|x| < (2 ^ 25 - 1) * 2 ^ 103 → z.isFinite = true ∧ ∀ y : F32, y.isFinite = true →
    |z.rat - x| ≤ |y.rat - x| ∧ (|y.rat - x| = |z.rat - x| → y.rat ≠ z.rat → z.fraction % 2 = 0))

end Sys2Proof.Machine

namespace Sys2Proof

open Machine

/-! ### What an instruction may write (30_encoding.md R122) -/

/-- The registers an instruction may write: those of the columns `reg` (W), `resolver` (raw destination) and
`implicit registers` of 30_encoding.md R122. -/
def Instr.mayWrite (i : Instr) (q : Reg) : Prop :=
  match i with
  | .mov r _ | .movhi r _ | .movlo r _ | .ld r _ | .ldhi r _ | .ldlo r _ | .add r _ | .sub r _ | .mul r _ | .div r _
  | .mod r _ | .fadd r _ | .fsub r _ | .fmul r _ | .fdiv r _ | .fmovhi r _ | .fmovlo r _ | .and r _ | .or r _ | .xor r _
  | .shl r _ | .shr r _ | .rol r _ | .ror r _ | .inc r | .dec r | .neg r | .not r | .xchg r => r = q.field
  | .itof _ d | .ftoi _ d => d.toInt = q.index
  | .pop r => r = q.field ∨ q = .esp
  | .push _ | .call _ | .ret => q = .esp
  | .enter _ | .leave => q = .ebp ∨ q = .esp
  | .st _ _ | .sthi _ _ | .stlo _ _ | .test _ _ | .cmp _ _ | .jeq _ | .jne _ | .jgt _ | .jlt _ | .jge _ | .jle _ | .jmp _
  | .jmprel _ | .jmpx _ | .hlt => False

/-- The bytes an instruction stores to, first address and count, in the state its execute stage begins in: the resolved
address of a store, the word below ESP of a push, the word at ESP of XCHG (20_memory.md R69). -/
def Instr.storesTo (i : Instr) (s : State) : Option (Nat × Nat) :=
  match i with
  | .st _ o => (hostResult (s.resolve o)).map fun a => (a.toNat, 1)
  | .sthi _ o | .stlo _ o => (hostResult (s.resolve o)).map fun a => (a.toNat, 2)
  | .push _ | .call _ | .enter _ => some ((s.reg .esp - 4).toNat, 4)
  | .xchg _ => some ((s.reg .esp).toNat, 4)
  | _ => none

/-- The instructions that write the pc (10_state.md R30). -/
def Instr.transfersControl (i : Instr) : Prop :=
  i.mnemonic ∈ [Mnemonic.jeq, .jne, .jgt, .jlt, .jge, .jle, .jmp, .jmprel, .jmpx, .call, .ret]

/-- The instructions that read the flags (10_state.md R37). -/
def Instr.readsFlags (i : Instr) : Prop := i.mnemonic ∈ [Mnemonic.jeq, .jne, .jgt, .jlt, .jge, .jle]

/-! ### Fields an instruction uses (30_encoding.md R122) -/

/-- The mnemonics that use the `reg` field. -/
def Mnemonic.usesReg (k : Mnemonic) : Bool :=
  k ∉ [Mnemonic.jeq, .jne, .jgt, .jlt, .jge, .jle, .jmp, .jmprel, .jmpx, .call, .ret, .enter, .leave, .hlt]

/-- The mnemonics that use the `imm16` field: those that resolve, and the three that bypass the resolver. -/
def Mnemonic.usesOperand (k : Mnemonic) : Bool :=
  k ∉ [Mnemonic.push, .pop, .xchg, .inc, .dec, .neg, .not, .ret, .leave, .hlt]

/-- The mnemonics that use the `mode` field: those that resolve. -/
def Mnemonic.usesMode (k : Mnemonic) : Bool := k.usesOperand && k ∉ [Mnemonic.itof, .ftoi, .jmpx]

end Sys2Proof
end

