-- ==== Sys2Proof/Certificates/Slice0/Obligations.lean ====
section
/-! DEFINITION. The statements for the provers. `exec i s` runs an instruction in the post-fetch state `s`, so `s.pc` there
is the address of the instruction plus 4 (10_state.md R31); `Does i s w` says that it answers a next state that looks like the
view `w`. A record update of `s.view` says that every register, flag, latch and byte of memory it does not name is unchanged. -/

open Sys2Proof Sys2Proof.Machine

/-! ### Encoding -/

/-- 30_encoding.md R100, R120, R130 (the opcode bytes and the zeros in unused fields are the spec's decisions D1 and
D26; log entries 5 and 11): decoding the word of an instruction gives the instruction back, with every field it uses,
for the table of R120 and under any injective opcode assignment. -/
def Obligations.DecodeInvertsEncode : Prop :=
  (∀ i : Instr, decodeWord (encode i) = .ok i) ∧
  ∀ m : OpcodeMap, Function.Injective m → ∀ i : Instr, decodeWith m (encodeWith m i) = .ok i

/-- Two words decode to one instruction exactly when they agree on the opcode byte and on each field the instruction
uses. Which fields those are is 30_encoding.md R122 and 10_state.md R46 (the spec's decisions D4 and D10). That words
differing in the other fields are ONE instruction is the model's DESIGN CHOICE (log entry 11): R102's decoder keeps
all four fields. -/
def Obligations.DecodeReadsExactlyTheUsedFields : Prop :=
  ∀ (w w' : Word) (i : Instr), decodeWord w = .ok i →
    (decodeWord w' = .ok i ↔
      opcodeField w' = opcodeField w ∧
      (i.mnemonic.usesReg = true → regField w' = regField w) ∧
      (i.mnemonic.usesMode = true → modeField w' = modeField w) ∧
      (i.mnemonic.usesOperand = true → immField w' = immField w))

/-- 30_encoding.md R101 (the spec derives it from R100 and 20_memory.md R64): what each of the four bytes of an
instruction holds, lowest address first, and the bytes the encoder writes. -/
def Obligations.InstructionBytesLieLittleEndian : Prop :=
  (∀ b0 b1 b2 b3 : Byte,
    opcodeField (wordOfBytes b0 b1 b2 b3) = b0 ∧
    (regField (wordOfBytes b0 b1 b2 b3)).toNat = b1.toNat % 16 ∧
    (modeField (wordOfBytes b0 b1 b2 b3)).toNat = b1.toNat / 16 ∧
    (immField (wordOfBytes b0 b1 b2 b3)).toNat = b2.toNat + 256 * b3.toNat) ∧
  ∀ (i : Instr) (rest : List Byte), decodeBytes (encodeBytes i ++ rest) = .ok (i, rest)

/-- Words written out in the examples of the spec's rules, and the instructions they stand for; the opcode bytes are
its decision D1 (log entry 5). -/
def Obligations.WordsOfTheSpecDecode : Prop :=
  decodeWord 0x00050001#32 = .ok (.mov 0 ⟨0, 5⟩) ∧
  decodeWord 0x0004A007#32 = .ok (.st 0 ⟨10, 4⟩) ∧
  decodeWord 0x0000D913#32 = .ok (.div 9 ⟨13, 0⟩) ∧
  decodeWord 0xFFFF0126#32 = .ok (.itof 1 0xFFFF) ∧
  decodeWord 0x1234F015#32 = .ok (.inc 0) ∧
  decodeWord 0x001F0034#32 = .ok (.shl 0 ⟨0, 31⟩) ∧
  decodeWord 0x0040F049#32 = .ok (.jmpx 0x40) ∧
  decodeWord 0x0007204A#32 = .ok (.call ⟨2, 7⟩) ∧
  decodeWord 0x0000020B#32 = .ok (.pop 2) ∧
  decodeWord 0xFFFFFF60#32 = .ok .hlt

/-- 30_encoding.md R121 (the spec's decision D2): the 204 opcode bytes the decoder refuses, by the byte alone; every
other word decodes. -/
def Obligations.UnassignedBytesAreRefused : Prop :=
  ∀ w : Word,
    let b := (opcodeField w).toNat
    if b = 0x00 ∨ (0x0D ≤ b ∧ b ≤ 0x0F) ∨ (0x18 ≤ b ∧ b ≤ 0x1F) ∨ (0x28 ≤ b ∧ b ≤ 0x2F) ∨ (0x39 ≤ b ∧ b ≤ 0x3F) ∨
      (0x4C ≤ b ∧ b ≤ 0x4F) ∨ (0x52 ≤ b ∧ b ≤ 0x5F) ∨ 0x61 ≤ b
    then decodeWord w = .error (.unassignedOpcode (opcodeField w))
    else ∃ i, decodeWord w = .ok i

/-- 30_encoding.md R103: sign extension of the operand field. -/
def Obligations.OperandIsSignExtended : Prop :=
  ∀ h : Half,
    (h.getLsbD 15 = true → operandOf h = 0xFFFF#16 ++ h) ∧
    (h.getLsbD 15 = false → operandOf h = 0x0000#16 ++ h)

/-! ### Operands -/

/-- 30_encoding.md R106 (the fault is the spec's decision D3): `Reg(i)` on every integer. -/
def Obligations.RegisterCheckAcceptsZeroToSeven : Prop :=
  ∀ i : Int,
    if 0 ≤ i ∧ i ≤ 7 then ∃ q : Reg, (q.index : Int) = i ∧ checkReg i = .ok q
    else checkReg i = .error (.illegalRegister i)

/-- 30_encoding.md R107, R108: `Resolve` on every mode and operand. That sums wrap and that a mode 2 index above 7 is
rejected are the spec's decisions D8 and D32. -/
def Obligations.ResolverFollowsItsTable : Prop :=
  ∀ (s : State) (o : Operand),
    let n := operandOf o.imm16
    let m := o.mode.toNat
    (m = 0 ∨ m = 1 → s.resolve o = .ok n) ∧
    (m = 2 → ∀ q : Reg, n.toNat % 16 = q.index → s.resolve o = .ok (s.reg q)) ∧
    (m = 2 → 8 ≤ n.toNat % 16 → s.resolve o = .error (.illegalRegister (n.toNat % 16 : Nat))) ∧
    (m = 3 → s.resolve o = .ok (0x00008000#32 + n)) ∧
    (∀ q : Reg, q.index ≤ 5 → m = q.index + 4 → s.resolve o = .ok (s.reg q + n)) ∧
    (m = 10 → s.resolve o = .ok (s.reg .ebp - n)) ∧
    (m = 11 → s.resolve o = .ok (s.reg .esp - n)) ∧
    (12 ≤ m → s.resolve o = .error (.illegalAddressingMode o.mode))

/-! ### Memory and the stack -/

/-- 20_memory.md R66: `MemRead`. -/
def Obligations.MemReadIsLittleEndian : Prop :=
  ∀ (s : State) (a : Word) (w : Width),
    if a.toNat + w.bytes - 1 > 0xFFFF then s.memRead a w = .error (.memoryFault a)
    else ∃ v, s.memRead a w = .ok v ∧ v.toNat = littleEndian s.byte a.toNat w.bytes

/-- 20_memory.md R67: `MemWrite`. -/
def Obligations.MemWriteIsAllOrNothing : Prop :=
  ∀ (s : State) (a v : Word) (w : Width),
    if a.toNat + w.bytes - 1 > 0xFFFF then s.memWrite a w v = .error (.memoryFault a)
    else ∃ t, s.memWrite a w v = .ok t ∧ t.view = { s.view with byte := storedAt s.byte a.toNat w.bytes v }

/-- 20_memory.md R65 (the spec derives it from R66 and R67): accesses of different widths to overlapping bytes see
each other. -/
def Obligations.MixedWidthAccessesAgree : Prop :=
  ∀ (s : State) (a v : Word), a.toNat + 3 ≤ 0xFFFF →
    ∃ t, s.memWrite a .four v = .ok t ∧
      t.memRead a .four = .ok v ∧
      t.memRead a .one = .ok (v &&& 0xFF#32) ∧
      t.memRead (a + 1) .two = .ok ((v >>> 8) &&& 0xFFFF#32) ∧
      t.memRead (a + 3) .one = .ok (v >>> 24)

/-- 20_memory.md R80, R81: `Push` and `Pop`, the stack test first and then the memory bounds. That the test reads ESP
as a signed number and does not wrap is the spec's decision D9. -/
def Obligations.PushAndPopFollowTheirRules : Prop :=
  (∀ (s : State) (val : Word),
    let sp := s.reg .esp
    if sp.toInt - 4 < 0xC000 then s.push val = .error (.stackFault .overflow)
    else if 0x10000 < sp.toInt then s.push val = .error (.memoryFault (sp - 4))
    else ∃ t, s.push val = .ok t ∧
      t.view = { withReg s .esp (sp - 4) with byte := storedAt s.byte (sp - 4).toNat 4 val }) ∧
  ∀ s : State,
    let sp := s.reg .esp
    if 0xFFFF < sp.toInt + 4 then s.pop = .error (.stackFault .underflow)
    else if sp.toInt < 0 then s.pop = .error (.memoryFault sp)
    else ∃ t, s.pop = .ok (wordAt s sp 4, t) ∧ t.view = withReg s .esp (sp + 4)

/-- 20_memory.md R93 (the spec derives it from R90 and 10_state.md R45): a fetch reads the bytes memory holds, so
after a store of any width at any address a fetch at any pc reads the stored bytes where it meets them and the old
ones elsewhere; a word stored at the pc is the word the next fetch reads. -/
def Obligations.StoreIsSeenByTheNextFetch : Prop :=
  (∀ s : State, s.fetch =
    if 0xFFFF < s.pc.toNat + 3 then .error (.memoryFault s.pc)
    else .ok (BitVec.ofNat 32 (littleEndian s.byte s.pc.toNat 4))) ∧
  (∀ (s t : State) (a v : Word) (n : Width), s.memWrite a n v = .ok t →
    ∀ p : Word, p.toNat + 3 ≤ 0xFFFF →
      State.fetch { t with pc := p } =
        .ok (BitVec.ofNat 32 (littleEndian (storedAt s.byte a.toNat n.bytes v) p.toNat 4))) ∧
  ∀ (s t : State) (w : Word), s.memWrite s.pc .four w = .ok t → t.fetch = .ok w

/-! ### Data movement -/

/-- 40_data_movement.md R140 to R142, 42_float.md R184, R185: MOV, MOVHI, MOVLO, FMOVHI, FMOVLO. -/
def Obligations.MovesFollowTheirRules : Prop :=
  UpdateRule 0x01 .mov (fun _ v => v) ∧
  UpdateRule 0x02 .movhi (fun x v => v.extractLsb' 0 16 ++ x.extractLsb' 0 16) ∧
  UpdateRule 0x03 .movlo (fun x v => x.extractLsb' 16 16 ++ v.extractLsb' 0 16) ∧
  UpdateRule 0x24 .fmovhi (fun x v => v.extractLsb' 0 16 ++ x.extractLsb' 0 16) ∧
  UpdateRule 0x25 .fmovlo (fun x v => x.extractLsb' 16 16 ++ v.extractLsb' 0 16)

/-- 40_data_movement.md R143 to R145: LD, LDHI, LDLO. -/
def Obligations.LoadsFollowTheirRules : Prop :=
  LoadRule 0x04 .ld 1 (fun _ w => w) ∧
  LoadRule 0x05 .ldhi 2 (fun x w => w.extractLsb' 0 16 ++ x.extractLsb' 0 16) ∧
  LoadRule 0x06 .ldlo 2 (fun x w => x.extractLsb' 16 16 ++ w.extractLsb' 0 16)

/-- 40_data_movement.md R146 to R148: ST, STHI, STLO. -/
def Obligations.StoresFollowTheirRules : Prop :=
  StoreRule 0x07 .st 1 (fun x => x) ∧
  StoreRule 0x08 .sthi 2 (fun x => x >>> 16) ∧
  StoreRule 0x09 .stlo 2 (fun x => x)

/-! ### Integer arithmetic -/

/-- 41_integer_arithmetic.md R160 to R162, R168: ADD, SUB, MUL as the low 32 bits of the exact result. -/
def Obligations.AddSubMulWrap : Prop :=
  UpdateRule 0x10 .add (fun x v => BitVec.ofInt 32 (x.toInt + v.toInt)) ∧
  UpdateRule 0x11 .sub (fun x v => BitVec.ofInt 32 (x.toInt - v.toInt)) ∧
  UpdateRule 0x12 .mul (fun x v => BitVec.ofInt 32 (x.toInt * v.toInt))

/-- 41_integer_arithmetic.md R165 to R167, 43_bitwise.md R203: INC, DEC, NEG and NOT. That their mode and operand
fields are ignored is the spec's decision D4. -/
def Obligations.UnaryInstructionsFollowTheirRules : Prop :=
  UnaryRule 0x15 .inc (fun x => BitVec.ofInt 32 (x.toInt + 1)) ∧
  UnaryRule 0x16 .dec (fun x => BitVec.ofInt 32 (x.toInt - 1)) ∧
  UnaryRule 0x17 .neg (fun x => BitVec.ofInt 32 (-x.toInt)) ∧
  UnaryRule 0x33 .not (fun x => BitVec.ofInt 32 (-x.toInt - 1))

/-- 41_integer_arithmetic.md R163, R164, R169: DIV and MOD. Truncation and the result of -2^31 by -1 are the spec's
decision D13. A zero divisor is an `ArithmeticFault`; else the two results are a quotient and a remainder of the exact
division, smaller than the divisor and with the dividend's sign, but for the one quotient that does not fit. -/
def Obligations.DivAndModTruncate : Prop :=
  DecodesFull 0x13 .div ∧ DecodesFull 0x14 .mod ∧ ChecksInOrder .div ∧ ChecksInOrder .mod ∧
  ∀ (s : State) (i : Reg) (o : Operand) (v : Word), s.resolve o = .ok v →
    let a := s.reg i
    if v = 0 then
      Does (.div i.field o) s (faulted s .arithmeticFault) ∧ Does (.mod i.field o) s (faulted s .arithmeticFault)
    else ∃ q r : Word,
      Does (.div i.field o) s (withReg s i q) ∧ Does (.mod i.field o) s (withReg s i r) ∧
      if a.toInt = -2 ^ 31 ∧ v.toInt = -1 then q = 0x80000000#32 ∧ r = 0
      else a.toInt = q.toInt * v.toInt + r.toInt ∧ |r.toInt| < |v.toInt| ∧
        (r.toInt ≠ 0 → (r.toInt < 0 ↔ a.toInt < 0))

/-! ### Floating point -/

/-- 42_float.md R180 to R183: FADD, FSUB, FMUL, FDIV over the data operations, a NaN result being any NaN pattern (the
spec's decision D17; log entry 2). -/
def Obligations.FloatInstructionsFollowTheirRules : Prop :=
  FloatRule 0x20 .fadd F32.add ∧ FloatRule 0x21 .fsub F32.sub ∧
  FloatRule 0x22 .fmul F32.mul ∧ FloatRule 0x23 .fdiv F32.div

/-- 42_float.md R186, R187: ITOF and FTOI over the data conversions, an unconvertible FTOI writing any value (the
spec's decisions D18 and D19; log entry 3). -/
def Obligations.ConversionInstructionsFollowTheirRules : Prop :=
  ConvertRule 0x26 .itof (fun x => some (F32.ofInt x.toInt).bits) ∧
  ConvertRule 0x27 .ftoi (fun x => (F32.toInt? ⟨x⟩).map (BitVec.ofInt 32))

/-- 42_float.md R189 (the spec's decision D17; the sign of a zero sum is IEEE 754's, log entry 12): sums and
differences of finite data are correctly rounded; a zero sum is negative only where both terms are. -/
def Obligations.FloatSumsAreCorrectlyRounded : Prop :=
  ∀ x y : F32, x.isFinite = true → y.isFinite = true →
    (∃ z, x.add y = some z ∧ RoundsTo (x.rat + y.rat) z ∧
      (z.negative = true ↔ x.rat + y.rat < 0 ∨ (x.rat + y.rat = 0 ∧ x.negative = true ∧ y.negative = true))) ∧
    (∃ z, x.sub y = some z ∧ RoundsTo (x.rat - y.rat) z ∧
      (z.negative = true ↔ x.rat - y.rat < 0 ∨ (x.rat - y.rat = 0 ∧ x.negative = true ∧ y.negative = false)))

/-- 42_float.md R189 (the spec's decision D17; the sign of a zero result is IEEE 754's, log entry 12): products of
finite data and quotients by a non-zero finite datum are correctly rounded, and their sign is the exclusive or of the
operand signs. -/
def Obligations.FloatProductsAreCorrectlyRounded : Prop :=
  ∀ x y : F32, x.isFinite = true → y.isFinite = true →
    (∃ z, x.mul y = some z ∧ RoundsTo (x.rat * y.rat) z ∧ z.negative = (x.negative != y.negative)) ∧
    (y.rat ≠ 0 → ∃ z, x.div y = some z ∧ RoundsTo (x.rat / y.rat) z ∧ z.negative = (x.negative != y.negative))

/-- 42_float.md R189, R190 (the spec's decision D17; the signs of infinities and zeros are IEEE 754's, log entry 12):
the operations on infinities and by zero, and exactly the cases whose result is a NaN. -/
def Obligations.FloatSpecialCasesFollowTheirRules : Prop :=
  ∀ x y : F32,
    let bad := x.isNaN = true ∨ y.isNaN = true
    let infs := x.isInfinite = true ∧ y.isInfinite = true
    (x.add y = none ↔ bad ∨ (infs ∧ x.negative ≠ y.negative)) ∧
    (x.sub y = none ↔ bad ∨ (infs ∧ x.negative = y.negative)) ∧
    (x.mul y = none ↔ bad ∨ (x.isInfinite = true ∧ y.rat = 0 ∧ y.isFinite = true) ∨
      (y.isInfinite = true ∧ x.rat = 0 ∧ x.isFinite = true)) ∧
    (x.div y = none ↔ bad ∨ infs ∨ (x.isFinite = true ∧ y.isFinite = true ∧ x.rat = 0 ∧ y.rat = 0)) ∧
    (∀ z, x.add y = some z → (x.isInfinite = true → z = x) ∧ (y.isInfinite = true → z = y)) ∧
    (∀ z, x.sub y = some z → (x.isInfinite = true → z = x) ∧
      (y.isInfinite = true → z.isInfinite = true ∧ z.negative = !y.negative)) ∧
    (∀ z, x.mul y = some z → x.isInfinite = true ∨ y.isInfinite = true →
      z.isInfinite = true ∧ z.negative = (x.negative != y.negative)) ∧
    (∀ z, x.div y = some z →
      (x.isInfinite = true ∨ (y.isFinite = true ∧ y.rat = 0) →
        z.isInfinite = true ∧ z.negative = (x.negative != y.negative)) ∧
      (y.isInfinite = true → z.isFinite = true ∧ z.rat = 0 ∧ z.negative = (x.negative != y.negative)))

/-- 42_float.md R191 (the spec's decision D18): ITOF rounds to nearest, ties to even; exactly up to 2^24; it never
gives an infinity or a NaN. Its sign is the integer's, and zero gives the datum whose bits are all zero
(95_test_vectors.md F22). -/
def Obligations.IntegerToFloatRoundsToNearest : Prop :=
  ∀ x : Word,
    RoundsTo x.toInt (F32.ofInt x.toInt) ∧ (F32.ofInt x.toInt).isFinite = true ∧
    (x.toInt.natAbs ≤ 2 ^ 24 → (F32.ofInt x.toInt).rat = x.toInt) ∧
    ((F32.ofInt x.toInt).negative = true ↔ x.toInt < 0) ∧ (x = 0 → (F32.ofInt x.toInt).bits = 0)

/-- 42_float.md R192 (the spec's decision D18): FTOI truncates toward zero where the truncated value fits, and
converts nothing else. -/
def Obligations.FloatToIntegerTruncates : Prop :=
  ∀ f : F32,
    (f.isFinite = false → f.toInt? = none) ∧
    (f.isFinite = true →
      let t : Int := if 0 ≤ f.rat then ⌊f.rat⌋ else ⌈f.rat⌉
      f.toInt? = if -2 ^ 31 ≤ t ∧ t ≤ 2 ^ 31 - 1 then some t else none)

/-- 42_float.md R193 (the spec derives it from R191 and R192): what FTOI after ITOF gives. Every integer that a
binary32 datum holds comes back, so every multiple `c * 2^k` with `|c| <= 2^24`; the integers from 2147483584 up give
2^31, which FTOI cannot convert; every other integer comes back as its nearest-even rounding. -/
def Obligations.FtoiUndoesItof : Prop :=
  ∀ x : Word,
    let n := x.toInt
    let f := F32.ofInt n
    ((∃ y : F32, y.isFinite = true ∧ y.rat = n) → f.toInt? = some n) ∧
    ((∃ (c : Int) (k : Nat), n = c * 2 ^ k ∧ c.natAbs ≤ 2 ^ 24) → f.toInt? = some n) ∧
    if 2147483584 ≤ n then f.bits = 0x4F000000#32 ∧ f.toInt? = none
    else ∃ m : Int, f.toInt? = some m ∧ f.rat = m ∧ RoundsTo n f

/-! ### Bitwise, shifts, flags -/

/-- 43_bitwise.md R200 to R202: AND, OR, XOR, bit by bit. -/
def Obligations.LogicFollowsItsRules : Prop :=
  ∃ conj disj xor : Word → Word → Word,
    (∀ x v k, (conj x v).getLsbD k = (x.getLsbD k && v.getLsbD k)) ∧
    (∀ x v k, (disj x v).getLsbD k = (x.getLsbD k || v.getLsbD k)) ∧
    (∀ x v k, (xor x v).getLsbD k = (x.getLsbD k != v.getLsbD k)) ∧
    UpdateRule 0x30 .and conj ∧ UpdateRule 0x31 .or disj ∧ UpdateRule 0x32 .xor xor

/-- 43_bitwise.md R204 to R208: SHL, SHR (both readings of `SHR_KIND`; the machine's is logical), ROL, ROR, by the low
5 bits of the count. The count's mask and the logical SHR are the spec's decisions D15 and D16 (log entry 6). -/
def Obligations.ShiftsAndRotatesFollowTheirRules : Prop :=
  UpdateRule 0x34 .shl (fun x v => BitVec.ofNat 32 (x.toNat * 2 ^ (v.toNat % 32))) ∧
  UpdateRule 0x35 .shr (fun x v => BitVec.ofNat 32 (x.toNat / 2 ^ (v.toNat % 32))) ∧
  UpdateRule 0x36 .rol (fun x v =>
    BitVec.ofNat 32 (x.toNat * 2 ^ (v.toNat % 32) % 2 ^ 32 + x.toNat / 2 ^ (32 - v.toNat % 32))) ∧
  UpdateRule 0x37 .ror (fun x v =>
    BitVec.ofNat 32 (x.toNat / 2 ^ (v.toNat % 32) + x.toNat % 2 ^ (v.toNat % 32) * 2 ^ (32 - v.toNat % 32))) ∧
  ∀ (x : Word) (n : Nat), n < 32 → shiftRight .arithmetic x n = BitVec.ofInt 32 (x.toInt / 2 ^ n)

/-- 43_bitwise.md R209, 44_compare_control.md R220, 10_state.md R36: TEST and CMP write the flags slot and nothing
else, and no other instruction writes it. -/
def Obligations.TestAndCompareAloneWriteTheFlags : Prop :=
  FlagRule 0x38 .test (fun x v =>
    if ∀ k : Fin 32, ¬ (x.getLsbD k = true ∧ v.getLsbD k = true) then .equal else .less) ∧
  FlagRule 0x40 .cmp (fun x v =>
    if x.toInt < v.toInt then .less else if x.toInt = v.toInt then .equal else .greater) ∧
  ∀ (i : Instr) (s t : State), exec i s = .next t → i.mnemonic ≠ .test → i.mnemonic ≠ .cmp → t.flags = s.flags

/-! ### Control transfer -/

/-- 44_compare_control.md R221 to R227: the predicate table of the six conditional jumps. That the operand is resolved
also where the jump is not taken is the spec's decision D20. -/
def Obligations.ConditionalJumpsFollowTheirTable : Prop :=
  JumpRule 0x41 .jeq false true false (fun _ v => v) ∧
  JumpRule 0x42 .jne true false true (fun _ v => v) ∧
  JumpRule 0x43 .jgt false false true (fun _ v => v) ∧
  JumpRule 0x44 .jlt true false false (fun _ v => v) ∧
  JumpRule 0x45 .jge false true true (fun _ v => v) ∧
  JumpRule 0x46 .jle true true false (fun _ v => v)

/-- 43_bitwise.md R210 (the spec derives it from R209 and 44_compare_control.md R221): which conditional jumps are
taken after a TEST. -/
def Obligations.JumpsAfterTestFollowTheirTable : Prop :=
  ∀ (s : State) (q : Reg) (o p : Operand) (v w : Word), s.resolve o = .ok v → s.resolve p = .ok w →
    ∃ t, exec (.test q.field o) s = .next t ∧
      let taken := { t.view with pc := w }
      if s.reg q &&& v = 0 then
        Does (.jeq p) t taken ∧ Does (.jne p) t t.view ∧ Does (.jgt p) t t.view ∧
        Does (.jlt p) t t.view ∧ Does (.jge p) t taken ∧ Does (.jle p) t taken
      else
        Does (.jeq p) t t.view ∧ Does (.jne p) t taken ∧ Does (.jgt p) t t.view ∧
        Does (.jlt p) t taken ∧ Does (.jge p) t t.view ∧ Does (.jle p) t taken

/-- 44_compare_control.md R228 to R230: JMP, JMPREL and JMPX. -/
def Obligations.UnconditionalJumpsFollowTheirRules : Prop :=
  JumpRule 0x47 .jmp true true true (fun _ v => v) ∧
  JumpRule 0x48 .jmprel true true true (fun pc v => pc + v) ∧
  (∀ w, opcodeField w = 0x49 → decodeWord w = .ok (.jmpx (immField w))) ∧
  ∀ (s : State) (t : Half), Does (.jmpx t) s { s.view with pc := t.signExtend 32 }

/-- 44_compare_control.md R231, R232: CALL and RET, over the stack tests of the spec's decision D9. -/
def Obligations.CallAndReturnFollowTheirRules : Prop :=
  DecodesOperand 0x4A .call ∧ ChecksOperand .call ∧
  (∀ (s : State) (o : Operand) (v : Word), s.resolve o = .ok v →
    let sp := s.reg .esp
    PushCases (.call o) s
      { withReg s .esp (sp - 4) with byte := storedAt s.byte (sp - 4).toNat 4 s.pc, pc := v }) ∧
  DecodesBare 0x4B .ret ∧
  ∀ s : State,
    let sp := s.reg .esp
    PopCases .ret s sp { withReg s .esp (sp + 4) with pc := wordAt s sp 4 }

/-! ### Stack and frames -/

/-- 45_stack_frames.md R250, R251: PUSH and POP. What is pushed, and the order of reads and writes of ESP, are the
spec's decisions D10 and D11. -/
def Obligations.PushAndPopInstructionsFollowTheirRules : Prop :=
  DecodesReg 0x0A .push ∧ ChecksReg .push ∧ DecodesReg 0x0B .pop ∧ ChecksReg .pop ∧
  ∀ (s : State) (q : Reg),
    let sp := s.reg .esp
    PushCases (.push q.field) s
      { withReg s .esp (sp - 4) with byte := storedAt s.byte (sp - 4).toNat 4 (s.reg q) } ∧
    PopCases (.pop q.field) s sp
      { s.view with reg := Function.update (Function.update s.reg .esp (sp + 4)) q (wordAt s sp 4) }

/-- 45_stack_frames.md R252: XCHG, the pop's faults before the push's (the spec's decisions D9 and D11). -/
def Obligations.XchgExchangesWithTheTopOfTheStack : Prop :=
  DecodesReg 0x0C .xchg ∧ ChecksReg .xchg ∧
  ∀ (s : State) (q : Reg),
    let sp := s.reg .esp
    if 0xFFFF < sp.toInt + 4 then Does (.xchg q.field) s (faulted s (.stackFault .underflow))
    else if sp.toInt < 0 then Does (.xchg q.field) s (faulted s (.memoryFault sp))
    else if sp.toInt < 0xC000 then Does (.xchg q.field) s (faulted s (.stackFault .overflow))
    else Does (.xchg q.field) s
      { withReg s q (wordAt s sp 4) with byte := storedAt s.byte sp.toNat 4 (s.reg q) }

/-- 45_stack_frames.md R253, R254: ENTER and LEAVE. That the size is not checked is the spec's decision D12. -/
def Obligations.EnterAndLeaveFollowTheirRules : Prop :=
  DecodesOperand 0x50 .enter ∧ ChecksOperand .enter ∧
  (∀ (s : State) (o : Operand) (v : Word), s.resolve o = .ok v →
    let sp := s.reg .esp
    PushCases (.enter o) s
      { s.view with
        reg := Function.update (Function.update s.reg .ebp (sp - 4)) .esp (sp - 4 - v),
        byte := storedAt s.byte (sp - 4).toNat 4 (s.reg .ebp) }) ∧
  DecodesBare 0x51 .leave ∧
  ∀ s : State,
    let bp := s.reg .ebp
    PopCases .leave s bp
      { s.view with reg := Function.update (Function.update s.reg .esp (bp + 4)) .ebp (wordAt s bp 4) }

/-- 44_compare_control.md R234, within the stack bounds of the spec's decision D9: a RET run with ESP and the word at
ESP as a CALL left them goes to the return address and gives ESP its value from before the CALL. -/
def Obligations.ReturnUndoesCall : Prop :=
  ∀ (s : State) (o : Operand) (v : Word), s.resolve o = .ok v →
    0xC004 ≤ (s.reg .esp).toInt → (s.reg .esp).toInt ≤ 0xFFFF →
    ∃ t, exec (.call o) s = .next t ∧ t.pc = v ∧
      ∀ u : State, u.reg .esp = t.reg .esp →
        (∀ a, (t.reg .esp).toNat ≤ a → a < (t.reg .esp).toNat + 4 → u.byte a = t.byte a) →
        Does .ret u { withReg u .esp (s.reg .esp) with pc := s.pc }

/-- 45_stack_frames.md R254, within the stack bounds of the spec's decision D9: a LEAVE run with EBP and the word at
EBP as an ENTER left them gives ESP and EBP their values from before the ENTER, whatever the size of the frame. -/
def Obligations.LeaveUndoesEnter : Prop :=
  ∀ (s : State) (o : Operand) (v : Word), s.resolve o = .ok v →
    0xC004 ≤ (s.reg .esp).toInt → (s.reg .esp).toInt ≤ 0xFFFF →
    ∃ t, exec (.enter o) s = .next t ∧
      ∀ u : State, u.reg .ebp = t.reg .ebp →
        (∀ a, (t.reg .ebp).toNat ≤ a → a < (t.reg .ebp).toNat + 4 → u.byte a = t.byte a) →
        Does .leave u
          { u.view with reg := Function.update (Function.update u.reg .esp (s.reg .esp)) .ebp (s.reg .ebp) }

/-! ### Halting, steps and faults -/

/-- 10_state.md R40: the halted bit is false at creation and at Reset, set by HLT and by nothing else, kept by every
Step, and while it is set neither Step nor Run fetches. What Run answers then, and that the latched fault is tested
before `halted`, is 70_reset_and_hazards.md R332 (the spec's decision D25). -/
def Obligations.HaltStopsTheCore : Prop :=
  State.reset.halted = false ∧ (∀ s : State, s.hostReset.halted = false) ∧
  (∀ s : State, Does .hlt s { s.view with halted := true }) ∧
  (∀ (i : Instr) (s t : State), exec i s = .next t → i ≠ .hlt → t.halted = s.halted) ∧
  (∀ s : State, s.halted = true → step s = .next s) ∧
  ∀ (s : State) (limit : Nat), s.halted = true → s.fault = none → s.run limit = .next ((.halted, 0), s)

/-- 10_state.md R44: when the four bytes at the pc decode to an instruction, a Step of a Running core is `exec` of it
in the state whose pc is advanced by 4. -/
def Obligations.StepRunsTheDecodedInstruction : Prop :=
  ∀ (s : State) (i : Instr), s.halted = false → s.fault = none → s.pc.toNat + 3 ≤ 0xFFFF →
    decodeBytes [s.byte s.pc.toNat, s.byte (s.pc.toNat + 1), s.byte (s.pc.toNat + 2), s.byte (s.pc.toNat + 3)]
      = .ok (i, []) →
    step s = exec i { s with pc := s.pc + 4 }

/-- 10_state.md R44, 60_exceptions.md R301 (the latch is the spec's decision D7; log entry 7): a Step of a Halted or
Faulted core changes nothing, the pc included, and reports `Noop`. -/
def Obligations.StoppedCoreStepsToItself : Prop :=
  ∀ s : State, s.halted = true ∨ s.fault ≠ none → step s = .next s ∧ s.hostStep = .next (.noop, s)

/-- 10_state.md R45 (the spec's decision D6): a fetch that runs past the end of memory faults with the pc as its
address and changes nothing else. -/
def Obligations.FetchOutsideMemoryFaults : Prop :=
  ∀ s : State, s.halted = false → s.fault = none → 0xFFFF < s.pc.toNat + 3 →
    ∃ t, step s = .next t ∧ t.view = faulted s (.memoryFault s.pc)

/-- 46_system.md R271 (the spec's decision D2): an opcode byte that no instruction has, whatever the rest of the word
holds. -/
def Obligations.UnassignedOpcodeFaults : Prop :=
  ∀ s : State, s.halted = false → s.fault = none → s.pc.toNat + 3 ≤ 0xFFFF →
    (∀ k, opc k ≠ s.byte s.pc.toNat) →
    ∃ t, step s = .next t ∧
      t.view = { faulted s (.illegalInstruction (s.byte s.pc.toNat)) with pc := s.pc + 4 }

/-- 10_state.md R44: every Step, of any state whatever, answers a next state. That a fault is a next state is the
model's reading of 60_exceptions.md R300 (log entry 1). -/
def Obligations.EveryStepAnswersANextState : Prop :=
  ∀ s : State, ∃ t, step s = .next t

/-- Every Step keeps the invariant: memory in canonical form, Halted and Faulted exclusive (60_exceptions.md R301),
and the record one that 60_exceptions.md R280 gives. The canonical form is the model's DESIGN CHOICE, not the spec's
(log entry 19). -/
def Obligations.EveryStepKeepsTheInvariant : Prop :=
  ∀ s t : State, s.Inv → step s = .next t → t.Inv

/-- The state after reset has the invariant. The canonical form of memory is the model's DESIGN CHOICE, not the spec's
(log entry 19), and so is that memory lists nothing at reset (log entry 4). -/
def Obligations.ResetHasTheInvariant : Prop := State.reset.Inv

/-- 60_exceptions.md R300 (the pc after a fault is the spec's decision D6): a Step that raises a fault latches it and
changes nothing else but the pc, which is the post-fetch value, or the bad address of a fetch. -/
def Obligations.FaultsArePrecise : Prop :=
  ∀ (s t : State) (f : FaultRecord), s.halted = false → s.fault = none → step s = .next t → t.fault = some f →
    t.view = { faulted s f with pc := if 0xFFFF < s.pc.toNat + 3 then s.pc else s.pc + 4 }

/-- 60_exceptions.md R300 says that the two cases of a `MemoryFault` "are told apart by `kind` and `info`: a fetch
fault is a `MemoryFault` whose `info` equals `pc`". Expected to FAIL: an execute-stage access at the post-fetch pc,
near the top of memory, gives the same record. -/
def Obligations.InfoTellsAFetchFaultApart : Prop :=
  ∀ s t : State, s.halted = false → s.fault = none → step s = .next t → t.fault = some (.memoryFault t.pc) →
    0xFFFF < s.pc.toNat + 3

/-- 60_exceptions.md R285, R286 (the second is the spec's decision D3): an instruction takes `IllegalAddressingMode`
or `IllegalRegister` exactly when it is ill-formed, whatever the state. -/
def Obligations.FieldFaultsAreTheIllFormedInstructions : Prop :=
  ∀ (i : Instr) (s : State), s.fault = none →
    (i.wellFormed = false ↔ ∃ t f, exec i s = .next t ∧ t.fault = some f ∧ f.isStatic = true)

/-! ### What every instruction leaves unchanged -/

/-- 10_state.md R37: an instruction that is no conditional jump does the same whatever the flags are before it. A TEST
or CMP that executes (its fields are legal) leaves the very same state, the new flags included; any other leaves the
flags it was given and the same state otherwise. The host reads the flags: it sees equal flags as equal and no others.
Where FADD, FSUB, FMUL or FDIV has a NaN result, or FTOI cannot convert, that the two runs give the same value is the
model's DESIGN CHOICE: the free value is read at the model's counter `draws` alone, which is equal in both (log
entries 2 and 3). The spec leaves such a value a draw. -/
def Obligations.OnlyConditionalJumpsReadTheFlags : Prop :=
  (∀ (i : Instr) (s t : State) (c : Flag), ¬ i.readsFlags → exec i s = .next t →
    exec i (s.setFlags c) =
      .next (if (i.mnemonic = .test ∨ i.mnemonic = .cmp) ∧ i.wellFormed = true then t else t.setFlags c)) ∧
  ∀ s u : State, s.observe.flags = u.observe.flags ↔ s.flags = u.flags

/-- 30_encoding.md R122 (the spec's decisions D4 and D10): an instruction writes no register but those of its row. -/
def Obligations.OtherRegistersAreKept : Prop :=
  ∀ (i : Instr) (s t : State), exec i s = .next t → ∀ q : Reg, ¬ i.mayWrite q → t.reg q = s.reg q

/-- 20_memory.md R69: an instruction changes no byte outside the ones it stores to, and none at all if it stores
nothing. -/
def Obligations.OtherBytesAreKept : Prop :=
  ∀ (i : Instr) (s t : State), exec i s = .next t →
    ∀ b : Nat, (∀ a n, i.storesTo s = some (a, n) → b < a ∨ a + n ≤ b) → t.byte b = s.byte b

/-- 10_state.md R30, R40: only the control transfers write the pc after the fetch and only HLT halts; and only the
float instructions count a draw, the model's own field (log entry 2). -/
def Obligations.PcHaltedAndDrawsAreKept : Prop :=
  ∀ (i : Instr) (s t : State), exec i s = .next t →
    (¬ i.transfersControl → t.pc = s.pc) ∧ (i ≠ .hlt → t.halted = s.halted) ∧
    (i.mnemonic ∉ [Mnemonic.fadd, .fsub, .fmul, .fdiv, .ftoi] → t.draws = s.draws)

/-! ### Reset and the host -/

/-- 70_reset_and_hazards.md R320 (the zeros are the spec's decision D22): Reset, from any state. -/
def Obligations.ResetRestoresTheCore : Prop :=
  ∀ s : State, let t := s.hostReset
    (∀ q : Reg, q ≠ .ebp → q ≠ .esp → t.reg q = 0) ∧ t.reg .ebp = 0x0000FFFF#32 ∧ t.reg .esp = 0x0000FFFF#32 ∧
    t.pc = 0 ∧ t.flags = .less ∧ t.halted = false ∧ t.fault = none ∧ t.byte = s.byte ∧ t.running = true

/-- 10_state.md R52 (the spec's decisions D7, D22 and D23): the core at power-on is the Reset core. That every byte of
memory reads as zero is `MEM_INIT` at the spec's default (log entry 4, DESIGN CHOICE). -/
def Obligations.PowerOnIsTheResetState : Prop :=
  (∀ q : Reg, State.reset.reg q = if q = .ebp ∨ q = .esp then 0x0000FFFF#32 else 0) ∧
  State.reset.pc = 0 ∧ State.reset.flags = .less ∧ State.reset.halted = false ∧ State.reset.fault = none ∧
  ∀ a, State.reset.byte a = 0

/-- 70_reset_and_hazards.md R328 (the spec's decision D31): `loadProgram`. -/
def Obligations.LoadProgramCopiesOrRefuses : Prop :=
  ∀ (s : State) (bytes : List Byte),
    if bytes.length > 0x4000 then s.loadProgram bytes = none
    else ∃ t, s.loadProgram bytes = some t ∧
      t.view = { s.view with byte := fun a => if h : a < bytes.length then bytes[a] else s.byte a }

/-- 70_reset_and_hazards.md R326, R327, R330, R331: the host's accesses; a refused one changes nothing and latches
nothing (the spec's decision D30; log entry 15). -/
def Obligations.HostAccessesFollowTheirRules : Prop :=
  (∀ (s : State) (a : Word),
    s.readByte a = (if a.toNat ≤ 0xFFFF then some (s.byte a.toNat) else none) ∧
    s.readWord a = (if a.toNat + 3 ≤ 0xFFFF then some (wordAt s a 4) else none)) ∧
  (∀ (s : State) (a : Word) (b : Byte),
    if a.toNat ≤ 0xFFFF then
      ∃ t, s.writeByte a b = some t ∧ t.view = { s.view with byte := Function.update s.byte a.toNat b }
    else s.writeByte a b = none) ∧
  (∀ s a v : _, if a.toNat + 3 ≤ 0xFFFF then
      ∃ t, State.writeWord s a v = some t ∧ t.view = { s.view with byte := storedAt s.byte a.toNat 4 v }
    else State.writeWord s a v = none) ∧
  (∀ s : State, (∀ a < 0x10000, s.clear.byte a = 0) ∧ { s.clear.view with byte := s.byte } = s.view) ∧
  (∀ (s : State) (q : Reg) (v : Word) (f : F32),
    s.getRegister q.index = some (s.reg q) ∧ s.getRegisterAsFloat q.index = some ⟨s.reg q⟩ ∧
    (∃ t, s.setRegister q.index v = some t ∧ t.view = withReg s q v) ∧
    (∃ t, s.setRegisterAsFloat q.index f = some t ∧ t.view = withReg s q f.bits)) ∧
  ∀ (s : State) (i : Int) (v : Word) (f : F32), i < 0 ∨ 7 < i →
    s.getRegister i = none ∧ s.setRegister i v = none ∧
    s.getRegisterAsFloat i = none ∧ s.setRegisterAsFloat i f = none

/-- 70_reset_and_hazards.md R332 (the outcomes and their order are the spec's decision D25): Run takes the Steps it
counts, each from a Running core with its pc in memory, and stops for the reason it gives, in the order the rule
tests; without a cutoff given it is 1000. -/
def Obligations.RunStopsForTheReasonItGives : Prop :=
  (∀ s : State, s.run = s.run 1000) ∧
  ∀ (s : State) (limit : Nat), ∃ out n t, s.run limit = .next ((out, n), t) ∧
    n ≤ limit ∧ Host.Core.run core n s = .next t ∧
    (∀ j < n, ∃ u : State, Host.Core.run core j s = .next u ∧ u.fault = none ∧ u.halted = false ∧ u.pc.toNat < 65536) ∧
    (match out with
     | .fault f => t.fault = some f
     | .halted => t.fault = none ∧ t.halted = true
     | .pcOutOfRange => t.fault = none ∧ t.halted = false ∧ 65536 ≤ t.pc.toNat
     | .cycleLimit => t.fault = none ∧ t.halted = false ∧ t.pc.toNat < 65536 ∧ n = limit)

/-- 70_reset_and_hazards.md R336 and 10_state.md R35: the host's read-only observers (the spec's decision D30). The
three numbers of the flags are R35's; that the slot itself is an enumeration is the model's reading (log entry 13,
DEDUCED). -/
def Obligations.HostObservesPcFlagsAndLatches : Prop :=
  ∀ s : State, s.observe.pc = s.pc ∧ s.observe.halted = s.halted ∧ s.observe.fault = s.fault ∧
    s.observe.flags = (match s.flags with | .less => 0 | .equal => 1 | .greater => 2)
end

