-- ==== Sys2Proof/Laws/Binary32.lean ====
section
/-! SUPPORT. Binary32 data: the fields of a packed datum, what rounding to an integer can answer, and what a NaN draw gives. -/

namespace Sys2Proof.Machine

/-! ### Fields -/

theorem F32.exponent_eq (f : F32) : f.exponent = f.bits.toNat / 2 ^ 23 % 2 ^ 8 := by
  simp [F32.exponent, Nat.shiftRight_eq_div_pow]

theorem F32.fraction_eq (f : F32) : f.fraction = f.bits.toNat % 2 ^ 23 := by
  simp [F32.fraction]

theorem F32.negative_eq (f : F32) : f.negative = decide (2 ^ 31 ≤ f.bits.toNat) := by
  have h := f.bits.isLt
  rw [F32.negative, BitVec.getLsbD, Nat.testBit_eq_decide_div_mod_eq]
  congr 1
  apply propext
  omega

theorem F32.exponent_lt (f : F32) : f.exponent < 256 := by rw [F32.exponent_eq]; omega

theorem F32.fraction_lt (f : F32) : f.fraction < 2 ^ 23 := by rw [F32.fraction_eq]; omega

/-- A datum is its three fields. -/
theorem F32.ext_fields {f g : F32} (hn : f.negative = g.negative) (he : f.exponent = g.exponent)
    (hf : f.fraction = g.fraction) : f = g := by
  have h1 := f.bits.isLt
  have h2 := g.bits.isLt
  rw [F32.negative_eq, F32.negative_eq, decide_eq_decide] at hn
  rw [F32.exponent_eq, F32.exponent_eq] at he
  rw [F32.fraction_eq, F32.fraction_eq] at hf
  cases f; cases g
  congr 1
  apply BitVec.eq_of_toNat_eq
  simp only at *
  omega

theorem F32.pack_toNat (neg : Bool) {low : Nat} (h : low < 2 ^ 31) :
    (F32.pack neg low).bits.toNat = (if neg then 2 ^ 31 else 0) + low := by
  rw [F32.pack, BitVec.toNat_append, BitVec.toNat_ofNat, Nat.mod_eq_of_lt h,
    ← Nat.shiftLeft_add_eq_or_of_lt h, Nat.shiftLeft_eq]
  cases neg <;> simp

@[simp] theorem F32.pack_negative (neg : Bool) {low : Nat} (h : low < 2 ^ 31) : (F32.pack neg low).negative = neg := by
  rw [F32.negative_eq, F32.pack_toNat neg h]
  cases neg
  · simp; omega
  · simp

theorem F32.pack_exponent (neg : Bool) {low : Nat} (h : low < 2 ^ 31) :
    (F32.pack neg low).exponent = low / 2 ^ 23 := by
  rw [F32.exponent_eq, F32.pack_toNat neg h]
  cases neg <;> simp <;> omega

theorem F32.pack_fraction (neg : Bool) {low : Nat} (h : low < 2 ^ 31) :
    (F32.pack neg low).fraction = low % 2 ^ 23 := by
  rw [F32.fraction_eq, F32.pack_toNat neg h]
  split <;> omega

theorem F32.flip_negative (f : F32) : f.flip.negative = !f.negative := by
  simp [F32.flip, F32.negative]

theorem F32.flip_exponent (f : F32) : f.flip.exponent = f.exponent := by
  have : ∀ w : Word, (w ^^^ 0x80000000#32).extractLsb' 23 8 = w.extractLsb' 23 8 := by
    intro w
    apply BitVec.eq_of_getLsbD_eq; intro k hk
    have : (0x80000000#32).getLsbD (23 + k) = false := by
      interval_cases k <;> rfl
    simp [this, hk]
  rw [F32.exponent, F32.flip, this]; rfl

theorem F32.flip_fraction (f : F32) : f.flip.fraction = f.fraction := by
  have : ∀ w : Word, (w ^^^ 0x80000000#32).extractLsb' 0 23 = w.extractLsb' 0 23 := by
    intro w
    apply BitVec.eq_of_getLsbD_eq; intro k hk
    have : (0x80000000#32).getLsbD k = false := by
      interval_cases k <;> rfl
    simp [this]
  rw [F32.fraction, F32.flip, this]; rfl

/-! ### Rounding -/

/-- The nearest integer: at most half a unit off, and even where two are equally near. -/
theorem roundHalfEven_nearest (n : Nat) {d : Nat} (hd : 0 < d) :
    2 * (roundHalfEven n d * d) ≤ 2 * n + d ∧ 2 * n ≤ 2 * (roundHalfEven n d * d) + d ∧
    (2 * (roundHalfEven n d * d) = 2 * n + d ∨ 2 * n = 2 * (roundHalfEven n d * d) + d → roundHalfEven n d % 2 = 0) := by
  have h := Nat.div_add_mod n d
  have hm := Nat.mod_lt n hd
  rw [Nat.mul_comm] at h
  unfold roundHalfEven
  split
  · refine ⟨by omega, by omega, fun h' => ?_⟩; omega
  · split
    · rw [Nat.add_mul]
      refine ⟨by omega, by omega, fun h' => ?_⟩; omega
    · rcases Nat.mod_two_eq_zero_or_one (n / d) with h2 | h2 <;> rw [h2]
      · rw [Nat.add_zero]
        exact ⟨by omega, by omega, fun _ => h2⟩
      · rw [Nat.add_mul]
        exact ⟨by omega, by omega, fun _ => by omega⟩

/-- An exact quotient is itself. -/
theorem roundHalfEven_mul (q : Nat) {d : Nat} (hd : 0 < d) : roundHalfEven (q * d) d = q := by
  simp [roundHalfEven, hd]

theorem roundMagnitude_le (n d : Nat) : roundMagnitude n d ≤ infinityBits := Nat.min_le_right _ _

/-! ### NaN -/

/-- A draw's pattern as a number. -/
theorem nanOf_toNat (draw : BitVec 32) :
    (nanOf draw).toNat = draw.toNat / 2 ^ 31 * 2 ^ 31 + 255 * 2 ^ 23 +
      (if draw.toNat % 2 ^ 23 = 0 then 0x400000 else draw.toNat % 2 ^ 23) := by
  have hx : (draw.extractLsb' 0 23 = 0) ↔ draw.toNat % 2 ^ 23 = 0 := by
    rw [← BitVec.toNat_inj]; simp
  have hf : (if draw.extractLsb' 0 23 = 0 then 0x400000#23 else draw.extractLsb' 0 23).toNat =
      (if draw.toNat % 2 ^ 23 = 0 then 0x400000 else draw.toNat % 2 ^ 23) := by
    simp only [hx]; split <;> simp
  have hl := draw.isLt
  have key : ∀ (a : BitVec 1) (b : BitVec 8) (c : BitVec 23),
      (a ++ b ++ c).toNat = a.toNat * 2 ^ 31 + b.toNat * 2 ^ 23 + c.toNat := by
    intro a b c
    rw [BitVec.toNat_append, BitVec.toNat_append, ← Nat.shiftLeft_add_eq_or_of_lt b.isLt,
      ← Nat.shiftLeft_add_eq_or_of_lt c.isLt, Nat.shiftLeft_eq, Nat.shiftLeft_eq]
    ring
  refine (key _ _ _).trans ?_
  rw [hf]
  simp [Nat.shiftRight_eq_div_pow]
  omega

/-- Every draw gives a NaN. -/
theorem nanOf_isNaN (draw : BitVec 32) : F32.isNaN ⟨nanOf draw⟩ = true := by
  have hl := draw.isLt
  simp only [F32.isNaN, F32.exponent_eq, F32.fraction_eq, nanOf_toNat]
  split <;> simp <;> omega

/-- Every NaN is the image of a draw, itself: nothing is chosen among them (42_float.md R190). -/
theorem nanOf_of_isNaN {p : Word} (h : F32.isNaN ⟨p⟩ = true) : nanOf p = p := by
  have hl := p.isLt
  simp only [F32.isNaN, F32.exponent_eq, F32.fraction_eq, Bool.and_eq_true, beq_iff_eq, bne_iff_ne] at h
  apply BitVec.eq_of_toNat_eq
  rw [nanOf_toNat, if_neg h.2]
  omega

end Sys2Proof.Machine
end

