-- ==== Sys2Proof/Laws/Decode.lean ====
section
/-! SUPPORT. The decoder and the encoder: what each field of an encoded word reads as, and which mnemonic an opcode byte
names. -/

namespace Sys2Proof

theorem Mnemonic.mem_all (k : Mnemonic) : k ∈ Mnemonic.all := by cases k <;> decide

/-- An opcode byte that an assignment gives out names a mnemonic that has it. -/
theorem mnemonicOf_some {m : OpcodeMap} {b : Byte} {k : Mnemonic} (h : mnemonicOf m b = some k) : m k = b := by
  simpa using List.find?_some h

/-- An opcode byte that names no mnemonic is one the assignment gives to none. -/
theorem mnemonicOf_none_iff {m : OpcodeMap} {b : Byte} : mnemonicOf m b = none ↔ ∀ k, m k ≠ b := by
  simp only [mnemonicOf, List.find?_eq_none, beq_iff_eq]
  exact ⟨fun h k => h k (Mnemonic.mem_all k), fun h k _ => h k⟩

/-- Under an injective assignment a mnemonic's own byte names it. -/
theorem mnemonicOf_self {m : OpcodeMap} (hm : Function.Injective m) (k : Mnemonic) : mnemonicOf m (m k) = some k := by
  cases h : mnemonicOf m (m k) with
  | none => exact absurd rfl (mnemonicOf_none_iff.1 h k)
  | some k' => rw [hm (mnemonicOf_some h)]

theorem opc_injective : Function.Injective opc := by
  intro a b h
  have key : ∀ a ∈ Mnemonic.all, ∀ b ∈ Mnemonic.all, opc a = opc b → a = b := by decide +kernel
  exact key a (Mnemonic.mem_all a) b (Mnemonic.mem_all b) h

/-- The bits of an encoded word, field by field (30_encoding.md R100). -/
theorem encodeWith_getLsbD (m : OpcodeMap) (i : Instr) (n : Nat) :
    (encodeWith m i).getLsbD n =
      if n < 8 then (m i.mnemonic).getLsbD n
      else if n < 12 then (fieldsOf i).1.getLsbD (n - 8)
      else if n < 16 then (fieldsOf i).2.1.getLsbD (n - 12)
      else (fieldsOf i).2.2.getLsbD (n - 16) := by
  unfold encodeWith
  generalize (fieldsOf i).1 = r
  generalize (fieldsOf i).2.1 = md
  generalize (fieldsOf i).2.2 = im
  refine (BitVec.getLsbD_append (x := im ++ md ++ r)).trans ?_
  by_cases h8 : n < 8
  · simp [h8]
  · rw [if_neg h8, if_neg h8]
    refine (BitVec.getLsbD_append (x := im ++ md)).trans ?_
    by_cases h12 : n < 12
    · simp [h12, show n - 8 < 4 by omega]
    · rw [if_neg h12, if_neg (show ¬ n - 8 < 4 by omega)]
      refine (BitVec.getLsbD_append (x := im)).trans ?_
      by_cases h16 : n < 16
      · rw [if_pos (by omega), show n - 8 - 4 = n - 12 by omega, if_pos h16]
      · rw [if_neg (by omega), show n - 8 - 4 - 4 = n - 16 by omega, if_neg h16]

@[simp] theorem opcodeField_encodeWith (m : OpcodeMap) (i : Instr) : opcodeField (encodeWith m i) = m i.mnemonic := by
  apply BitVec.eq_of_getLsbD_eq; intro k hk
  simp [opcodeField, encodeWith_getLsbD, hk]

@[simp] theorem regField_encodeWith (m : OpcodeMap) (i : Instr) : regField (encodeWith m i) = (fieldsOf i).1 := by
  apply BitVec.eq_of_getLsbD_eq; intro k hk
  rw [regField, BitVec.getLsbD_extractLsb', encodeWith_getLsbD, if_neg (by omega), if_pos (by omega)]
  simp [hk]

@[simp] theorem modeField_encodeWith (m : OpcodeMap) (i : Instr) : modeField (encodeWith m i) = (fieldsOf i).2.1 := by
  apply BitVec.eq_of_getLsbD_eq; intro k hk
  rw [modeField, BitVec.getLsbD_extractLsb', encodeWith_getLsbD, if_neg (by omega), if_neg (by omega),
    if_pos (by omega)]
  simp [hk]

@[simp] theorem immField_encodeWith (m : OpcodeMap) (i : Instr) : immField (encodeWith m i) = (fieldsOf i).2.2 := by
  apply BitVec.eq_of_getLsbD_eq; intro k hk
  rw [immField, BitVec.getLsbD_extractLsb', encodeWith_getLsbD, if_neg (by omega), if_neg (by omega),
    if_neg (by omega)]
  simp [hk]

/-- A word's bytes, put together again, are the word (30_encoding.md R101). -/
theorem wordOfBytes_bytes (w : Word) :
    wordOfBytes (w.extractLsb' 0 8) (w.extractLsb' 8 8) (w.extractLsb' 16 8) (w.extractLsb' 24 8) = w := by
  apply BitVec.eq_of_getLsbD_eq; intro n hn
  refine (BitVec.getLsbD_append (x := w.extractLsb' 24 8 ++ w.extractLsb' 16 8 ++ w.extractLsb' 8 8)).trans ?_
  by_cases h8 : n < 8
  · simp [h8]
  · rw [if_neg h8]
    refine (BitVec.getLsbD_append (x := w.extractLsb' 24 8 ++ w.extractLsb' 16 8)).trans ?_
    by_cases h16 : n < 16
    · simp [show n - 8 < 8 by omega, show 8 + (n - 8) = n by omega]
    · rw [if_neg (show ¬ n - 8 < 8 by omega)]
      refine (BitVec.getLsbD_append (x := w.extractLsb' 24 8)).trans ?_
      by_cases h24 : n < 24
      · simp [show n - 8 - 8 < 8 by omega, show 16 + (n - 8 - 8) = n by omega]
      · simp [show ¬ n - 8 - 8 < 8 by omega, show n - 8 - 8 - 8 < 8 by omega, show 24 + (n - 8 - 8 - 8) = n by omega]

/-- A word that decodes gives the instruction its opcode byte and fields stand for. -/
theorem decodeWith_ok {m : OpcodeMap} {w : Word} {i : Instr} (h : decodeWith m w = .ok i) :
    ∃ k, m k = opcodeField w ∧ i = instrOf k (regField w) (modeField w) (immField w) := by
  unfold decodeWith at h
  cases hk : mnemonicOf m (opcodeField w) with
  | none => rw [hk] at h; cases h
  | some k => rw [hk] at h; cases h; exact ⟨k, mnemonicOf_some hk, rfl⟩

/-- The mnemonic of the instruction that a mnemonic's fields make. -/
@[simp] theorem mnemonic_instrOf (k : Mnemonic) (r mode : Nibble) (imm : Half) :
    (instrOf k r mode imm).mnemonic = k := by cases k <;> rfl

end Sys2Proof
end

