-- ==== Sys2Proof/Laws/State.lean ====
section
/-! SUPPORT. One lemma per field per update of State, and what a register reads after a write. No later proof unfolds a
record update. -/

namespace Sys2Proof.Machine

/-! ### `setReg` -/

@[simp] theorem State.setReg_regs (s : State) (q : Reg) (v : Word) : (s.setReg q v).regs = s.regs.set q v := rfl
@[simp] theorem State.setReg_pc (s : State) (q : Reg) (v : Word) : (s.setReg q v).pc = s.pc := rfl
@[simp] theorem State.setReg_flags (s : State) (q : Reg) (v : Word) : (s.setReg q v).flags = s.flags := rfl
@[simp] theorem State.setReg_halted (s : State) (q : Reg) (v : Word) : (s.setReg q v).halted = s.halted := rfl
@[simp] theorem State.setReg_fault (s : State) (q : Reg) (v : Word) : (s.setReg q v).fault = s.fault := rfl
@[simp] theorem State.setReg_mem (s : State) (q : Reg) (v : Word) : (s.setReg q v).mem = s.mem := rfl
@[simp] theorem State.setReg_draws (s : State) (q : Reg) (v : Word) : (s.setReg q v).draws = s.draws := rfl

/-! ### `setPc` -/

@[simp] theorem State.setPc_regs (s : State) (t : Word) : (s.setPc t).regs = s.regs := rfl
@[simp] theorem State.setPc_pc (s : State) (t : Word) : (s.setPc t).pc = t := rfl
@[simp] theorem State.setPc_flags (s : State) (t : Word) : (s.setPc t).flags = s.flags := rfl
@[simp] theorem State.setPc_halted (s : State) (t : Word) : (s.setPc t).halted = s.halted := rfl
@[simp] theorem State.setPc_fault (s : State) (t : Word) : (s.setPc t).fault = s.fault := rfl
@[simp] theorem State.setPc_mem (s : State) (t : Word) : (s.setPc t).mem = s.mem := rfl
@[simp] theorem State.setPc_draws (s : State) (t : Word) : (s.setPc t).draws = s.draws := rfl
@[simp] theorem State.setPc_reg (s : State) (t : Word) (p : Reg) : (s.setPc t).reg p = s.reg p := rfl

/-! ### `setFlags` -/

@[simp] theorem State.setFlags_regs (s : State) (c : Flag) : (s.setFlags c).regs = s.regs := rfl
@[simp] theorem State.setFlags_pc (s : State) (c : Flag) : (s.setFlags c).pc = s.pc := rfl
@[simp] theorem State.setFlags_flags (s : State) (c : Flag) : (s.setFlags c).flags = c := rfl
@[simp] theorem State.setFlags_halted (s : State) (c : Flag) : (s.setFlags c).halted = s.halted := rfl
@[simp] theorem State.setFlags_fault (s : State) (c : Flag) : (s.setFlags c).fault = s.fault := rfl
@[simp] theorem State.setFlags_mem (s : State) (c : Flag) : (s.setFlags c).mem = s.mem := rfl
@[simp] theorem State.setFlags_draws (s : State) (c : Flag) : (s.setFlags c).draws = s.draws := rfl
@[simp] theorem State.setFlags_reg (s : State) (c : Flag) (p : Reg) : (s.setFlags c).reg p = s.reg p := rfl

/-! ### `setHalted` -/

@[simp] theorem State.setHalted_regs (s : State) : (s.setHalted).regs = s.regs := rfl
@[simp] theorem State.setHalted_pc (s : State) : (s.setHalted).pc = s.pc := rfl
@[simp] theorem State.setHalted_flags (s : State) : (s.setHalted).flags = s.flags := rfl
@[simp] theorem State.setHalted_halted (s : State) : (s.setHalted).halted = true := rfl
@[simp] theorem State.setHalted_fault (s : State) : (s.setHalted).fault = s.fault := rfl
@[simp] theorem State.setHalted_mem (s : State) : (s.setHalted).mem = s.mem := rfl
@[simp] theorem State.setHalted_draws (s : State) : (s.setHalted).draws = s.draws := rfl
@[simp] theorem State.setHalted_reg (s : State) (p : Reg) : (s.setHalted).reg p = s.reg p := rfl

/-! ### `setMem` -/

@[simp] theorem State.setMem_regs (s : State) (m : Memory) : (s.setMem m).regs = s.regs := rfl
@[simp] theorem State.setMem_pc (s : State) (m : Memory) : (s.setMem m).pc = s.pc := rfl
@[simp] theorem State.setMem_flags (s : State) (m : Memory) : (s.setMem m).flags = s.flags := rfl
@[simp] theorem State.setMem_halted (s : State) (m : Memory) : (s.setMem m).halted = s.halted := rfl
@[simp] theorem State.setMem_fault (s : State) (m : Memory) : (s.setMem m).fault = s.fault := rfl
@[simp] theorem State.setMem_mem (s : State) (m : Memory) : (s.setMem m).mem = m := rfl
@[simp] theorem State.setMem_draws (s : State) (m : Memory) : (s.setMem m).draws = s.draws := rfl
@[simp] theorem State.setMem_reg (s : State) (m : Memory) (p : Reg) : (s.setMem m).reg p = s.reg p := rfl

/-! ### `takeFault` -/

@[simp] theorem State.takeFault_regs (s : State) (f : FaultRecord) : (s.takeFault f).regs = s.regs := rfl
@[simp] theorem State.takeFault_pc (s : State) (f : FaultRecord) : (s.takeFault f).pc = s.pc := rfl
@[simp] theorem State.takeFault_flags (s : State) (f : FaultRecord) : (s.takeFault f).flags = s.flags := rfl
@[simp] theorem State.takeFault_halted (s : State) (f : FaultRecord) : (s.takeFault f).halted = s.halted := rfl
@[simp] theorem State.takeFault_fault (s : State) (f : FaultRecord) : (s.takeFault f).fault = some f := rfl
@[simp] theorem State.takeFault_mem (s : State) (f : FaultRecord) : (s.takeFault f).mem = s.mem := rfl
@[simp] theorem State.takeFault_draws (s : State) (f : FaultRecord) : (s.takeFault f).draws = s.draws := rfl
@[simp] theorem State.takeFault_reg (s : State) (f : FaultRecord) (p : Reg) : (s.takeFault f).reg p = s.reg p := rfl

/-! ### `released` -/

/-- Under `POST_FAULT = latched` a Step finds the latch as it was left. -/
@[simp] theorem State.released_eq (s : State) : s.released = s := rfl

theorem State.running_iff (s : State) : s.running = true ↔ s.halted = false ∧ s.fault = none := by
  simp [State.running]

/-! ### `advancePc` -/

@[simp] theorem State.advancePc_regs (s : State) : (s.advancePc).regs = s.regs := rfl
@[simp] theorem State.advancePc_pc (s : State) : (s.advancePc).pc = s.pc + 4 := rfl
@[simp] theorem State.advancePc_flags (s : State) : (s.advancePc).flags = s.flags := rfl
@[simp] theorem State.advancePc_halted (s : State) : (s.advancePc).halted = s.halted := rfl
@[simp] theorem State.advancePc_fault (s : State) : (s.advancePc).fault = s.fault := rfl
@[simp] theorem State.advancePc_mem (s : State) : (s.advancePc).mem = s.mem := rfl
@[simp] theorem State.advancePc_draws (s : State) : (s.advancePc).draws = s.draws := rfl
@[simp] theorem State.advancePc_reg (s : State) (p : Reg) : (s.advancePc).reg p = s.reg p := rfl

/-! ### `drawn` -/

@[simp] theorem State.drawn_regs (s : State) : (s.drawn).regs = s.regs := rfl
@[simp] theorem State.drawn_pc (s : State) : (s.drawn).pc = s.pc := rfl
@[simp] theorem State.drawn_flags (s : State) : (s.drawn).flags = s.flags := rfl
@[simp] theorem State.drawn_halted (s : State) : (s.drawn).halted = s.halted := rfl
@[simp] theorem State.drawn_fault (s : State) : (s.drawn).fault = s.fault := rfl
@[simp] theorem State.drawn_mem (s : State) : (s.drawn).mem = s.mem := rfl
@[simp] theorem State.drawn_draws (s : State) : (s.drawn).draws = s.draws + 1 := rfl
@[simp] theorem State.drawn_reg (s : State) (p : Reg) : (s.drawn).reg p = s.reg p := rfl

/-! ### `hostReset` -/

@[simp] theorem State.hostReset_regs (s : State) : (s.hostReset).regs = State.reset.regs := rfl
@[simp] theorem State.hostReset_pc (s : State) : (s.hostReset).pc = State.reset.pc := rfl
@[simp] theorem State.hostReset_flags (s : State) : (s.hostReset).flags = State.reset.flags := rfl
@[simp] theorem State.hostReset_halted (s : State) : (s.hostReset).halted = State.reset.halted := rfl
@[simp] theorem State.hostReset_fault (s : State) : (s.hostReset).fault = State.reset.fault := rfl
@[simp] theorem State.hostReset_mem (s : State) : (s.hostReset).mem = s.mem := rfl
@[simp] theorem State.hostReset_draws (s : State) : (s.hostReset).draws = s.draws := rfl

/-! ### Registers -/

@[simp] theorem Regs.get_set (x : Regs) (q p : Reg) (v : Word) :
    (x.set q v).get p = if p = q then v else x.get p := by
  cases q <;> cases p <;> rfl

@[simp] theorem State.setReg_reg (s : State) (q p : Reg) (v : Word) :
    (s.setReg q v).reg p = if p = q then v else s.reg p :=
  Regs.get_set s.regs q p v

/-- Two register files that read alike are equal. -/
theorem Regs.ext_get {x y : Regs} (h : ∀ q, x.get q = y.get q) : x = y := by
  cases x; cases y
  simpa [Regs.get, Regs.mk.injEq] using
    And.intro (h .eax) (And.intro (h .ebx) (And.intro (h .ecx) (And.intro (h .edx)
      (And.intro (h .esi) (And.intro (h .edi) (And.intro (h .ebp) (h .esp)))))))

@[simp] theorem Reg.ofNat?_index (q : Reg) : Reg.ofNat? q.index = some q := by cases q <;> rfl

theorem Reg.index_lt (q : Reg) : q.index < 8 := by cases q <;> decide

/-- Every index below 8 names a register. -/
theorem Reg.ofNat?_of_lt {n : Nat} (h : n < 8) : ∃ q, Reg.ofNat? n = some q ∧ q.index = n := by
  match n, h with
  | 0, _ => exact ⟨.eax, rfl, rfl⟩
  | 1, _ => exact ⟨.ebx, rfl, rfl⟩
  | 2, _ => exact ⟨.ecx, rfl, rfl⟩
  | 3, _ => exact ⟨.edx, rfl, rfl⟩
  | 4, _ => exact ⟨.esi, rfl, rfl⟩
  | 5, _ => exact ⟨.edi, rfl, rfl⟩
  | 6, _ => exact ⟨.ebp, rfl, rfl⟩
  | 7, _ => exact ⟨.esp, rfl, rfl⟩

/-- No index from 8 on names a register. -/
theorem Reg.ofNat?_of_ge {n : Nat} (h : 8 ≤ n) : Reg.ofNat? n = none := by
  match n, h with
  | n + 8, _ => rfl

/-- What `reset` leaves in each register. -/
theorem State.reset_reg (q : Reg) :
    State.reset.reg q = if q = .ebp ∨ q = .esp then Config.resetSp else 0 := by
  cases q <;> rfl

end Sys2Proof.Machine
end

