-- ==== Sys2Proof/Laws/Memory.lean ====
section
/-! SUPPORT. Memory: a byte read after a write, the canonical form under every operation, and what the little-endian
accesses read and write. -/

namespace Sys2Proof.Machine

/-! ### One byte -/

theorem Memory.read_erase (m : Memory) (a b : Nat) :
    Memory.read (Memory.erase m a) b = if b = a then Memory.unlisted else Memory.read m b := by
  induction m with
  | nil => simp [Memory.erase, Memory.read]
  | cons c rest ih =>
    obtain ⟨c, d⟩ := c
    simp only [Memory.erase, ne_eq, decide_not] at ih ⊢
    by_cases hc : c = a
    · subst hc
      rw [List.filter_cons_of_neg (by simp), ih]
      by_cases hb : b = c
      · simp [hb]
      · simp [Memory.read, hb, Ne.symm hb]
    · rw [List.filter_cons_of_pos (by simpa using hc)]
      by_cases hb : c = b
      · subst hb; simp [Memory.read, hc]
      · simp [Memory.read, ih, hb]

theorem Memory.read_insert (m : Memory) (a : Nat) (v : Byte) (b : Nat) :
    Memory.read (Memory.insert m a v) b = if b = a then v else Memory.read m b := by
  induction m with
  | nil => simp only [Memory.insert, Memory.read, eq_comm]
  | cons c rest ih =>
    obtain ⟨c, d⟩ := c
    by_cases h : b = a
    · subst h
      by_cases h1 : b < c
      · simp [Memory.insert, Memory.read, h1]
      · by_cases h2 : c = b
        · simp [Memory.insert, Memory.read, h2]
        · simpa [Memory.insert, Memory.read, h1, h2] using ih
    · have h' : ¬ a = b := fun e => h e.symm
      by_cases h1 : a < c
      · simp [Memory.insert, Memory.read, h1, h, h']
      · by_cases h2 : c = a
        · subst h2; simp [Memory.insert, Memory.read, h, h']
        · simp only [Memory.insert, h1, h2, if_false, Memory.read, ih, h]

/-- A byte read after a byte written, in any memory. -/
@[simp] theorem Memory.read_write (m : Memory) (a : Nat) (v : Byte) (b : Nat) :
    Memory.read (Memory.write m a v) b = if b = a then v else Memory.read m b := by
  unfold Memory.write
  split
  · next h => rw [Memory.read_erase, h]
  · exact Memory.read_insert m a v b

@[simp] theorem Memory.read_nil (a : Nat) : Memory.read [] a = Memory.unlisted := rfl

/-! ### The canonical form -/

theorem Memory.wf_nil : Memory.wf [] := by simp [Memory.wf]

theorem Memory.wf_erase {m : Memory} (h : Memory.wf m) (a : Nat) : Memory.wf (Memory.erase m a) :=
  ⟨h.1.filter _, fun c hc => h.2 c (List.mem_of_mem_filter hc)⟩

theorem Memory.mem_insert {m : Memory} {a : Nat} {v : Byte} {c : Host.Cell}
    (h : c ∈ Memory.insert m a v) : c = (a, v) ∨ c ∈ m := by
  induction m with
  | nil => simpa [Memory.insert] using h
  | cons d rest ih =>
    obtain ⟨d1, d2⟩ := d
    unfold Memory.insert at h
    split at h
    · simpa using h
    · split at h
      · rcases List.mem_cons.1 h with h | h
        · exact .inl h
        · exact .inr (List.mem_cons_of_mem _ h)
      · rcases List.mem_cons.1 h with h | h
        · exact .inr (h ▸ List.mem_cons_self)
        · exact (ih h).imp id (List.mem_cons_of_mem _)

theorem Memory.sorted_insert {m : Memory} (h : m.Pairwise fun c d => c.1 < d.1) (a : Nat) (v : Byte) :
    (Memory.insert m a v).Pairwise fun c d => c.1 < d.1 := by
  induction m with
  | nil => simp [Memory.insert]
  | cons c rest ih =>
    obtain ⟨c, d⟩ := c
    obtain ⟨hc, hr⟩ := List.pairwise_cons.1 h
    unfold Memory.insert
    split
    · next h1 =>
      refine List.pairwise_cons.2 ⟨fun e he => ?_, h⟩
      rcases List.mem_cons.1 he with he | he
      · exact he ▸ h1
      · exact Nat.lt_trans h1 (hc e he)
    · next h1 =>
      split
      · next h2 => exact List.pairwise_cons.2 ⟨fun e he => h2 ▸ hc e he, hr⟩
      · next h2 =>
        refine List.pairwise_cons.2 ⟨fun e he => ?_, ih hr⟩
        rcases Memory.mem_insert he with he | he
        · subst he; show c < a; omega
        · exact hc e he

/-- A byte written inside memory keeps the canonical form. -/
theorem Memory.wf_write {m : Memory} (h : Memory.wf m) {a : Nat} (ha : a < Config.memSize) (v : Byte) :
    Memory.wf (Memory.write m a v) := by
  unfold Memory.write
  split
  · exact Memory.wf_erase h a
  · next hv =>
    refine ⟨Memory.sorted_insert h.1 a v, fun c hc => ?_⟩
    rcases Memory.mem_insert hc with hc | hc
    · subst hc; exact ⟨ha, hv⟩
    · exact h.2 c hc

/-- In canonical form, two memories that read alike are the same data. -/
theorem Memory.ext_of_wf {m n : Memory} (hm : Memory.wf m) (hn : Memory.wf n)
    (h : ∀ a, Memory.read m a = Memory.read n a) : m = n := by
  have below : ∀ {l : Memory} {a : Nat}, (∀ c ∈ l, a < c.1) → Memory.read l a = Memory.unlisted := by
    intro l a hl
    induction l with
    | nil => rfl
    | cons c rest ih =>
      have : ¬ c.1 = a := by have := hl c List.mem_cons_self; omega
      simpa [Memory.read, this] using ih fun c hc => hl c (List.mem_cons_of_mem _ hc)
  induction m generalizing n with
  | nil =>
    cases n with
    | nil => rfl
    | cons c rest =>
      have := h c.1
      simp [Memory.read] at this
      exact absurd this.symm (hn.2 c List.mem_cons_self).2
  | cons c rest ih =>
    cases n with
    | nil =>
      have := h c.1
      simp [Memory.read] at this
      exact absurd this (hm.2 c List.mem_cons_self).2
    | cons d rest' =>
      obtain ⟨hc, hr⟩ := List.pairwise_cons.1 hm.1
      obtain ⟨hd, hr'⟩ := List.pairwise_cons.1 hn.1
      have hcd : c.1 = d.1 := by
        rcases Nat.lt_trichotomy c.1 d.1 with hlt | heq | hgt
        · have := h c.1
          have hne : ¬ d.1 = c.1 := by omega
          rw [show Memory.read (d :: rest') c.1 = Memory.unlisted from
            below (l := d :: rest') fun e he => by
              rcases List.mem_cons.1 he with he | he
              · exact he ▸ hlt
              · exact Nat.lt_trans hlt (hd e he)] at this
          simp [Memory.read] at this
          exact absurd this (hm.2 c List.mem_cons_self).2
        · exact heq
        · have := h d.1
          rw [show Memory.read (c :: rest) d.1 = Memory.unlisted from
            below (l := c :: rest) fun e he => by
              rcases List.mem_cons.1 he with he | he
              · exact he ▸ hgt
              · exact Nat.lt_trans hgt (hc e he)] at this
          simp [Memory.read] at this
          exact absurd this.symm (hn.2 d List.mem_cons_self).2
      have hval : c.2 = d.2 := by
        have := h c.1
        simpa [Memory.read, hcd] using this
      have hrest : rest = rest' := by
        refine ih ⟨hr, fun e he => hm.2 e (List.mem_cons_of_mem _ he)⟩
          ⟨hr', fun e he => hn.2 e (List.mem_cons_of_mem _ he)⟩ fun a => ?_
        by_cases ha : c.1 = a
        · rw [below fun e he => ha ▸ hc e he, below fun e he => ha ▸ hcd ▸ hd e he]
        · have hda : ¬ d.1 = a := hcd ▸ ha
          have := h a
          simpa [Memory.read, ha, hda] using this
      rw [hrest, Prod.ext hcd hval]

/-! ### Little-endian accesses -/

/-- Every byte after `n` bytes written at `a`: byte `k` of the word at `a + k`, the others as they were. -/
theorem Memory.read_writeLE (m : Memory) (a : Nat) (v : Word) (n b : Nat) :
    Memory.read (Memory.writeLE m a v n) b =
      if a ≤ b ∧ b < a + n then (v >>> (8 * (b - a))).setWidth 8 else Memory.read m b := by
  induction n generalizing m a v with
  | zero => rw [if_neg (by omega)]; rfl
  | succ n ih =>
    rw [Memory.writeLE, ih, Memory.read_write]
    rcases Nat.lt_trichotomy b a with h | h | h
    · rw [if_neg (by omega), if_neg (by omega), if_neg (by omega)]
    · subst h; simp
    · by_cases h2 : b < a + (n + 1)
      · rw [if_pos (by omega), if_pos (by omega), ← BitVec.shiftRight_add]
        congr 2; omega
      · rw [if_neg (by omega), if_neg (by omega), if_neg (by omega)]

theorem Memory.wf_writeLE {m : Memory} (h : Memory.wf m) (v : Word) {a n : Nat} (hn : a + n ≤ Config.memSize) :
    Memory.wf (Memory.writeLE m a v n) := by
  induction n generalizing m a v with
  | zero => exact h
  | succ n ih => exact ih (Memory.wf_write h (by omega) _) _ (by omega)

theorem Memory.readLE_lt (m : Memory) (a n : Nat) : Memory.readLE m a n < 256 ^ n := by
  induction n generalizing a with
  | zero => simp [Memory.readLE]
  | succ n ih =>
    have h1 := (Memory.read m a).isLt
    have h2 := ih (a + 1)
    rw [Memory.readLE, Nat.pow_succ]; omega

/-- Memories that agree on the bytes of an access read alike there. -/
theorem Memory.readLE_congr {m m' : Memory} {a n : Nat}
    (h : ∀ b, a ≤ b → b < a + n → Memory.read m b = Memory.read m' b) :
    Memory.readLE m a n = Memory.readLE m' a n := by
  induction n generalizing a with
  | zero => rfl
  | succ n ih =>
    rw [Memory.readLE, Memory.readLE, h a (by omega) (by omega), ih fun b h1 h2 => h b (by omega) (by omega)]

/-- What was written is read back, low bytes first. -/
theorem Memory.readLE_writeLE (m : Memory) (a : Nat) (v : Word) (n : Nat) :
    Memory.readLE (Memory.writeLE m a v n) a n = v.toNat % 256 ^ n := by
  induction n generalizing m a v with
  | zero => simp [Memory.readLE, Nat.mod_one]
  | succ n ih =>
    rw [Memory.readLE, Memory.writeLE, ih, Memory.read_writeLE, if_neg (by omega), Memory.read_write, if_pos rfl,
      BitVec.toNat_setWidth, BitVec.toNat_ushiftRight, Nat.shiftRight_eq_div_pow, Nat.pow_succ 256 n,
      Nat.mul_comm (256 ^ n), Nat.mod_mul]


/-- Every byte after a list copied to an address. -/
theorem Memory.read_copyIn (m : Memory) (a : Nat) (bs : List Byte) (b : Nat) :
    Memory.read (Memory.copyIn m a bs) b = if a ≤ b then bs.getD (b - a) (Memory.read m b) else Memory.read m b := by
  induction bs generalizing m a with
  | nil => simp [Memory.copyIn]
  | cons x xs ih =>
    rw [Memory.copyIn, ih, Memory.read_write]
    rcases Nat.lt_trichotomy b a with h | h | h
    · rw [if_neg (by omega), if_neg (by omega), if_neg (by omega)]
    · subst h; simp
    · rw [if_pos (by omega), if_neg (by omega), if_pos (by omega), show b - a = b - (a + 1) + 1 by omega]
      rfl

theorem Memory.wf_copyIn {m : Memory} (h : Memory.wf m) {bs : List Byte} {a : Nat}
    (hn : a + bs.length ≤ Config.memSize) : Memory.wf (Memory.copyIn m a bs) := by
  induction bs generalizing m a with
  | nil => exact h
  | cons x xs ih =>
    rw [List.length_cons] at hn
    exact ih (Memory.wf_write h (by omega) _) (by omega)

end Sys2Proof.Machine
end

