-- ==== Sys2Proof/Laws/Ops.lean ====
section
/-! SUPPORT. The shared operations over memory, the stack and faults: one lemma each that says everything the operation can
do. -/

namespace Sys2Proof.Machine

/-! ### Accesses -/

@[simp] theorem inMemory_iff (a : Word) (n : Width) : inMemory a n = true ↔ a.toNat + n.bytes ≤ Config.memSize := by
  simp [inMemory]

/-- An access in memory has no wrap in its addresses. -/
theorem Width.bytes_pos (n : Width) : 0 < n.bytes ∧ n.bytes ≤ 4 := by cases n <;> decide

/-- `MemRead`: the little-endian bytes where they all lie in memory, else the fault; the word is not truncated. -/
theorem State.memRead_eq (s : State) (a : Word) (n : Width) :
    (∃ v, s.memRead a n = .ok v ∧ v.toNat = Memory.readLE s.mem a.toNat n.bytes ∧ a.toNat + n.bytes ≤ Config.memSize) ∨
    (s.memRead a n = .error (.memoryFault a) ∧ Config.memSize < a.toNat + n.bytes) := by
  by_cases h : a.toNat + n.bytes ≤ Config.memSize
  · refine .inl ⟨_, if_pos ((inMemory_iff a n).2 h), ?_, h⟩
    have hlt := Memory.readLE_lt s.mem a.toNat n.bytes
    have : 256 ^ n.bytes ≤ 2 ^ 32 := by cases n <;> decide
    rw [BitVec.toNat_ofNat, Nat.mod_eq_of_lt (by omega)]
  · exact .inr ⟨if_neg (by simpa using h), by omega⟩

theorem State.memRead_ok {s : State} {a v : Word} {n : Width} (h : s.memRead a n = .ok v) :
    v.toNat = Memory.readLE s.mem a.toNat n.bytes ∧ a.toNat + n.bytes ≤ Config.memSize := by
  rcases s.memRead_eq a n with ⟨w, hw, h1, h2⟩ | ⟨he, _⟩
  · rw [hw] at h; cases h; exact ⟨h1, h2⟩
  · rw [he] at h; cases h

theorem State.memRead_error {s : State} {a : Word} {n : Width} {f : FaultRecord} (h : s.memRead a n = .error f) :
    f = .memoryFault a ∧ Config.memSize < a.toNat + n.bytes := by
  rcases s.memRead_eq a n with ⟨w, hw, _, _⟩ | ⟨he, h2⟩
  · rw [hw] at h; cases h
  · rw [he] at h; cases h; exact ⟨rfl, h2⟩

/-- `MemWrite`: the low bytes stored where they all lie in memory, else the fault. -/
theorem State.memWrite_eq (s : State) (a : Word) (n : Width) (v : Word) :
    (s.memWrite a n v = .ok (s.setMem (Memory.writeLE s.mem a.toNat v n.bytes)) ∧ a.toNat + n.bytes ≤ Config.memSize) ∨
    (s.memWrite a n v = .error (.memoryFault a) ∧ Config.memSize < a.toNat + n.bytes) := by
  by_cases h : a.toNat + n.bytes ≤ Config.memSize
  · exact .inl ⟨if_pos ((inMemory_iff a n).2 h), h⟩
  · exact .inr ⟨if_neg (by simpa using h), by omega⟩

theorem State.memWrite_ok {s t : State} {a v : Word} {n : Width} (h : s.memWrite a n v = .ok t) :
    t = s.setMem (Memory.writeLE s.mem a.toNat v n.bytes) ∧ a.toNat + n.bytes ≤ Config.memSize := by
  rcases s.memWrite_eq a n v with ⟨hw, h2⟩ | ⟨he, _⟩
  · rw [hw] at h; cases h; exact ⟨rfl, h2⟩
  · rw [he] at h; cases h

theorem State.memWrite_error {s : State} {a v : Word} {n : Width} {f : FaultRecord} (h : s.memWrite a n v = .error f) :
    f = .memoryFault a ∧ Config.memSize < a.toNat + n.bytes := by
  rcases s.memWrite_eq a n v with ⟨hw, _⟩ | ⟨he, h2⟩
  · rw [hw] at h; cases h
  · rw [he] at h; cases h; exact ⟨rfl, h2⟩

/-! ### The stack -/

/-- What a push that answers can have done: both bounds held, the word stands at the new ESP, nothing else changed. -/
theorem State.push_ok {s t : State} {val : Word} (h : s.push val = .ok t) :
    Config.stackBase ≤ (s.reg .esp).toInt - 4 ∧ (s.reg .esp - 4).toNat + 4 ≤ Config.memSize ∧
      t = (s.setMem (Memory.writeLE s.mem (s.reg .esp - 4).toNat val 4)).setReg .esp (s.reg .esp - 4) := by
  unfold State.push at h
  simp only at h
  split at h
  · cases h
  · next hb =>
    rcases s.memWrite_eq (s.reg .esp - 4) .four val with ⟨hw, h2⟩ | ⟨he, _⟩
    · rw [hw] at h; cases h; exact ⟨by omega, h2, rfl⟩
    · rw [he] at h; cases h

/-- Why a push faults: the stack test first, then the memory bounds. -/
theorem State.push_error {s : State} {val : Word} {f : FaultRecord} (h : s.push val = .error f) :
    ((s.reg .esp).toInt - 4 < Config.stackBase ∧ f = .stackFault .overflow) ∨
    (Config.stackBase ≤ (s.reg .esp).toInt - 4 ∧ Config.memSize < (s.reg .esp - 4).toNat + 4 ∧
      f = .memoryFault (s.reg .esp - 4)) := by
  unfold State.push at h
  simp only at h
  split at h
  · next hb => cases h; exact .inl ⟨hb, rfl⟩
  · next hb =>
    rcases s.memWrite_eq (s.reg .esp - 4) .four val with ⟨hw, _⟩ | ⟨he, h2⟩
    · rw [hw] at h; cases h
    · rw [he] at h; cases h; exact .inr ⟨by omega, h2, rfl⟩

/-- When a push answers. -/
theorem State.push_of_bounds {s : State} (val : Word) (h1 : Config.stackBase ≤ (s.reg .esp).toInt - 4)
    (h2 : (s.reg .esp - 4).toNat + 4 ≤ Config.memSize) :
    s.push val = .ok ((s.setMem (Memory.writeLE s.mem (s.reg .esp - 4).toNat val 4)).setReg .esp (s.reg .esp - 4)) := by
  unfold State.push
  simp only
  rw [if_neg (by omega)]
  rcases s.memWrite_eq (s.reg .esp - 4) .four val with ⟨hw, _⟩ | ⟨_, h3⟩
  · rw [hw]; rfl
  · exact absurd h2 (by simpa [Width.bytes] using h3)

/-- What a pop that answers can have done: the bound held, the value is the word at ESP, only ESP changed. -/
theorem State.pop_ok {s t : State} {val : Word} (h : s.pop = .ok (val, t)) :
    (s.reg .esp).toInt + 4 ≤ Config.stackEnd ∧ (s.reg .esp).toNat + 4 ≤ Config.memSize ∧
      val.toNat = Memory.readLE s.mem (s.reg .esp).toNat 4 ∧ t = s.setReg .esp (s.reg .esp + 4) := by
  unfold State.pop at h
  simp only at h
  split at h
  · cases h
  · next hb =>
    rcases s.memRead_eq (s.reg .esp) .four with ⟨v, hv, h1, h2⟩ | ⟨he, _⟩
    · rw [hv] at h; cases h; exact ⟨by omega, h2, h1, rfl⟩
    · rw [he] at h; cases h

/-- Why a pop faults: the stack test first, then the memory bounds. -/
theorem State.pop_error {s : State} {f : FaultRecord} (h : s.pop = .error f) :
    (Config.stackEnd < (s.reg .esp).toInt + 4 ∧ f = .stackFault .underflow) ∨
    ((s.reg .esp).toInt + 4 ≤ Config.stackEnd ∧ Config.memSize < (s.reg .esp).toNat + 4 ∧
      f = .memoryFault (s.reg .esp)) := by
  unfold State.pop at h
  simp only at h
  split at h
  · next hb => cases h; exact .inl ⟨hb, rfl⟩
  · next hb =>
    rcases s.memRead_eq (s.reg .esp) .four with ⟨v, hv, _, _⟩ | ⟨he, h2⟩
    · rw [hv] at h; cases h
    · rw [he] at h; cases h; exact .inr ⟨by omega, h2, rfl⟩

/-- When a pop answers. -/
theorem State.pop_of_bounds {s : State} (h1 : (s.reg .esp).toInt + 4 ≤ Config.stackEnd)
    (h2 : (s.reg .esp).toNat + 4 ≤ Config.memSize) :
    s.pop = .ok (BitVec.ofNat 32 (Memory.readLE s.mem (s.reg .esp).toNat 4), s.setReg .esp (s.reg .esp + 4)) := by
  unfold State.pop
  simp only
  rw [if_neg (by omega)]
  unfold State.memRead
  rw [if_pos ((inMemory_iff _ _).2 (by simpa [Width.bytes] using h2))]
  rfl

/-! ### The end of an instruction -/

@[simp] theorem State.commit_ok (s t : State) : s.commit (.ok t) = .next t := rfl

@[simp] theorem State.commit_error (s : State) (f : FaultRecord) : s.commit (.error f) = .next (s.takeFault f) := rfl

/-- What a committed instruction can answer: always a next state, its own effect or the fault taken. -/
theorem State.commit_next {s t : State} {e : Except FaultRecord State} (h : s.commit e = .next t) :
    e = .ok t ∨ ∃ f, e = .error f ∧ t = s.takeFault f := by
  cases e with
  | ok u => cases h; exact .inl rfl
  | error f => cases h; exact .inr ⟨f, rfl, rfl⟩

end Sys2Proof.Machine
end

