-- ==== Sys2Proof/Laws/Operands.lean ====
section
/-! SUPPORT. The register check, the resolver and the instruction shapes: what each can answer. -/

namespace Sys2Proof.Machine

/-! ### The register check -/

/-- `Reg(i)` answers a register exactly for that register's index. -/
theorem checkReg_ok_iff {i : Int} {q : Reg} : checkReg i = .ok q ↔ i = q.index := by
  constructor
  · intro h
    unfold checkReg at h
    split at h
    · next hi =>
      by_cases hlt : i.toNat < 8
      · obtain ⟨p, hp, hpi⟩ := Reg.ofNat?_of_lt hlt
        rw [hp] at h
        cases h
        omega
      · rw [Reg.ofNat?_of_ge (by omega)] at h
        cases h
    · cases h
  · rintro rfl
    simp [checkReg]

/-- `Reg(i)` faults exactly outside 0 to 7, with the index. -/
theorem checkReg_error_iff {i : Int} {f : FaultRecord} :
    checkReg i = .error f ↔ (i < 0 ∨ 8 ≤ i) ∧ f = .illegalRegister i := by
  unfold checkReg
  split
  · next hi =>
    by_cases hlt : i.toNat < 8
    · obtain ⟨p, hp, _⟩ := Reg.ofNat?_of_lt hlt
      rw [hp]
      constructor
      · intro h; cases h
      · rintro ⟨h, _⟩; omega
    · rw [Reg.ofNat?_of_ge (by omega)]
      constructor
      · intro h; cases h; exact ⟨by omega, rfl⟩
      · rintro ⟨_, rfl⟩; rfl
  · constructor
    · intro h; cases h; exact ⟨by omega, rfl⟩
    · rintro ⟨_, rfl⟩; rfl

@[simp] theorem Reg.field_toNat (q : Reg) : q.field.toNat = q.index := by cases q <;> rfl

@[simp] theorem regOf_field (q : Reg) : regOf q.field = .ok q := by
  rw [regOf, checkReg_ok_iff, Reg.field_toNat]

theorem regOf_ok_iff {r : Nibble} {q : Reg} : regOf r = .ok q ↔ r = q.field := by
  rw [regOf, checkReg_ok_iff]
  constructor
  · intro h; apply BitVec.eq_of_toNat_eq; rw [Reg.field_toNat]; exact_mod_cast h
  · rintro rfl; simp

theorem regOf_error_iff {r : Nibble} {f : FaultRecord} :
    regOf r = .error f ↔ 8 ≤ r.toNat ∧ f = .illegalRegister r.toNat := by
  rw [regOf, checkReg_error_iff]
  constructor
  · rintro ⟨h, rfl⟩; exact ⟨by omega, rfl⟩
  · rintro ⟨h, rfl⟩; exact ⟨by omega, rfl⟩

/-! ### The resolver -/

/-- The rows of the resolver's table, mode by mode. -/
theorem addrModeOf_cases (mode : Nibble) :
    (mode.toNat < 2 ∧ addrModeOf mode = .immediate) ∨ (mode.toNat = 2 ∧ addrModeOf mode = .register) ∨
    (mode.toNat = 3 ∧ addrModeOf mode = .heapRelative) ∨
    (4 ≤ mode.toNat ∧ mode.toNat ≤ 9 ∧ ∃ b : Reg, addrModeOf mode = .basePlus b ∧ b.index = mode.toNat - 4) ∨
    (mode.toNat = 10 ∧ addrModeOf mode = .baseMinus .ebp) ∨ (mode.toNat = 11 ∧ addrModeOf mode = .baseMinus .esp) ∨
    (12 ≤ mode.toNat ∧ addrModeOf mode = .illegal) := by
  have h : ∀ m : Nibble, 4 ≤ m.toNat → m.toNat ≤ 9 →
      ∃ b ∈ [Reg.eax, .ebx, .ecx, .edx, .esi, .edi], addrModeOf m = .basePlus b ∧ b.index = m.toNat - 4 := by decide
  have h' : ∀ m : Nibble,
      (m.toNat < 2 ∧ addrModeOf m = .immediate) ∨ (m.toNat = 2 ∧ addrModeOf m = .register) ∨
      (m.toNat = 3 ∧ addrModeOf m = .heapRelative) ∨ (4 ≤ m.toNat ∧ m.toNat ≤ 9) ∨
      (m.toNat = 10 ∧ addrModeOf m = .baseMinus .ebp) ∨ (m.toNat = 11 ∧ addrModeOf m = .baseMinus .esp) ∨
      (12 ≤ m.toNat ∧ addrModeOf m = .illegal) := by decide
  rcases h' mode with h1 | h1 | h1 | ⟨h1, h2⟩ | h1
  · exact .inl h1
  · exact .inr (.inl h1)
  · exact .inr (.inr (.inl h1))
  · obtain ⟨b, _, hb⟩ := h mode h1 h2
    exact .inr (.inr (.inr (.inl ⟨h1, h2, b, hb⟩)))
  · exact .inr (.inr (.inr (.inr h1)))

/-- The resolver faults on an illegal mode, or in mode 2 on an index above 7. -/
theorem State.resolve_error {s : State} {o : Operand} {f : FaultRecord} (h : s.resolve o = .error f) :
    (12 ≤ o.mode.toNat ∧ f = .illegalAddressingMode o.mode) ∨
    (o.mode.toNat = 2 ∧ 8 ≤ ((operandOf o.imm16).extractLsb' 0 4).toNat ∧
      f = .illegalRegister ((operandOf o.imm16).extractLsb' 0 4).toNat) := by
  unfold State.resolve at h
  rcases addrModeOf_cases o.mode with ⟨_, ha⟩ | ⟨hm, ha⟩ | ⟨_, ha⟩ | ⟨_, _, b, ha, _⟩ | ⟨_, ha⟩ | ⟨_, ha⟩ | ⟨hm, ha⟩ <;>
    rw [ha] at h <;> simp only at h
  · cases h
  · cases hc : checkReg ((operandOf o.imm16).extractLsb' 0 4).toNat with
    | ok q => rw [hc] at h; cases h
    | error g =>
      rw [hc] at h
      cases h
      obtain ⟨h8, rfl⟩ := checkReg_error_iff.1 hc
      exact .inr ⟨hm, by omega, rfl⟩
  · cases h
  · cases h
  · cases h
  · cases h
  · cases h; exact .inl ⟨hm, rfl⟩

/-! ### The shapes -/

/-- The operand is resolved first: its fault is the instruction's. -/
theorem State.withRegOperand_resolve_error {s : State} {o : Operand} {f : FaultRecord} (h : s.resolve o = .error f)
    (r : Nibble) (act : Reg → Word → Except FaultRecord State) : s.withRegOperand r o act = .next (s.takeFault f) := by
  simp only [State.withRegOperand, h]; rfl

/-- The register is checked second. -/
theorem State.withRegOperand_reg_error {s : State} {o : Operand} {v : Word} (h : s.resolve o = .ok v) {r : Nibble}
    (hr : 8 ≤ r.toNat) (act : Reg → Word → Except FaultRecord State) :
    s.withRegOperand r o act = .next (s.takeFault (.illegalRegister r.toNat)) := by
  simp only [State.withRegOperand, h, regOf_error_iff.2 ⟨hr, rfl⟩]; rfl

/-- With both checks passed, the action is what is committed. -/
theorem State.withRegOperand_ok {s : State} {o : Operand} {v : Word} (h : s.resolve o = .ok v) (q : Reg)
    (act : Reg → Word → Except FaultRecord State) : s.withRegOperand q.field o act = s.commit (act q v) := by
  simp only [State.withRegOperand, h, regOf_field]; rfl

/-- Everything the shape can do. -/
theorem State.withRegOperand_next {s t : State} {r : Nibble} {o : Operand} {act : Reg → Word → Except FaultRecord State}
    (h : s.withRegOperand r o act = .next t) :
    (∃ q v, r = q.field ∧ s.resolve o = .ok v ∧ act q v = .ok t) ∨ ∃ f, t = s.takeFault f := by
  cases hv : s.resolve o with
  | error f => rw [State.withRegOperand_resolve_error hv] at h; cases h; exact .inr ⟨f, rfl⟩
  | ok v =>
    by_cases hr : 8 ≤ r.toNat
    · rw [State.withRegOperand_reg_error hv hr] at h; cases h; exact .inr ⟨_, rfl⟩
    · cases hq : regOf r with
      | error f => exact absurd (regOf_error_iff.1 hq).1 hr
      | ok q =>
        obtain rfl := regOf_ok_iff.1 hq
        rw [State.withRegOperand_ok hv] at h
        rcases State.commit_next h with h | ⟨f, _, h⟩
        · exact .inl ⟨q, v, rfl, rfl, h⟩
        · exact .inr ⟨f, h⟩

@[simp] theorem State.updateReg_field (s : State) (q : Reg) (f : Word → Word) :
    s.updateReg q.field f = .next (s.setReg q (f (s.reg q))) := by
  simp only [State.updateReg, regOf_field]; rfl

theorem State.updateReg_error {s : State} {r : Nibble} (hr : 8 ≤ r.toNat) (f : Word → Word) :
    s.updateReg r f = .next (s.takeFault (.illegalRegister r.toNat)) := by
  simp only [State.updateReg, regOf_error_iff.2 ⟨hr, rfl⟩]; rfl

/-! ### Halves -/

theorem withHigh_getLsbD (x : Word) (h : Half) (k : Nat) :
    (withHigh x h).getLsbD k = if k < 16 then x.getLsbD k else h.getLsbD (k - 16) := by
  refine (BitVec.getLsbD_append (x := h) (y := lowHalf x)).trans ?_
  by_cases hk : k < 16 <;> simp [lowHalf, hk]

theorem withLow_getLsbD (x : Word) (h : Half) (k : Nat) :
    (withLow x h).getLsbD k = if k < 16 then h.getLsbD k else x.getLsbD k := by
  refine (BitVec.getLsbD_append (x := highHalf x) (y := h)).trans ?_
  by_cases hk : k < 16
  · simp [hk]
  · by_cases hk' : k < 32
    · have : k - 16 < 16 := by omega
      simp [highHalf, hk, this, show 16 + (k - 16) = k by omega]
    · have : ¬ k - 16 < 16 := by omega
      simp [highHalf, hk, this, BitVec.getLsbD_of_ge x k (by omega)]

theorem highHalf_withHigh (x : Word) (h : Half) : highHalf (withHigh x h) = h ∧ lowHalf (withHigh x h) = lowHalf x := by
  constructor <;> apply BitVec.eq_of_getLsbD_eq <;> intro k hk <;> simp [highHalf, lowHalf, withHigh_getLsbD, hk]

theorem lowHalf_withLow (x : Word) (h : Half) : lowHalf (withLow x h) = h ∧ highHalf (withLow x h) = highHalf x := by
  constructor <;> apply BitVec.eq_of_getLsbD_eq <;> intro k hk <;> simp [highHalf, lowHalf, withLow_getLsbD, hk]

end Sys2Proof.Machine
end

