-- ==== Sys2Proof/Laws/PerInstr.lean ====
section
/-! SUPPORT. Statements for all instructions, one lemma per constructor of `Instr`. -/

namespace Sys2Proof.Laws

/-- The decoder's reading of an instruction's own fields is the instruction: neither direction mixes two fields up, drops one
that the instruction uses, or changes its mnemonic. -/
def FieldsBack.Statement (i : Instr) : Prop :=
  instrOf i.mnemonic (fieldsOf i).1 (fieldsOf i).2.1 (fieldsOf i).2.2 = i

theorem FieldsBack.mov (r : Nibble) (o : Operand) : FieldsBack.Statement (.mov r o) := rfl
theorem FieldsBack.movhi (r : Nibble) (o : Operand) : FieldsBack.Statement (.movhi r o) := rfl
theorem FieldsBack.movlo (r : Nibble) (o : Operand) : FieldsBack.Statement (.movlo r o) := rfl
theorem FieldsBack.ld (r : Nibble) (o : Operand) : FieldsBack.Statement (.ld r o) := rfl
theorem FieldsBack.ldhi (r : Nibble) (o : Operand) : FieldsBack.Statement (.ldhi r o) := rfl
theorem FieldsBack.ldlo (r : Nibble) (o : Operand) : FieldsBack.Statement (.ldlo r o) := rfl
theorem FieldsBack.st (r : Nibble) (o : Operand) : FieldsBack.Statement (.st r o) := rfl
theorem FieldsBack.sthi (r : Nibble) (o : Operand) : FieldsBack.Statement (.sthi r o) := rfl
theorem FieldsBack.stlo (r : Nibble) (o : Operand) : FieldsBack.Statement (.stlo r o) := rfl
theorem FieldsBack.push (r : Nibble) : FieldsBack.Statement (.push r) := rfl
theorem FieldsBack.pop (r : Nibble) : FieldsBack.Statement (.pop r) := rfl
theorem FieldsBack.xchg (r : Nibble) : FieldsBack.Statement (.xchg r) := rfl
theorem FieldsBack.add (r : Nibble) (o : Operand) : FieldsBack.Statement (.add r o) := rfl
theorem FieldsBack.sub (r : Nibble) (o : Operand) : FieldsBack.Statement (.sub r o) := rfl
theorem FieldsBack.mul (r : Nibble) (o : Operand) : FieldsBack.Statement (.mul r o) := rfl
theorem FieldsBack.div (r : Nibble) (o : Operand) : FieldsBack.Statement (.div r o) := rfl
theorem FieldsBack.mod (r : Nibble) (o : Operand) : FieldsBack.Statement (.mod r o) := rfl
theorem FieldsBack.inc (r : Nibble) : FieldsBack.Statement (.inc r) := rfl
theorem FieldsBack.dec (r : Nibble) : FieldsBack.Statement (.dec r) := rfl
theorem FieldsBack.neg (r : Nibble) : FieldsBack.Statement (.neg r) := rfl
theorem FieldsBack.fadd (r : Nibble) (o : Operand) : FieldsBack.Statement (.fadd r o) := rfl
theorem FieldsBack.fsub (r : Nibble) (o : Operand) : FieldsBack.Statement (.fsub r o) := rfl
theorem FieldsBack.fmul (r : Nibble) (o : Operand) : FieldsBack.Statement (.fmul r o) := rfl
theorem FieldsBack.fdiv (r : Nibble) (o : Operand) : FieldsBack.Statement (.fdiv r o) := rfl
theorem FieldsBack.fmovhi (r : Nibble) (o : Operand) : FieldsBack.Statement (.fmovhi r o) := rfl
theorem FieldsBack.fmovlo (r : Nibble) (o : Operand) : FieldsBack.Statement (.fmovlo r o) := rfl
theorem FieldsBack.itof (r : Nibble) (d : Half) : FieldsBack.Statement (.itof r d) := rfl
theorem FieldsBack.ftoi (r : Nibble) (d : Half) : FieldsBack.Statement (.ftoi r d) := rfl
theorem FieldsBack.and (r : Nibble) (o : Operand) : FieldsBack.Statement (.and r o) := rfl
theorem FieldsBack.or (r : Nibble) (o : Operand) : FieldsBack.Statement (.or r o) := rfl
theorem FieldsBack.xor (r : Nibble) (o : Operand) : FieldsBack.Statement (.xor r o) := rfl
theorem FieldsBack.not (r : Nibble) : FieldsBack.Statement (.not r) := rfl
theorem FieldsBack.shl (r : Nibble) (o : Operand) : FieldsBack.Statement (.shl r o) := rfl
theorem FieldsBack.shr (r : Nibble) (o : Operand) : FieldsBack.Statement (.shr r o) := rfl
theorem FieldsBack.rol (r : Nibble) (o : Operand) : FieldsBack.Statement (.rol r o) := rfl
theorem FieldsBack.ror (r : Nibble) (o : Operand) : FieldsBack.Statement (.ror r o) := rfl
theorem FieldsBack.test (r : Nibble) (o : Operand) : FieldsBack.Statement (.test r o) := rfl
theorem FieldsBack.cmp (r : Nibble) (o : Operand) : FieldsBack.Statement (.cmp r o) := rfl
theorem FieldsBack.jeq (o : Operand) : FieldsBack.Statement (.jeq o) := rfl
theorem FieldsBack.jne (o : Operand) : FieldsBack.Statement (.jne o) := rfl
theorem FieldsBack.jgt (o : Operand) : FieldsBack.Statement (.jgt o) := rfl
theorem FieldsBack.jlt (o : Operand) : FieldsBack.Statement (.jlt o) := rfl
theorem FieldsBack.jge (o : Operand) : FieldsBack.Statement (.jge o) := rfl
theorem FieldsBack.jle (o : Operand) : FieldsBack.Statement (.jle o) := rfl
theorem FieldsBack.jmp (o : Operand) : FieldsBack.Statement (.jmp o) := rfl
theorem FieldsBack.jmprel (o : Operand) : FieldsBack.Statement (.jmprel o) := rfl
theorem FieldsBack.jmpx (t : Half) : FieldsBack.Statement (.jmpx t) := rfl
theorem FieldsBack.call (o : Operand) : FieldsBack.Statement (.call o) := rfl
theorem FieldsBack.ret : FieldsBack.Statement .ret := rfl
theorem FieldsBack.enter (o : Operand) : FieldsBack.Statement (.enter o) := rfl
theorem FieldsBack.leave : FieldsBack.Statement .leave := rfl
theorem FieldsBack.hlt : FieldsBack.Statement .hlt := rfl

end Sys2Proof.Laws
end

