-- ==== Sys2Proof/Laws/Rounding.lean ====
section
/-! SUPPORT. Rounding to binary32: the magnitude of a datum, and what `roundMagnitude` and `F32.round` can answer. -/

namespace Sys2Proof.Machine

/-! ### Magnitudes -/

/-- The magnitude that the lower 31 bits of a datum stand for, in units of 2^-149. -/
def lowMagnitude (low : Nat) : Nat :=
  if low / 2 ^ 23 = 0 then low % 2 ^ 23 else (2 ^ 23 + low % 2 ^ 23) * 2 ^ (low / 2 ^ 23 - 1)

theorem F32.magnitude_pack (neg : Bool) {low : Nat} (h : low < 2 ^ 31) :
    (F32.pack neg low).magnitude = lowMagnitude low := by
  rw [F32.magnitude, F32.pack_exponent neg h, F32.pack_fraction neg h, lowMagnitude]

/-- The lower 31 bits of a datum, from its fields. -/
theorem F32.magnitude_eq (f : F32) : f.magnitude = lowMagnitude (f.exponent * 2 ^ 23 + f.fraction) := by
  have h := f.fraction_lt
  rw [F32.magnitude, lowMagnitude, show (f.exponent * 2 ^ 23 + f.fraction) / 2 ^ 23 = f.exponent by omega,
    show (f.exponent * 2 ^ 23 + f.fraction) % 2 ^ 23 = f.fraction by omega]

/-- A significand `q` at the binary exponent `k`, rounded up to the next exponent included. -/
theorem lowMagnitude_scaled {k q : Nat} (hq : q ≤ 2 ^ 24) (hk : k = 0 ∨ 2 ^ 23 ≤ q) :
    lowMagnitude (k * 2 ^ 23 + q) = q * 2 ^ k := by
  unfold lowMagnitude
  by_cases h24 : q = 2 ^ 24
  · subst h24
    rw [show (k * 2 ^ 23 + 2 ^ 24) / 2 ^ 23 = k + 2 by omega, show (k * 2 ^ 23 + 2 ^ 24) % 2 ^ 23 = 0 by omega,
      if_neg (by omega), show k + 2 - 1 = k + 1 by omega, Nat.pow_succ]
    ring
  · by_cases h23 : 2 ^ 23 ≤ q
    · rw [show (k * 2 ^ 23 + q) / 2 ^ 23 = k + 1 by omega, show (k * 2 ^ 23 + q) % 2 ^ 23 = q - 2 ^ 23 by omega,
        if_neg (by omega), Nat.add_sub_cancel, show 2 ^ 23 + (q - 2 ^ 23) = q by omega]
    · obtain rfl : k = 0 := by omega
      rw [if_pos (by omega), show (0 * 2 ^ 23 + q) % 2 ^ 23 = q by omega]
      simp

/-- Against the unit `2^k`, every magnitude is a multiple of it or lies below the binade it starts. -/
theorem lowMagnitude_cases (low k : Nat) :
    (∃ j, lowMagnitude low = j * 2 ^ k) ∨ (0 < k ∧ lowMagnitude low < 2 ^ 23 * 2 ^ k) := by
  have hf : low % 2 ^ 23 < 2 ^ 23 := Nat.mod_lt _ (by norm_num)
  unfold lowMagnitude
  split
  · rcases Nat.eq_zero_or_pos k with rfl | hk
    · exact .inl ⟨low % 2 ^ 23, by simp⟩
    · exact .inr ⟨hk, lt_of_lt_of_le hf (Nat.le_mul_of_pos_right _ (by positivity))⟩
  · next he =>
    by_cases h : k ≤ low / 2 ^ 23 - 1
    · refine .inl ⟨(2 ^ 23 + low % 2 ^ 23) * 2 ^ (low / 2 ^ 23 - 1 - k), ?_⟩
      rw [Nat.mul_assoc, ← Nat.pow_add, Nat.sub_add_cancel h]
    · refine .inr ⟨by omega, ?_⟩
      have h1 : 2 ^ (low / 2 ^ 23 - 1) * 2 ≤ 2 ^ k := by
        rw [← Nat.pow_succ]; exact Nat.pow_le_pow_right (by norm_num) (by omega)
      have h2 : 0 < 2 ^ (low / 2 ^ 23 - 1) := by positivity
      nlinarith

/-! ### `roundMagnitude` -/

/-- The unit of the last place that `roundMagnitude` chooses: where it is not the smallest one, the quotient fills the
significand. -/
theorem rounding_unit (n : Nat) {d : Nat} (hd : 0 < d) :
    n < 2 ^ 24 * (d * 2 ^ ((n / d).log2 - 23)) ∧
    ((n / d).log2 - 23 = 0 ∨ 2 ^ 23 * (d * 2 ^ ((n / d).log2 - 23)) ≤ n) := by
  have hlt : n / d < 2 ^ ((n / d).log2 + 1) := Nat.lt_log2_self
  constructor
  · have : n < d * 2 ^ ((n / d).log2 + 1) := by
      rw [Nat.mul_comm]; exact (Nat.div_lt_iff_lt_mul hd).1 hlt
    refine lt_of_lt_of_le this ?_
    rw [Nat.mul_left_comm, ← Nat.pow_add]
    exact Nat.mul_le_mul_left _ (Nat.pow_le_pow_right (by norm_num) (by omega))
  · by_cases h : (n / d).log2 ≤ 23
    · exact .inl (by omega)
    · right
      have hne : n / d ≠ 0 := fun e => by rw [e] at h; simp at h
      have := Nat.log2_self_le hne
      rw [Nat.mul_left_comm, ← Nat.pow_add, show 23 + ((n / d).log2 - 23) = (n / d).log2 by omega]
      exact (Nat.mul_le_mul_left d this).trans (Nat.mul_div_le n d)

/-- `roundMagnitude` overflows exactly from half a unit above the largest finite magnitude on. -/
theorem roundMagnitude_eq_infinity (n : Nat) {d : Nat} (hd : 0 < d) :
    roundMagnitude n d = infinityBits ↔ (2 ^ 25 - 1) * 2 ^ 252 * d ≤ n := by
  obtain ⟨hu1, hu2⟩ := rounding_unit n hd
  unfold roundMagnitude infinityBits
  generalize hk : (n / d).log2 - 23 = k at hu1 hu2
  have hD : 0 < d * 2 ^ k := by positivity
  obtain ⟨h1, h2, h3⟩ := roundHalfEven_nearest n hD
  simp only
  generalize roundHalfEven n (d * 2 ^ k) = q at h1 h2 h3
  have hq : q ≤ 2 ^ 24 := by
    by_contra hc
    have : (2 ^ 24 + 1) * (d * 2 ^ k) ≤ q * (d * 2 ^ k) := Nat.mul_le_mul_right _ (by omega)
    omega
  have hq2 : 0 < k → 2 ^ 23 ≤ q := by
    intro hk0
    by_contra hc
    have : q * (d * 2 ^ k) ≤ (2 ^ 23 - 1) * (d * 2 ^ k) := Nat.mul_le_mul_right _ (by omega)
    omega
  obtain ⟨e, he⟩ : ∃ e, e = 252 := ⟨_, rfl⟩
  rw [← he, Nat.mul_assoc, Nat.mul_comm (2 ^ e) d]
  rcases Nat.lt_trichotomy k (e + 1) with hlt | heq | hgt
  · have hpow : d * 2 ^ k ≤ d * 2 ^ e := Nat.mul_le_mul_left _ (Nat.pow_le_pow_right (by norm_num) (by omega))
    generalize d * 2 ^ e = y at *
    constructor <;> intro h <;> omega
  · have hpow : d * 2 ^ k = d * 2 ^ e * 2 := by rw [heq, Nat.pow_succ, Nat.mul_assoc]
    generalize d * 2 ^ e = y at *
    generalize d * 2 ^ k = D at *
    constructor
    · intro h
      obtain rfl : q = 2 ^ 24 := by omega
      omega
    · intro h
      by_cases h24 : q = 2 ^ 24
      · subst h24; omega
      · exfalso
        have hle : q * D ≤ (2 ^ 24 - 1) * D := Nat.mul_le_mul_right _ (by omega)
        have heven := h3 (by omega)
        have : q * D ≤ (2 ^ 24 - 2) * D := Nat.mul_le_mul_right _ (by omega)
        omega
  · have hpow : d * 2 ^ (e + 2) ≤ d * 2 ^ k := Nat.mul_le_mul_left _ (Nat.pow_le_pow_right (by norm_num) (by omega))
    have := hq2 (by omega)
    rw [Nat.pow_add, ← Nat.mul_assoc] at hpow
    generalize d * 2 ^ e = y at *
    generalize d * 2 ^ k = D at *
    constructor <;> intro h <;> omega

/-- Below that, `roundMagnitude` is the low 31 bits of the magnitude nearest to `n / d`: no magnitude is nearer, and where
another is as near its significand is even. Distances are multiplied by `d`. -/
theorem roundMagnitude_nearest (n : Nat) {d : Nat} (hd : 0 < d) (hfin : roundMagnitude n d ≠ infinityBits) (low : Nat) :
    |(lowMagnitude (roundMagnitude n d) * d : ℤ) - n| ≤ |(lowMagnitude low * d : ℤ) - n| ∧
    (|(lowMagnitude low * d : ℤ) - n| = |(lowMagnitude (roundMagnitude n d) * d : ℤ) - n| →
      lowMagnitude low ≠ lowMagnitude (roundMagnitude n d) → roundMagnitude n d % 2 = 0) := by
  obtain ⟨hu1, hu2⟩ := rounding_unit n hd
  have hle := roundMagnitude_le n d
  revert hfin hle
  unfold roundMagnitude
  generalize hk : (n / d).log2 - 23 = k at hu1 hu2
  simp only
  have hD : 0 < d * 2 ^ k := by positivity
  obtain ⟨h1, h2, h3⟩ := roundHalfEven_nearest n hD
  generalize roundHalfEven n (d * 2 ^ k) = q at h1 h2 h3
  intro hfin _
  have hmin : min (k * 2 ^ 23 + q) infinityBits = k * 2 ^ 23 + q := by omega
  rw [hmin]
  have hq : q ≤ 2 ^ 24 := by
    by_contra hc
    have : (2 ^ 24 + 1) * (d * 2 ^ k) ≤ q * (d * 2 ^ k) := Nat.mul_le_mul_right _ (by omega)
    omega
  have hkq : k = 0 ∨ 2 ^ 23 ≤ q := by
    rcases hu2 with h | h
    · exact .inl h
    · right
      by_contra hc
      have : q * (d * 2 ^ k) ≤ (2 ^ 23 - 1) * (d * 2 ^ k) := Nat.mul_le_mul_right _ (by omega)
      omega
  rw [lowMagnitude_scaled hq hkq]
  have hqd : ((q * 2 ^ k : ℕ) * d : ℤ) = (q * (d * 2 ^ k) : ℕ) := by push_cast; ring
  have hclose : |((q * 2 ^ k : ℕ) * d : ℤ) - n| * 2 ≤ (d * 2 ^ k : ℕ) := by
    rw [hqd]
    generalize q * (d * 2 ^ k) = P at *
    generalize d * 2 ^ k = D at *
    rcases abs_cases ((P : ℤ) - n) with ⟨h, _⟩ | ⟨h, _⟩ <;> rw [h] <;> omega
  rcases lowMagnitude_cases low k with ⟨j, hj⟩ | hj
  · rw [hj]
    have hjd : ((j * 2 ^ k : ℕ) * d : ℤ) = (j * (d * 2 ^ k) : ℕ) := by push_cast; ring
    by_cases hjq : j = q
    · subst hjq
      exact ⟨le_refl _, fun _ h => absurd rfl h⟩
    · have hfar : ((d * 2 ^ k : ℕ) : ℤ) ≤ |(j * (d * 2 ^ k) : ℕ) - ((q * (d * 2 ^ k) : ℕ) : ℤ)| := by
        rcases Nat.lt_or_gt_of_ne hjq with hlt | hgt
        · have : (j + 1) * (d * 2 ^ k) ≤ q * (d * 2 ^ k) := Nat.mul_le_mul_right _ hlt
          rw [Nat.add_mul] at this
          rw [abs_sub_comm]
          exact le_trans (by omega) (le_abs_self _)
        · have : (q + 1) * (d * 2 ^ k) ≤ j * (d * 2 ^ k) := Nat.mul_le_mul_right _ hgt
          rw [Nat.add_mul] at this
          exact le_trans (by omega) (le_abs_self _)
      rw [hqd, hjd]
      rw [hqd] at hclose
      generalize q * (d * 2 ^ k) = P at *
      generalize j * (d * 2 ^ k) = J at *
      generalize d * 2 ^ k = D at *
      have htri : |(J : ℤ) - P| ≤ |(J : ℤ) - n| + |(P : ℤ) - n| := by
        have := abs_sub_le (J : ℤ) n P
        rwa [abs_sub_comm (n : ℤ) P] at this
      refine ⟨by omega, fun heq _ => ?_⟩
      have h2n : |(P : ℤ) - n| * 2 = D := by omega
      have := h3 (by
        rcases abs_cases ((P : ℤ) - n) with ⟨h, _⟩ | ⟨h, _⟩ <;> rw [h] at h2n
        · left; omega
        · right; omega)
      omega
  · have hk0 : 2 ^ 23 * (d * 2 ^ k) ≤ n := hu2.resolve_left (by omega)
    have hq0 : 2 ^ 23 ≤ q := hkq.resolve_left (by omega)
    have hlow : lowMagnitude low * d < 2 ^ 23 * (d * 2 ^ k) := by
      have := Nat.mul_lt_mul_of_pos_right hj.2 hd
      rwa [Nat.mul_assoc, Nat.mul_comm (2 ^ k) d] at this
    have hstep : q = 2 ^ 23 ∨ (2 ^ 23 + 1) * (d * 2 ^ k) ≤ q * (d * 2 ^ k) := by
      rcases Nat.eq_or_lt_of_le hq0 with h | h
      · exact .inl h.symm
      · exact .inr (Nat.mul_le_mul_right _ h)
    rw [hqd] at hclose ⊢
    have hcast : (lowMagnitude low * d : ℤ) = (lowMagnitude low * d : ℕ) := by push_cast; ring
    rw [hcast]
    have hP : q = 2 ^ 23 → q * (d * 2 ^ k) = 2 ^ 23 * (d * 2 ^ k) := fun h => by rw [h]
    generalize lowMagnitude low * d = M at *
    generalize q * (d * 2 ^ k) = P at *
    generalize d * 2 ^ k = D at *
    rcases abs_cases ((P : ℤ) - n) with ⟨h, _⟩ | ⟨h, _⟩ <;> rw [h] at hclose ⊢ <;>
      rw [abs_of_neg (a := (M : ℤ) - n) (by omega)] <;> exact ⟨by omega, fun h' _ => by omega⟩

/-! ### Data as rational numbers -/

/-- A sign as a number. -/
abbrev signOf (neg : Bool) : ℤ := if neg then -1 else 1

theorem F32.rat_eq (f : F32) : f.rat = signOf f.negative * (f.magnitude : ℚ) / 2 ^ 149 := by
  have hs : ((signOf f.negative : ℤ) : ℚ) = if f.negative then -1 else 1 := by cases f.negative <;> simp [signOf]
  rw [F32.rat, F32.magnitude, hs, mul_div_assoc]
  congr 1
  split
  · next h => rw [zpow_neg]; rfl
  · next h =>
    have he : ((f.exponent : ℤ) - 150) = ((f.exponent - 1 : ℕ) : ℤ) - 149 := by omega
    rw [he, zpow_sub₀ (by norm_num), zpow_natCast]
    push_cast
    rw [mul_div_assoc]
    rfl

theorem F32.value_finite {f : F32} (h : f.isFinite = true) : f.value = .finite f.negative f.magnitude := by
  have he : f.exponent ≠ 255 := by simpa [F32.isFinite] using h
  simp [F32.value, F32.isNaN, he]

theorem F32.value_infinite {f : F32} (h : f.isInfinite = true) : f.value = .infinite f.negative := by
  have he : f.exponent = 255 ∧ f.fraction = 0 := by simpa [F32.isInfinite] using h
  simp [F32.value, F32.isNaN, he]

theorem F32.value_nan {f : F32} (h : f.isNaN = true) : f.value = .nan := by
  simp [F32.value, h]

/-- Every datum is one of the three. -/
theorem F32.isFinite_or (f : F32) : f.isFinite = true ∨ f.isInfinite = true ∨ f.isNaN = true := by
  simp only [F32.isFinite, F32.isInfinite, F32.isNaN, bne_iff_ne, Bool.and_eq_true, beq_iff_eq]
  tauto

theorem F32.inf_isInfinite (neg : Bool) : (F32.inf neg).isInfinite = true ∧ (F32.inf neg).negative = neg := by
  cases neg <;> decide

/-- A datum as a number, counted in parts of `2^-149 / d`. -/
theorem F32.rat_scaled (f : F32) {d : Nat} (hd : 0 < d) :
    f.rat * (d * 2 ^ 149) = ((signOf f.negative * (f.magnitude * d : ℕ) : ℤ) : ℚ) := by
  rw [F32.rat_eq]
  push_cast
  field_simp

theorem signOf_abs (neg : Bool) (z : ℤ) : |signOf neg * z| = |z| := by cases neg <;> simp [signOf]

/-- What rounding answers: the datum of the given sign that `n / d` units of 2^-149 round to. -/
theorem F32.round_roundsTo (neg : Bool) (n : Nat) {d : Nat} (hd : 0 < d) :
    RoundsTo (signOf neg * ((n : ℚ) / d) / 2 ^ 149) (F32.round neg n d) := by
  have hc : (0 : ℚ) < d * 2 ^ 149 := by positivity
  generalize hx : (signOf neg * ((n : ℚ) / d) / 2 ^ 149 : ℚ) = x
  have hxc : x * (d * 2 ^ 149) = ((signOf neg * n : ℤ) : ℚ) := by
    rw [← hx]; push_cast; field_simp
  have habs : |x| * (d * 2 ^ 149) = n := by
    rw [← abs_of_pos hc, ← abs_mul, hxc, ← Int.cast_abs, signOf_abs]; simp
  have hbig : ((2 ^ 25 - 1) * 2 ^ 103 ≤ |x|) ↔ roundMagnitude n d = infinityBits := by
    rw [roundMagnitude_eq_infinity n hd, ← mul_le_mul_iff_left₀ hc, habs,
      show ((2 ^ 25 - 1) * 2 ^ 103 * (d * 2 ^ 149) : ℚ) = (((2 ^ 25 - 1) * 2 ^ 252 * d : ℕ) : ℚ) by
        push_cast; ring]
    exact Nat.cast_le
  have hlt : roundMagnitude n d < 2 ^ 31 := lt_of_le_of_lt (roundMagnitude_le n d) (by decide)
  constructor
  · intro h
    rw [F32.round, hbig.1 h]
    refine ⟨(F32.inf_isInfinite neg).1, ?_⟩
    have hpos : 0 < |x| := lt_of_lt_of_le (by norm_num) h
    have hn : (0 : ℚ) < n := by rw [← habs]; positivity
    have : x < 0 ↔ x * (d * 2 ^ 149) < 0 :=
      ⟨fun h' => mul_neg_of_neg_of_pos h' hc, fun h' => by
        by_contra h0
        exact absurd (mul_nonneg (not_lt.1 h0) hc.le) (not_le.2 h')⟩
    rw [this, hxc, show (F32.pack neg infinityBits).negative = neg from (F32.inf_isInfinite neg).2]
    cases neg <;> simp [signOf] <;> exact_mod_cast hn
  · intro h
    have hfin : roundMagnitude n d ≠ infinityBits := fun e => absurd (hbig.2 e) (not_le.2 h)
    have hlow : roundMagnitude n d < infinityBits := lt_of_le_of_ne (roundMagnitude_le n d) hfin
    have hm : (F32.round neg n d).magnitude = lowMagnitude (roundMagnitude n d) := F32.magnitude_pack neg hlt
    have hs : (F32.round neg n d).negative = neg := F32.pack_negative neg hlt
    refine ⟨?_, fun y _ => ?_⟩
    · have : (F32.round neg n d).exponent ≠ 255 := by
        rw [F32.round, F32.pack_exponent neg hlt]; unfold infinityBits at hlow; omega
      simpa [F32.isFinite] using this
    · have hzc := (F32.round neg n d).rat_scaled hd
      have hyc := y.rat_scaled hd
      rw [hm, hs] at hzc
      rw [F32.magnitude_eq] at hyc
      generalize hl : y.exponent * 2 ^ 23 + y.fraction = l at hyc
      have scale : ∀ r : ℚ, |r - x| * (d * 2 ^ 149) = |r * (d * 2 ^ 149) - x * (d * 2 ^ 149)| := fun r => by
        rw [← sub_mul, abs_mul, abs_of_pos hc]
      have hz : |(F32.round neg n d).rat - x| * (d * 2 ^ 149) =
          ((|(lowMagnitude (roundMagnitude n d) * d : ℤ) - n| : ℤ) : ℚ) := by
        rw [scale, hzc, hxc, ← Int.cast_sub, ← Int.cast_abs, ← mul_sub, signOf_abs]; push_cast; ring_nf
      have hfrac : (F32.round neg n d).fraction % 2 = roundMagnitude n d % 2 := by
        rw [F32.round, F32.pack_fraction neg hlt]; omega
      rw [hfrac]
      by_cases hsy : y.negative = neg
      · have hy : |y.rat - x| * (d * 2 ^ 149) = ((|(lowMagnitude l * d : ℤ) - n| : ℤ) : ℚ) := by
          rw [scale, hyc, hxc, hsy, ← Int.cast_sub, ← Int.cast_abs, ← mul_sub, signOf_abs]; push_cast; ring_nf
        obtain ⟨h1, h2⟩ := roundMagnitude_nearest n hd hfin l
        constructor
        · rw [← mul_le_mul_iff_left₀ hc, hz, hy]; exact_mod_cast h1
        · intro heq hne
          refine h2 ?_ fun e => hne ?_
          · have : |y.rat - x| * (d * 2 ^ 149) = |(F32.round neg n d).rat - x| * (d * 2 ^ 149) := by rw [heq]
            rw [hz, hy] at this
            exact_mod_cast this
          · exact mul_right_cancel₀ hc.ne' (hyc.trans (by rw [hsy, e, ← hzc]))
      · have hopp : signOf y.negative = -signOf neg := by
          revert hsy; cases neg <;> cases y.negative <;> simp [signOf]
        have hy : |y.rat - x| * (d * 2 ^ 149) = ((lowMagnitude l * d + n : ℤ) : ℚ) := by
          rw [scale, hyc, hxc, hopp, ← Int.cast_sub, ← Int.cast_abs,
            show (-signOf neg * ((lowMagnitude l * d : ℕ) : ℤ) - signOf neg * n) =
              signOf neg * (-(((lowMagnitude l * d : ℕ) : ℤ) + n)) by ring, signOf_abs, abs_neg,
            abs_of_nonneg (by positivity)]
          push_cast; ring
        obtain ⟨h1, h2⟩ := roundMagnitude_nearest n hd hfin 0
        rw [show lowMagnitude 0 = 0 from rfl] at h1 h2
        have h0 : |((0 : ℕ) * d : ℤ) - n| = n := by simp
        rw [h0] at h1 h2
        have hMd : (0 : ℤ) ≤ lowMagnitude l * d := by positivity
        constructor
        · have : |(lowMagnitude (roundMagnitude n d) * d : ℤ) - n| ≤ lowMagnitude l * d + n := by linarith
          rw [← mul_le_mul_iff_left₀ hc, hz, hy]
          exact Int.cast_le.2 this
        · intro heq hne
          have : |y.rat - x| * (d * 2 ^ 149) = |(F32.round neg n d).rat - x| * (d * 2 ^ 149) := by rw [heq]
          rw [hz, hy] at this
          have hint : (lowMagnitude l * d + n : ℤ) = |(lowMagnitude (roundMagnitude n d) * d : ℤ) - n| := by
            exact Int.cast_injective this
          have hl0 : (lowMagnitude l * d : ℤ) = 0 := by linarith
          refine h2 (by linarith) fun e => hne ?_
          refine mul_right_cancel₀ hc.ne' (hyc.trans ?_)
          rw [hzc, ← e, show ((lowMagnitude l * d : ℕ) : ℤ) = 0 by exact_mod_cast hl0]
          simp

end Sys2Proof.Machine
end

