-- ==== Sys2Proof/Laws/View.lean ====
section
/-! SUPPORT. Views: what each update of a state looks like, the little-endian sums of the claims, and what a Step can do. -/

namespace Sys2Proof.Machine

/-! ### Views of updates -/

theorem State.view_setReg (s : State) (q : Reg) (v : Word) : (s.setReg q v).view = withReg s q v := by
  unfold State.view withReg
  ext <;> simp [State.setReg, Function.update_apply, State.reg, State.byte, State.view]

theorem State.view_takeFault (s : State) (f : FaultRecord) : (s.takeFault f).view = faulted s f := rfl

theorem State.view_setPc (s : State) (t : Word) : (s.setPc t).view = { s.view with pc := t } := rfl

theorem State.view_setFlags (s : State) (c : Flag) : (s.setFlags c).view = { s.view with flags := c } := rfl

theorem State.view_setHalted (s : State) : s.setHalted.view = { s.view with halted := true } := rfl

/-- A little-endian store is `storedAt`. -/
theorem State.view_writeLE (s : State) (a : Nat) (v : Word) (n : Nat) :
    (s.setMem (Memory.writeLE s.mem a v n)).view = { s.view with byte := storedAt s.byte a n v } := by
  ext <;> simp [State.view, State.setMem]
  · rfl
  · simp only [State.byte, Memory.read_writeLE, storedAt]
    split <;> rfl

/-- Only the low `n` bytes of a word matter to what `storedAt` stores. -/
theorem storedAt_congr (old : Nat → Byte) (a n : Nat) {v w : Word}
    (h : ∀ k < n, v.extractLsb' (8 * k) 8 = w.extractLsb' (8 * k) 8) : storedAt old a n v = storedAt old a n w := by
  funext b
  unfold storedAt
  split
  · exact h _ (by omega)
  · rfl

/-! ### Little-endian sums -/

theorem littleEndian_eq (s : State) (a n : Nat) : littleEndian s.byte a n = Memory.readLE s.mem a n := by
  induction n generalizing a with
  | zero => rfl
  | succ n ih =>
    rw [Memory.readLE, ← ih, littleEndian, Finset.sum_range_succ']
    simp only [littleEndian, State.byte, pow_succ, Finset.mul_sum, pow_zero, one_mul, add_zero]
    rw [Nat.add_comm]
    congr 1
    refine Finset.sum_congr rfl fun k _ => ?_
    rw [show a + (k + 1) = a + 1 + k by omega]; ring

/-- The word of a number of bytes, from the sum the accesses compute. -/
theorem eq_wordAt {s : State} {a v : Word} {n : Nat} (h : v.toNat = Memory.readLE s.mem a.toNat n) :
    v = wordAt s a n := by
  rw [wordAt, littleEndian_eq, ← h]; simp

/-! ### Decoding by the opcode byte -/

theorem decodeWord_of_opcode {w : Word} {b : Byte} {k : Mnemonic} (hk : opc k = b) (h : opcodeField w = b) :
    decodeWord w = .ok (instrOf k (regField w) (modeField w) (immField w)) := by
  subst hk
  unfold decodeWord decodeWith
  rw [h, mnemonicOf_self opc_injective]

/-! ### What a Step can do -/

/-- Every case of a Step: nothing while stopped, a fetch fault, an unassigned opcode, or an instruction in the post-fetch
state. -/
theorem step_cases (s : State) :
    (s.running = false ∧ step s = .next s) ∨
    (s.running = true ∧ Config.memSize < s.pc.toNat + 4 ∧ step s = .next (s.takeFault (.memoryFault s.pc))) ∨
    (s.running = true ∧ s.pc.toNat + 4 ≤ Config.memSize ∧ ∃ w, s.fetch = .ok w ∧
      (((∀ k, opc k ≠ opcodeField w) ∧
          step s = .next (s.advancePc.takeFault (.illegalInstruction (opcodeField w)))) ∨
        ∃ i, decodeWord w = .ok i ∧ step s = exec i s.advancePc)) := by
  unfold step
  cases hr : s.running with
  | false => exact .inl ⟨rfl, rfl⟩
  | true =>
    right
    rcases s.memRead_eq s.pc .four with ⟨w, hw, _, hb⟩ | ⟨he, hb⟩
    · right
      refine ⟨rfl, hb, w, hw, ?_⟩
      have hf : s.fetch = .ok w := hw
      rw [hf]
      cases hk : mnemonicOf opc (opcodeField w) with
      | none =>
        have hd : decodeWord w = .error (.unassignedOpcode (opcodeField w)) := by
          unfold decodeWord decodeWith; rw [hk]
        exact .inl ⟨mnemonicOf_none_iff.1 hk, by simp only [hd]; rfl⟩
      | some k =>
        have hd := decodeWord_of_opcode (w := w) (mnemonicOf_some hk) rfl
        exact .inr ⟨_, hd, by simp only [hd]; rfl⟩
    · left
      refine ⟨rfl, hb, ?_⟩
      have hf : s.fetch = .error (.memoryFault s.pc) := he
      simp only [hf]; rfl

end Sys2Proof.Machine
end

