-- ==== Sys2Proof/Tests/Slice0.lean ====
section
/-! SUPPORT. Tests of the model: ill-formed terms the checks refuse, words written out from the encoding of 30_encoding.md
R100 and R120, single Steps whose results are taken from 95_test_vectors.md (the vector is named in each docstring), and a
witness for the hypotheses of each obligation that has some. -/

namespace Sys2Proof.Tests

open Sys2Proof Sys2Proof.Machine

/-! ### Ill-formed terms, one for each check -/

theorem test_ill_formed_reg_field : Instr.wellFormed (.inc 8) = false ∧ Instr.wellFormed (.inc 7) = true := by decide

theorem test_ill_formed_mode :
    Instr.wellFormed (.jmp ⟨12, 0⟩) = false ∧ Instr.wellFormed (.jmp ⟨11, 0⟩) = true := by decide

theorem test_ill_formed_mode_two_register :
    Instr.wellFormed (.mov 0 ⟨2, 0x001F⟩) = false ∧ Instr.wellFormed (.mov 0 ⟨2, 0x0017⟩) = true := by decide

theorem test_ill_formed_raw_destination :
    Instr.wellFormed (.itof 0 0x0017) = false ∧ Instr.wellFormed (.ftoi 0 0xFFFF) = false ∧
    Instr.wellFormed (.itof 0 7) = true := by decide

/-! ### Decoding: words written out as `imm16 mode reg opcode` (30_encoding.md R100) with the opcodes of R120

The fields an instruction ignores are filled, so that each word also shows that they are ignored (30_encoding.md R122). -/

/-- A word from its four fields, written as in the encoding diagram of 30_encoding.md R100. -/
def word (imm16 : BitVec 16) (mode reg : BitVec 4) (opcode : BitVec 8) : Word := imm16 ++ mode ++ reg ++ opcode

theorem test_decode_data_movement :
    decodeWord (word 0b1000000100000001 0b1000 0b0100 0b00000001) = .ok (.mov 4 ⟨8, 0x8101⟩) ∧
    decodeWord (word 0b1000001000000010 0b1101 0b0111 0b00000010) = .ok (.movhi 7 ⟨13, 0x8202⟩) ∧
    decodeWord (word 0b1000001100000011 0b0010 0b1010 0b00000011) = .ok (.movlo 10 ⟨2, 0x8303⟩) ∧
    decodeWord (word 0b1000010000000100 0b0111 0b1101 0b00000100) = .ok (.ld 13 ⟨7, 0x8404⟩) ∧
    decodeWord (word 0b1000010100000101 0b1100 0b0000 0b00000101) = .ok (.ldhi 0 ⟨12, 0x8505⟩) ∧
    decodeWord (word 0b1000011000000110 0b0001 0b0011 0b00000110) = .ok (.ldlo 3 ⟨1, 0x8606⟩) ∧
    decodeWord (word 0b1000011100000111 0b0110 0b0110 0b00000111) = .ok (.st 6 ⟨6, 0x8707⟩) ∧
    decodeWord (word 0b1000100000001000 0b1011 0b1001 0b00001000) = .ok (.sthi 9 ⟨11, 0x8808⟩) ∧
    decodeWord (word 0b1000100100001001 0b0000 0b1100 0b00001001) = .ok (.stlo 12 ⟨0, 0x8909⟩) ∧
    decodeWord (word 0b1000101000001010 0b0101 0b1111 0b00001010) = .ok (.push 15) ∧
    decodeWord (word 0b1000101100001011 0b1010 0b0010 0b00001011) = .ok (.pop 2) ∧
    decodeWord (word 0b1000110000001100 0b1111 0b0101 0b00001100) = .ok (.xchg 5) := by decide

theorem test_decode_integer :
    decodeWord (word 0b1001000000010000 0b0011 0b0001 0b00010000) = .ok (.add 1 ⟨3, 0x9010⟩) ∧
    decodeWord (word 0b1001000100010001 0b1000 0b0100 0b00010001) = .ok (.sub 4 ⟨8, 0x9111⟩) ∧
    decodeWord (word 0b1001001000010010 0b1101 0b0111 0b00010010) = .ok (.mul 7 ⟨13, 0x9212⟩) ∧
    decodeWord (word 0b1001001100010011 0b0010 0b1010 0b00010011) = .ok (.div 10 ⟨2, 0x9313⟩) ∧
    decodeWord (word 0b1001010000010100 0b0111 0b1101 0b00010100) = .ok (.mod 13 ⟨7, 0x9414⟩) ∧
    decodeWord (word 0b1001010100010101 0b1100 0b0000 0b00010101) = .ok (.inc 0) ∧
    decodeWord (word 0b1001011000010110 0b0001 0b0011 0b00010110) = .ok (.dec 3) ∧
    decodeWord (word 0b1001011100010111 0b0110 0b0110 0b00010111) = .ok (.neg 6) := by decide

theorem test_decode_float :
    decodeWord (word 0b1010000000100000 0b0011 0b0001 0b00100000) = .ok (.fadd 1 ⟨3, 0xA020⟩) ∧
    decodeWord (word 0b1010000100100001 0b1000 0b0100 0b00100001) = .ok (.fsub 4 ⟨8, 0xA121⟩) ∧
    decodeWord (word 0b1010001000100010 0b1101 0b0111 0b00100010) = .ok (.fmul 7 ⟨13, 0xA222⟩) ∧
    decodeWord (word 0b1010001100100011 0b0010 0b1010 0b00100011) = .ok (.fdiv 10 ⟨2, 0xA323⟩) ∧
    decodeWord (word 0b1010010000100100 0b0111 0b1101 0b00100100) = .ok (.fmovhi 13 ⟨7, 0xA424⟩) ∧
    decodeWord (word 0b1010010100100101 0b1100 0b0000 0b00100101) = .ok (.fmovlo 0 ⟨12, 0xA525⟩) ∧
    decodeWord (word 0b1010011000100110 0b0001 0b0011 0b00100110) = .ok (.itof 3 0xA626) ∧
    decodeWord (word 0b1010011100100111 0b0110 0b0110 0b00100111) = .ok (.ftoi 6 0xA727) := by decide

theorem test_decode_bitwise :
    decodeWord (word 0b1011000000110000 0b0011 0b0001 0b00110000) = .ok (.and 1 ⟨3, 0xB030⟩) ∧
    decodeWord (word 0b1011000100110001 0b1000 0b0100 0b00110001) = .ok (.or 4 ⟨8, 0xB131⟩) ∧
    decodeWord (word 0b1011001000110010 0b1101 0b0111 0b00110010) = .ok (.xor 7 ⟨13, 0xB232⟩) ∧
    decodeWord (word 0b1011001100110011 0b0010 0b1010 0b00110011) = .ok (.not 10) ∧
    decodeWord (word 0b1011010000110100 0b0111 0b1101 0b00110100) = .ok (.shl 13 ⟨7, 0xB434⟩) ∧
    decodeWord (word 0b1011010100110101 0b1100 0b0000 0b00110101) = .ok (.shr 0 ⟨12, 0xB535⟩) ∧
    decodeWord (word 0b1011011000110110 0b0001 0b0011 0b00110110) = .ok (.rol 3 ⟨1, 0xB636⟩) ∧
    decodeWord (word 0b1011011100110111 0b0110 0b0110 0b00110111) = .ok (.ror 6 ⟨6, 0xB737⟩) ∧
    decodeWord (word 0b1011100000111000 0b1011 0b1001 0b00111000) = .ok (.test 9 ⟨11, 0xB838⟩) := by decide

theorem test_decode_compare_and_jump :
    decodeWord (word 0b1100000001000000 0b0011 0b0001 0b01000000) = .ok (.cmp 1 ⟨3, 0xC040⟩) ∧
    decodeWord (word 0b1100000101000001 0b1000 0b0100 0b01000001) = .ok (.jeq ⟨8, 0xC141⟩) ∧
    decodeWord (word 0b1100001001000010 0b1101 0b0111 0b01000010) = .ok (.jne ⟨13, 0xC242⟩) ∧
    decodeWord (word 0b1100001101000011 0b0010 0b1010 0b01000011) = .ok (.jgt ⟨2, 0xC343⟩) ∧
    decodeWord (word 0b1100010001000100 0b0111 0b1101 0b01000100) = .ok (.jlt ⟨7, 0xC444⟩) ∧
    decodeWord (word 0b1100010101000101 0b1100 0b0000 0b01000101) = .ok (.jge ⟨12, 0xC545⟩) ∧
    decodeWord (word 0b1100011001000110 0b0001 0b0011 0b01000110) = .ok (.jle ⟨1, 0xC646⟩) ∧
    decodeWord (word 0b1100011101000111 0b0110 0b0110 0b01000111) = .ok (.jmp ⟨6, 0xC747⟩) ∧
    decodeWord (word 0b1100100001001000 0b1011 0b1001 0b01001000) = .ok (.jmprel ⟨11, 0xC848⟩) ∧
    decodeWord (word 0b1100100101001001 0b0000 0b1100 0b01001001) = .ok (.jmpx 0xC949) := by decide

theorem test_decode_call_frame_halt :
    decodeWord (word 0b1100101001001010 0b0101 0b1111 0b01001010) = .ok (.call ⟨5, 0xCA4A⟩) ∧
    decodeWord (word 0b1100101101001011 0b1010 0b0010 0b01001011) = .ok (.ret) ∧
    decodeWord (word 0b1101000001010000 0b0011 0b0001 0b01010000) = .ok (.enter ⟨3, 0xD050⟩) ∧
    decodeWord (word 0b1101000101010001 0b1000 0b0100 0b01010001) = .ok (.leave) ∧
    decodeWord (word 0b1110000001100000 0b0011 0b0001 0b01100000) = .ok (.hlt) := by decide

theorem test_decode_refuses_gaps :
    decodeWord 0x00000000#32 = .error (.unassignedOpcode 0x00) ∧ decodeWord 0x0000000D#32 = .error (.unassignedOpcode 0x0D) ∧
    decodeWord 0xFFFFFFFF#32 = .error (.unassignedOpcode 0xFF) := by decide

theorem test_decode_needs_four_bytes : decodeBytes [0x60, 0, 0] = .error .tooFewBytes := by decide

/-- The byte order of the table words and of memory: `MOV r0,5` is the bytes 01 00 05 00 (95_test_vectors.md, head). -/
theorem test_table_word_and_bytes :
    decodeTableWord 32 0x00050001 = some (.mov 0 ⟨0, 5⟩) ∧ decodeBytes [0x01, 0x00, 0x05, 0x00] = .ok (.mov 0 ⟨0, 5⟩, []) ∧
    encodeBytes (.mov 0 ⟨0, 5⟩) = [0x01, 0x00, 0x05, 0x00] := by decide

/-! ### Single Steps -/

/-- The Reset state with some registers, bytes from an address on, flags and pc set, and a word at the pc. -/
def start (w : Word) (regs : List (Reg × Word) := []) (bytes : Nat × List Byte := (0, [])) (flags : Flag := .less)
    (pc : Word := 0) : State :=
  let s := regs.foldl (fun t r => t.setReg r.1 r.2) State.reset
  { s with flags, pc, mem := Memory.writeLE (Memory.copyIn [] bytes.1 bytes.2) pc.toNat w 4 }

/-- The state after one Step. -/
def after (s : State) : Option State :=
  match step s with
  | .next t => some t
  | _ => none

/-- A register after one Step, with the pc and the fault latch. -/
def sees (q : Reg) (s : State) : Option (Word × Word × Option FaultRecord) :=
  (after s).map fun t => (t.reg q, t.pc, t.fault)

/-- Four bytes of memory after one Step, with ESP and the pc. -/
def stores (a : Nat) (s : State) : Option (List Byte × Word × Word) :=
  (after s).map fun t => ([t.byte a, t.byte (a + 1), t.byte (a + 2), t.byte (a + 3)], t.reg .esp, t.pc)
theorem test_first_step_after_reset_runs_the_fetch_word :
    after (State.reset.withFetchWord 32 0x00000060) =
      some { State.reset with mem := [(0, 0x60)], pc := 4, halted := true } := by decide

/-- M2 -/
theorem test_mov_immediate :
    sees .edx (start 0xFFFF0301) = some (0xFFFFFFFF, 0x0004, none) := by decide

/-- M4 -/
theorem test_mov_register :
    sees .eax (start 0x00012001 [(.ebx, 0xDEADBEEF)]) = some (0xDEADBEEF, 0x0004, none) := by decide

/-- M17 -/
theorem test_movhi_register :
    sees .eax (start 0x00012002 [(.eax, 0x0000BBBB), (.ebx, 0xCAFE1234)]) = some (0x1234BBBB, 0x0004, none) := by decide

/-- M16 -/
theorem test_movlo_negative :
    sees .eax (start 0xFFFF0003 [(.eax, 0x12340000)]) = some (0x1234FFFF, 0x0004, none) := by decide

/-- M18 -/
theorem test_ld_zero_extends :
    sees .ebx (start 0x01000104 [(.ebx, 0xFFFFFFFF)] (bytes := (0x0100, [0x80, 0x12]))) = some (0x00000080, 0x0004, none) := by decide

/-- M20 -/
theorem test_ld_past_memory :
    sees .ebx (start 0x00022104 [(.ecx, 0x00010000)]) = some (0x00000000, 0x0004, some (.memoryFault 0x00010000)) := by decide

/-- M23 -/
theorem test_ldhi_keeps_low :
    sees .ebx (start 0x01000105 [(.ebx, 0xAAAABBBB)] (bytes := (0x0100, [0x34, 0x12]))) = some (0x1234BBBB, 0x0004, none) := by decide

/-- M22 -/
theorem test_ldlo_keeps_high :
    sees .ebx (start 0x01000106 [(.ebx, 0xAAAABBBB)] (bytes := (0x0100, [0x34, 0x12]))) = some (0xAAAA1234, 0x0004, none) := by decide

/-- M25 -/
theorem test_ldlo_last_bytes :
    sees .ebx (start 0x00022106 [(.ecx, 0x0000FFFE)] (bytes := (0xFFFE, [0xCD, 0xAB]))) = some (0x0000ABCD, 0x0004, none) := by decide

/-- M31 -/
theorem test_st_one_byte :
    stores 0xFFF3 (start 0x0004A007 [(.eax, 0x00001234), (.ebp, 0x0000FFF7)]) = some ([0x34, 0x00, 0x00, 0x00], 0x0000FFFF, 0x0004) := by decide

/-- M32 -/
theorem test_st_over_its_own_opcode :
    stores 0x0000 (start 0x00000007 [(.eax, 0x000000AB)]) = some ([0xAB, 0x00, 0x00, 0x00], 0x0000FFFF, 0x0004) := by decide

/-- M29 -/
theorem test_sthi_two_bytes :
    stores 0x4000 (start 0x40000008 [(.eax, 0x11223344)]) = some ([0x22, 0x11, 0x00, 0x00], 0x0000FFFF, 0x0004) := by decide

/-- M28 -/
theorem test_stlo_two_bytes :
    stores 0x4000 (start 0x40000009 [(.eax, 0x11223344)]) = some ([0x44, 0x33, 0x00, 0x00], 0x0000FFFF, 0x0004) := by decide

/-- M30 -/
theorem test_stlo_writes_nothing_past_memory :
    stores 0xFFFE (start 0x00012009 [(.eax, 0x11223344), (.ebx, 0x0000FFFF)]) = some ([0x00, 0x00, 0x00, 0x00], 0x0000FFFF, 0x0004) := by decide

/-- A4 -/
theorem test_add_negative_immediate :
    sees .eax (start 0xFFFF0010) = some (0xFFFFFFFF, 0x0004, none) := by decide

/-- A5 -/
theorem test_add_to_itself :
    sees .eax (start 0x00002010 [(.eax, 0x40000001)]) = some (0x80000002, 0x0004, none) := by decide

/-- A6 -/
theorem test_sub_order :
    sees .eax (start 0x00012011 [(.eax, 0x00000003), (.ebx, 0x00000005)]) = some (0xFFFFFFFE, 0x0004, none) := by decide

/-- A7 -/
theorem test_sub_wraps :
    sees .eax (start 0x00010011 [(.eax, 0x80000000)]) = some (0x7FFFFFFF, 0x0004, none) := by decide

/-- A10 -/
theorem test_mul_low_bits :
    sees .eax (start 0x00012012 [(.eax, 0x12345678), (.ebx, 0x9ABCDEF0)]) = some (0x242D2080, 0x0004, none) := by decide

/-- A12 -/
theorem test_div_truncates :
    sees .eax (start 0x00012013 [(.eax, 0xFFFFFFF9), (.ebx, 0x00000002)]) = some (0xFFFFFFFD, 0x0004, none) := by decide

/-- A15 -/
theorem test_div_overflow :
    sees .eax (start 0x00012013 [(.eax, 0x80000000), (.ebx, 0xFFFFFFFF)]) = some (0x80000000, 0x0004, none) := by decide

/-- A20 -/
theorem test_mod_sign_of_dividend :
    sees .eax (start 0x00012014 [(.eax, 0x00000007), (.ebx, 0xFFFFFFFE)]) = some (0x00000001, 0x0004, none) := by decide

/-- A23 -/
theorem test_mod_by_zero :
    sees .eax (start 0x00000014 [(.eax, 0x00000007)]) = some (0x00000007, 0x0004, some (.arithmeticFault)) := by decide

/-- A25 -/
theorem test_inc_wraps :
    sees .eax (start 0x00000015 [(.eax, 0xFFFFFFFF)]) = some (0x00000000, 0x0004, none) := by decide

/-- A27 -/
theorem test_inc_illegal_register :
    sees .eax (start 0x00000815) = some (0x00000000, 0x0004, some (.illegalRegister 8)) := by decide

/-- A28 -/
theorem test_dec_wraps :
    sees .eax (start 0x00000016) = some (0xFFFFFFFF, 0x0004, none) := by decide

/-- A29 -/
theorem test_neg :
    sees .eax (start 0x00000017 [(.eax, 0x00000005)]) = some (0xFFFFFFFB, 0x0004, none) := by decide

/-- A30 -/
theorem test_neg_most_negative :
    sees .eax (start 0x00000017 [(.eax, 0x80000000)]) = some (0x80000000, 0x0004, none) := by decide

/-- F2 -/
theorem test_fadd_rounds :
    sees .eax (start 0x00012020 [(.eax, 0x3DCCCCCD), (.ebx, 0x3E4CCCCD)]) = some (0x3E99999A, 0x0004, none) := by decide

/-- F5 -/
theorem test_fadd_tie_to_even :
    sees .eax (start 0x00012020 [(.eax, 0x4B800000), (.ebx, 0x3F800000)]) = some (0x4B800000, 0x0004, none) := by decide

/-- F7 -/
theorem test_fsub_order :
    sees .eax (start 0x00012021 [(.eax, 0x3FC00000), (.ebx, 0x40200000)]) = some (0xBF800000, 0x0004, none) := by decide

/-- F8 -/
theorem test_fsub_exact_zero :
    sees .eax (start 0x00002021 [(.eax, 0x40500000)]) = some (0x00000000, 0x0004, none) := by decide

/-- F9 -/
theorem test_fmul :
    sees .eax (start 0x00012022 [(.eax, 0x3FC00000), (.ebx, 0x40200000)]) = some (0x40700000, 0x0004, none) := by decide

/-- F10 -/
theorem test_fmul_subnormal_tie :
    sees .eax (start 0x00012022 [(.eax, 0x00000001), (.ebx, 0x3F000000)]) = some (0x00000000, 0x0004, none) := by decide

/-- F12 -/
theorem test_fdiv_rounds :
    sees .eax (start 0x00012023 [(.eax, 0x3F800000), (.ebx, 0x40400000)]) = some (0x3EAAAAAB, 0x0004, none) := by decide

/-- F15 -/
theorem test_fdiv_by_negative_zero :
    sees .eax (start 0x00012023 [(.eax, 0x3F800000), (.ebx, 0x80000000)]) = some (0xFF800000, 0x0004, none) := by decide

/-- F18 -/
theorem test_fmovhi :
    sees .eax (start 0x3FC00024 [(.eax, 0x0000FFFF)]) = some (0x3FC0FFFF, 0x0004, none) := by decide

/-- F19 -/
theorem test_fmovlo :
    sees .eax (start 0x00000025 [(.eax, 0x3FC0FFFF)]) = some (0x3FC00000, 0x0004, none) := by decide

/-- F24 -/
theorem test_itof_rounds :
    sees .ebx (start 0x00010026 [(.eax, 0x01000003)]) = some (0x4B800002, 0x0004, none) := by decide

/-- F32 -/
theorem test_itof_negative_raw_destination :
    sees .ebx (start 0xFFFF0126) = some (0x00000000, 0x0004, some (.illegalRegister (-1))) := by decide

/-- F35 -/
theorem test_ftoi_truncates :
    sees .ebx (start 0x00010027 [(.eax, 0xBFF33333)]) = some (0xFFFFFFFF, 0x0004, none) := by decide

/-- F39 -/
theorem test_ftoi_largest :
    sees .ebx (start 0x00010027 [(.eax, 0x4EFFFFFF)]) = some (0x7FFFFF80, 0x0004, none) := by decide

/-- B2 -/
theorem test_and_negative_immediate :
    sees .eax (start 0xFF000030 [(.eax, 0x12345678)]) = some (0x12345600, 0x0004, none) := by decide

/-- B3 -/
theorem test_or :
    sees .eax (start 0x00012031 [(.eax, 0xF0F0F0F0), (.ebx, 0x0FF00FF0)]) = some (0xFFF0FFF0, 0x0004, none) := by decide

/-- B4 -/
theorem test_xor :
    sees .eax (start 0x00012032 [(.eax, 0xF0F0F0F0), (.ebx, 0x0FF00FF0)]) = some (0xFF00FF00, 0x0004, none) := by decide

/-- B6 -/
theorem test_not :
    sees .eax (start 0x00000033 [(.eax, 0x12345678)]) = some (0xEDCBA987, 0x0004, none) := by decide

/-- B7, n = 33 -/
theorem test_shl_by_33 :
    sees .eax (start 0x00210034 [(.eax, 0x80000001)]) = some (0x00000002, 0x0004, none) := by decide

/-- B13 -/
theorem test_shl_by_register :
    sees .eax (start 0x00012034 [(.eax, 0x00000001), (.ebx, 0x00000104)]) = some (0x00000010, 0x0004, none) := by decide

/-- B8, n = -1 -/
theorem test_shr_is_logical :
    sees .eax (start 0xFFFF0035 [(.eax, 0x80000001)]) = some (0x00000001, 0x0004, none) := by decide

/-- B8, n = 32 -/
theorem test_shr_by_32 :
    sees .eax (start 0x00200035 [(.eax, 0x80000001)]) = some (0x80000001, 0x0004, none) := by decide

/-- B10 -/
theorem test_rol :
    sees .eax (start 0x00080036 [(.eax, 0x12345678)]) = some (0x34567812, 0x0004, none) := by decide

/-- B9, n = 32 -/
theorem test_rol_by_32 :
    sees .eax (start 0x00200036 [(.eax, 0x80000001)]) = some (0x80000001, 0x0004, none) := by decide

/-- B12 -/
theorem test_ror :
    sees .eax (start 0x00080037 [(.eax, 0x12345678)]) = some (0x78123456, 0x0004, none) := by decide

/-- B11, n = -1 -/
theorem test_ror_by_31 :
    sees .eax (start 0xFFFF0037 [(.eax, 0x80000001)]) = some (0x00000003, 0x0004, none) := by decide

/-- B15 -/
theorem test_test_nonzero :
    (after (start 0x00012038 [(.eax, 0x000000F0), (.ebx, 0x00000010)] (flags := .greater))).map (·.flags) = some .less := by decide

/-- B14 -/
theorem test_test_zero :
    (after (start 0x00012038 [(.eax, 0x000000F0), (.ebx, 0x0000000F)] (flags := .greater))).map (·.flags) = some .equal := by decide

/-- C4v -/
theorem test_cmp_signed :
    (after (start 0x00012040 [(.eax, 0xFFFFFFFF), (.ebx, 0x00000001)] (flags := .greater))).map (·.flags) = some .less := by decide

/-- C6v -/
theorem test_cmp_no_subtraction :
    (after (start 0x00012040 [(.eax, 0x7FFFFFFF), (.ebx, 0x80000000)])).map (·.flags) = some .greater := by decide

/-- J1 -/
theorem test_jeq :
    (after (start 0x00400041 [] (flags := .less) (pc := 0x0100))).map (·.pc) = some 0x0104 ∧
    (after (start 0x00400041 [] (flags := .equal) (pc := 0x0100))).map (·.pc) = some 0x0040 ∧
    (after (start 0x00400041 [] (flags := .greater) (pc := 0x0100))).map (·.pc) = some 0x0104 := by decide

/-- J2 -/
theorem test_jne :
    (after (start 0x00400042 [] (flags := .less) (pc := 0x0100))).map (·.pc) = some 0x0040 ∧
    (after (start 0x00400042 [] (flags := .equal) (pc := 0x0100))).map (·.pc) = some 0x0104 ∧
    (after (start 0x00400042 [] (flags := .greater) (pc := 0x0100))).map (·.pc) = some 0x0040 := by decide

/-- J3 -/
theorem test_jgt :
    (after (start 0x00400043 [] (flags := .less) (pc := 0x0100))).map (·.pc) = some 0x0104 ∧
    (after (start 0x00400043 [] (flags := .equal) (pc := 0x0100))).map (·.pc) = some 0x0104 ∧
    (after (start 0x00400043 [] (flags := .greater) (pc := 0x0100))).map (·.pc) = some 0x0040 := by decide

/-- J4 -/
theorem test_jlt :
    (after (start 0x00400044 [] (flags := .less) (pc := 0x0100))).map (·.pc) = some 0x0040 ∧
    (after (start 0x00400044 [] (flags := .equal) (pc := 0x0100))).map (·.pc) = some 0x0104 ∧
    (after (start 0x00400044 [] (flags := .greater) (pc := 0x0100))).map (·.pc) = some 0x0104 := by decide

/-- J5 -/
theorem test_jge :
    (after (start 0x00400045 [] (flags := .less) (pc := 0x0100))).map (·.pc) = some 0x0104 ∧
    (after (start 0x00400045 [] (flags := .equal) (pc := 0x0100))).map (·.pc) = some 0x0040 ∧
    (after (start 0x00400045 [] (flags := .greater) (pc := 0x0100))).map (·.pc) = some 0x0040 := by decide

/-- J6 -/
theorem test_jle :
    (after (start 0x00400046 [] (flags := .less) (pc := 0x0100))).map (·.pc) = some 0x0040 ∧
    (after (start 0x00400046 [] (flags := .equal) (pc := 0x0100))).map (·.pc) = some 0x0040 ∧
    (after (start 0x00400046 [] (flags := .greater) (pc := 0x0100))).map (·.pc) = some 0x0104 := by decide

/-- J7 -/
theorem test_jeq_resolves_when_not_taken :
    (after (start 0x0040D041 [] (pc := 0x0100))).map (fun t => (t.pc, t.fault)) = some (0x00000104, some (.illegalAddressingMode 13)) := by decide

/-- J10 -/
theorem test_jmp_unaligned_target :
    (after (start 0x00012047 [(.ebx, 0x00001236)] (pc := 0x0100))).map (fun t => (t.pc, t.fault)) = some (0x00001236, none) := by decide

/-- J12 -/
theorem test_jmp_negative :
    (after (start 0xFFFC0047 [] (pc := 0x0100))).map (fun t => (t.pc, t.fault)) = some (0xFFFFFFFC, none) := by decide

/-- J14 -/
theorem test_jmprel_from_the_post_fetch_pc :
    (after (start 0xFFFC0048 [] (pc := 0x0100))).map (fun t => (t.pc, t.fault)) = some (0x00000100, none) := by decide

/-- J16 -/
theorem test_jmprel_wraps :
    (after (start 0xFFF80048)).map (fun t => (t.pc, t.fault)) = some (0xFFFFFFFC, none) := by decide

/-- J18 -/
theorem test_jmpx_ignores_mode :
    (after (start 0x0040F049 [] (pc := 0x0100))).map (fun t => (t.pc, t.fault)) = some (0x00000040, none) := by decide

/-- J19 -/
theorem test_jmpx_sign_extends :
    (after (start 0xFFFF0049 [] (pc := 0x0100))).map (fun t => (t.pc, t.fault)) = some (0xFFFFFFFF, none) := by decide

/-- J21 -/
theorem test_call_target_before_push :
    stores 0xFFFB (start 0x0007204A [] (pc := 0x0100)) = some ([0x04, 0x01, 0x00, 0x00], 0x0000FFFB, 0xFFFF) := by decide

/-- J23 -/
theorem test_call_overflow :
    sees .esp (start 0x0040004A [(.esp, 0x0000C003)] (pc := 0x0100)) = some (0x0000C003, 0x0104, some (.stackFault .overflow)) := by decide

/-- J24 -/
theorem test_ret :
    sees .esp (start 0x0000004B [(.esp, 0x0000FFFB)] (bytes := (0xFFFB, [0x04, 0x01, 0x00, 0x00])) (pc := 0x0040)) = some (0x0000FFFF, 0x0104, none) := by decide

/-- J25 -/
theorem test_ret_at_reset :
    sees .esp (start 0x0000004B [] (pc := 0x0040)) = some (0x0000FFFF, 0x0044, some (.stackFault .underflow)) := by decide

/-- K3 -/
theorem test_push_old_esp :
    stores 0xFFFB (start 0x0000070A) = some ([0xFF, 0xFF, 0x00, 0x00], 0x0000FFFB, 0x0004) := by decide

/-- K9 -/
theorem test_push_above_memory :
    sees .esp (start 0x0000000A [(.esp, 0x00010001)]) = some (0x00010001, 0x0004, some (.memoryFault 0x0000FFFD)) := by decide

/-- K14 -/
theorem test_pop_into_esp :
    sees .esp (start 0x0000070B [(.esp, 0x0000FFF0)] (bytes := (0xFFF0, [0x00, 0xD0, 0x00, 0x00]))) = some (0x0000D000, 0x0004, none) := by decide

/-- K16 -/
theorem test_pop_negative_esp :
    sees .esp (start 0x0000020B [(.esp, 0xFFFFFFFC)]) = some (0xFFFFFFFC, 0x0004, some (.memoryFault 0xFFFFFFFC)) := by decide

/-- K22 -/
theorem test_xchg_stores_old_esp :
    stores 0xFFF0 (start 0x0000070C [(.esp, 0x0000FFF0)] (bytes := (0xFFF0, [0x00, 0xD0, 0x00, 0x00]))) = some ([0xF0, 0xFF, 0x00, 0x00], 0x0000D000, 0x0004) := by decide

/-- K20 -/
theorem test_xchg_overflow_undoes_the_pop :
    sees .esp (start 0x0000000C [(.esp, 0x0000BFFC)]) = some (0x0000BFFC, 0x0004, some (.stackFault .overflow)) := by decide

/-- K26 -/
theorem test_enter_register_size :
    stores 0xEFFC (start 0x00012050 [(.ebx, 0x00000100), (.ebp, 0x00001234), (.esp, 0x0000F000)]) = some ([0x34, 0x12, 0x00, 0x00], 0x0000EEFC, 0x0004) := by decide

/-- K29 -/
theorem test_enter_resolves_before_the_push :
    sees .esp (start 0x0000B050 [(.esp, 0x0000F000)]) = some (0xFFFFFFFC, 0x0004, none) := by decide

/-- K30 -/
theorem test_leave_restores_ebp :
    sees .ebp (start 0x00000051 [(.ebp, 0x0000FFF7), (.esp, 0x0000FFEF)] (bytes := (0xFFF7, [0xFF, 0xFF, 0x00, 0x00]))) = some (0x0000FFFF, 0x0004, none) := by decide

/-- K31 -/
theorem test_leave_fault_keeps_esp :
    sees .esp (start 0x00000051) = some (0x0000FFFF, 0x0004, some (.stackFault .underflow)) := by decide

/-- Y2 -/
theorem test_hlt :
    (after (start 0xFFFFFF60)).map (fun t => (t.halted, t.pc)) = some (true, 4) := by decide

/-! ### Fetch, unassigned opcodes and the order of checks -/

/-- Y7 -/
theorem test_fetch_of_the_last_word :
    sees .eax (start 0x00000060 [] (pc := 0xFFFC)) = some (0x00000000, 0x10000, none) := by decide

/-- Y8 -/
theorem test_fetch_past_memory :
    (after { State.reset with pc := 0xFFFD }).map (fun t => (t.pc, t.fault)) = some (0xFFFD, some (.memoryFault 0xFFFD)) := by decide

/-- Y15 -/
theorem test_unassigned_before_mode :
    sees .eax (start 0x0000D999) = some (0x00000000, 0x0004, some (.illegalInstruction 0x99)) := by decide

/-- Y12 -/
theorem test_mode_before_register :
    sees .eax (start 0x0000D913) = some (0x00000000, 0x0004, some (.illegalAddressingMode 13)) := by decide

/-- Y13 -/
theorem test_mode_two_register_before_register :
    sees .eax (start 0x000A2913) = some (0x00000000, 0x0004, some (.illegalRegister 10)) := by decide

/-- Y14 -/
theorem test_register_before_divide :
    sees .eax (start 0x00000913) = some (0x00000000, 0x0004, some (.illegalRegister 9)) := by decide

/-- Y16 -/
theorem test_source_before_raw_destination :
    sees .eax (start 0x000A0926) = some (0x00000000, 0x0004, some (.illegalRegister 9)) := by decide

/-! ### Parameters -/

/-- The four segments of 20_memory.md R61 lie side by side and make up the whole of memory. -/
theorem test_segments_tile_memory :
    Config.textBase = 0 ∧ Config.dataBase = Config.textEnd + 1 ∧ Config.heapBase.toNat = Config.dataEnd + 1 ∧
    Config.stackBase = Config.heapEnd + 1 ∧ Config.stackEnd + 1 = Config.memSize := by decide

/-- Each value of POST_FAULT: the latch that the next Step finds. -/
theorem test_latchAfter :
    latchAfter .latched (some .arithmeticFault) = some .arithmeticFault ∧
    latchAfter .steppable (some .arithmeticFault) = none := by decide

/-! ### Witnesses: a state and operands that meet the hypotheses of each obligation that has some -/

/-- A state whose registers make the clauses below distinct. -/
def busy : State := start 0x00000060 [(.eax, 7), (.ebx, 0x00010000), (.ecx, 0x0000FFFF), (.esp, 0x0000F000)]
  (0x4000, [1, 2, 3, 4])

theorem witness_DecodeInvertsEncode : Function.Injective opc ∧ opc ≠ fun _ => 0 :=
  ⟨opc_injective, fun h => absurd (congrFun h .mov) (by decide)⟩

theorem witness_DecodeReadsExactlyTheUsedFields :
    decodeWord 0x1234F015#32 = .ok (.inc 0) ∧ opcodeField 0x00000015#32 = opcodeField 0x1234F015#32 ∧
    regField 0x00000015#32 = regField 0x1234F015#32 ∧ Mnemonic.usesReg .inc = true ∧ Mnemonic.usesMode .inc = false ∧
    Mnemonic.usesMode .jmp = true ∧ Mnemonic.usesOperand .itof = true ∧ Mnemonic.usesOperand .ret = false := by decide

theorem witness_UnassignedBytesAreRefused :
    (∀ b ∈ [0x00, 0x0D, 0x0F, 0x18, 0x1F, 0x28, 0x2F, 0x39, 0x3F, 0x4C, 0x4F, 0x52, 0x5F, 0x61, 0xFF],
      mnemonicOf opc b = none) ∧
    ∀ b ∈ [0x01, 0x0C, 0x10, 0x17, 0x20, 0x27, 0x30, 0x38, 0x40, 0x4B, 0x50, 0x51, 0x60],
      mnemonicOf opc b ≠ none := by decide

theorem witness_OperandIsSignExtended :
    (0x8000#16).getLsbD 15 = true ∧ operandOf 0x8000 = 0xFFFF8000#32 ∧
    (0x7FFF#16).getLsbD 15 = false ∧ operandOf 0x7FFF = 0x00007FFF#32 := by decide

theorem witness_RegisterCheckAcceptsZeroToSeven :
    checkReg 0 = .ok .eax ∧ checkReg 7 = .ok .esp ∧ checkReg 8 = .error (.illegalRegister 8) ∧
    checkReg (-1) = .error (.illegalRegister (-1)) := by decide

/-- Each row of the resolver's table, at the modes and indices where rows meet. -/
theorem witness_ResolverFollowsItsTable :
    busy.resolve ⟨0, 0x8000⟩ = .ok 0xFFFF8000 ∧ busy.resolve ⟨1, 0x7FFF⟩ = .ok 0x7FFF ∧
    busy.resolve ⟨2, 0x0010⟩ = .ok 7 ∧ busy.resolve ⟨2, 0x0017⟩ = .ok 0xF000 ∧
    busy.resolve ⟨2, 0x0018⟩ = .error (.illegalRegister 8) ∧ busy.resolve ⟨2, 0xFFFF⟩ = .error (.illegalRegister 15) ∧
    busy.resolve ⟨3, 0xFFFF⟩ = .ok 0x00007FFF ∧ busy.resolve ⟨4, 1⟩ = .ok 8 ∧ busy.resolve ⟨9, 0⟩ = .ok 0 ∧
    busy.resolve ⟨10, 0xFFFF⟩ = .ok 0x00010000 ∧ busy.resolve ⟨11, 0x7000⟩ = .ok 0x00008000 ∧
    busy.resolve ⟨12, 0⟩ = .error (.illegalAddressingMode 12) ∧
    busy.resolve ⟨15, 0⟩ = .error (.illegalAddressingMode 15) := by decide

/-- Both sides of the bound, for each width. -/
theorem witness_MemReadIsLittleEndian :
    busy.memRead 0x4000 .four = .ok 0x04030201 ∧ busy.memRead 0xFFFF .one = .ok 0 ∧
    busy.memRead 0xFFFE .two = .ok 0 ∧ busy.memRead 0xFFFC .four = .ok 0 ∧
    busy.memRead 0x10000 .one = .error (.memoryFault 0x10000) ∧ busy.memRead 0xFFFF .two = .error (.memoryFault 0xFFFF) ∧
    busy.memRead 0xFFFD .four = .error (.memoryFault 0xFFFD) ∧
    busy.memRead 0xFFFFFFFF .two = .error (.memoryFault 0xFFFFFFFF) := by decide

theorem witness_MemWriteIsAllOrNothing :
    ((busy.memWrite 0xFFFC .four 0x04030201).toOption.map fun t => (t.byte 0xFFFC, t.byte 0xFFFF)) = some (1, 4) ∧
    busy.memWrite 0xFFFF .two 0x0201 = .error (.memoryFault 0xFFFF) := by decide

theorem witness_MixedWidthAccessesAgree : (0xFFFC#32).toNat + 3 ≤ 0xFFFF ∧ (0#32).toNat + 3 ≤ 0xFFFF := by decide

/-- A push and a pop at each bound of ESP where their outcome changes. -/
theorem witness_PushAndPopFollowTheirRules :
    (∀ p ∈ [(0x0000C003#32, some (.stackFault .overflow)), (0x0000C004, none), (0x00010000, none),
        (0x00010001, some (.memoryFault 0x0000FFFD)), (0x80000000, some (.stackFault .overflow))],
      (match (busy.setReg .esp p.1).push 5 with | .ok _ => none | .error f => some f) = p.2) ∧
    ∀ p ∈ [(0x0000FFFB#32, none), (0x0000FFFC, some (.stackFault .underflow)), (0x00000000, none),
        (0xFFFFFFFF, some (.memoryFault 0xFFFFFFFF)), (0x7FFFFFFF, some (.stackFault .underflow))],
      (match (busy.setReg .esp p.1).pop with | .ok _ => none | .error f => some f) = p.2 := by decide

/-- Stores at the pc, beside it and at the top of memory, and pcs on both sides of the bound of a fetch. -/
theorem witness_StoreIsSeenByTheNextFetch :
    ((busy.memWrite busy.pc .four 0x00050001).toOption.bind fun t => t.fetch.toOption) = some 0x00050001 ∧
    ((busy.memWrite 2 .two 0xAABB).toOption.bind fun t => t.fetch.toOption) = some 0xAABB0060 ∧
    ((busy.memWrite 0xFFFF .one 0xCC).toOption.bind fun t => (t.setPc 0xFFFC).fetch.toOption) = some 0xCC000000 ∧
    (0xFFFC#32).toNat + 3 ≤ 0xFFFF ∧ (busy.setPc 0xFFFD).fetch = .error (.memoryFault 0xFFFD) := by decide

/-- The hypotheses of every rule of the shapes `UpdateRule`, `UnaryRule`, `FlagRule`, `FloatRule`, `JumpRule` and of CALL and
ENTER: an operand that resolves, one that does not, and register fields on both sides of 8. It serves MovesFollowTheirRules,
AddSubMulWrap, UnaryInstructionsFollowTheirRules, LogicFollowsItsRules, ShiftsAndRotatesFollowTheirRules, TestAndCompareAloneWriteTheFlags,
ConditionalJumpsFollowTheirTable, UnconditionalJumpsFollowTheirRules, CallAndReturnFollowTheirRules,
EnterAndLeaveFollowTheirRules, PushAndPopInstructionsFollowTheirRules and XchgExchangesWithTheTopOfTheStack. -/
theorem witness_RuleShapes :
    busy.resolve ⟨2, 0⟩ = .ok 7 ∧ busy.resolve ⟨13, 0⟩ = .error (.illegalAddressingMode 13) ∧
    busy.resolve ⟨2, 9⟩ = .error (.illegalRegister 9) ∧ 8 ≤ (8#4).toNat ∧ Reg.field .esp = 7#4 ∧
    opcodeField 0x12345601#32 = 0x01#8 := by decide

/-- Addresses on both sides of the bound of a load or a store. -/
theorem witness_LoadsFollowTheirRules :
    busy.resolve ⟨2, 2⟩ = .ok 0xFFFF ∧ 0xFFFF + 1 ≤ 0x10000 ∧ ¬ 0xFFFF + 2 ≤ 0x10000 ∧
    busy.resolve ⟨2, 1⟩ = .ok 0x10000 ∧ busy.resolve ⟨0, 0x4000⟩ = .ok 0x4000 := by decide

theorem witness_StoresFollowTheirRules :
    busy.resolve ⟨6, 0xFFFF⟩ = .ok 0xFFFE ∧ 0xFFFE + 2 ≤ 0x10000 ∧
    busy.resolve ⟨5, 0xFFFF⟩ = .ok 0xFFFF ∧ ¬ 0xFFFF + 2 ≤ 0x10000 := by decide

/-- A zero divisor, the quotient that does not fit, and one that does. -/
theorem witness_DivAndModTruncate :
    busy.resolve ⟨0, 0⟩ = .ok 0 ∧ busy.resolve ⟨0, 0xFFFF⟩ = .ok 0xFFFFFFFF ∧ (0xFFFFFFFF#32).toInt = -1 ∧
    (0x80000000#32).toInt = -2 ^ 31 ∧ busy.resolve ⟨0, 2⟩ = .ok 2 := by decide

/-- A result, and none, for each operation. -/
theorem witness_FloatInstructionsFollowTheirRules :
    F32.add ⟨0x3FC00000⟩ ⟨0x40200000⟩ = some ⟨0x40800000⟩ ∧ F32.add ⟨0x7F800000⟩ ⟨0xFF800000⟩ = none ∧
    F32.sub ⟨0x7F800000⟩ ⟨0x7F800000⟩ = none ∧ F32.mul ⟨0⟩ ⟨0x7F800000⟩ = none ∧ F32.div ⟨0⟩ ⟨0⟩ = none ∧
    busy.resolve ⟨2, 0⟩ = .ok 7 ∧ F32.isNaN ⟨0xFF800001⟩ = true := by decide

/-- A source register too high, a destination below 0, above 7 and at each end, a datum that converts and one that does not. -/
theorem witness_ConversionInstructionsFollowTheirRules :
    8 ≤ (8#4).toNat ∧ (0xFFFF#16).toInt < 0 ∧ 7 < (8#16).toInt ∧ (0#16).toInt = (Reg.index .eax : Int) ∧
    (7#16).toInt = (Reg.index .esp : Int) ∧ F32.toInt? ⟨0xBFF33333⟩ = some (-1) ∧ F32.toInt? ⟨0x4F000000⟩ = none := by decide

/-- Zeros of both signs, the smallest subnormal and the largest finite datum are finite; exponent 255 is not. -/
theorem witness_FloatData :
    F32.isFinite ⟨0x00000000⟩ = true ∧ F32.isFinite ⟨0x80000000⟩ = true ∧ F32.isFinite ⟨0x00000001⟩ = true ∧
    F32.isFinite ⟨0x7F7FFFFF⟩ = true ∧ F32.isFinite ⟨0x7F800000⟩ = false ∧ F32.isInfinite ⟨0xFF800000⟩ = true ∧
    F32.isInfinite ⟨0xFF800001⟩ = false := by decide

theorem witness_FloatSumsAreCorrectlyRounded : F32.isFinite ⟨0x80000000⟩ = true ∧ F32.isFinite ⟨0x7F7FFFFF⟩ = true ∧
    F32.add ⟨0x80000000⟩ ⟨0x80000000⟩ = some ⟨0x80000000⟩ ∧ F32.sub ⟨0x80000000⟩ ⟨0x80000000⟩ = some ⟨0⟩ := by decide

theorem witness_FloatProductsAreCorrectlyRounded :
    F32.isFinite ⟨0x3F800000⟩ = true ∧ F32.isFinite ⟨0x40400000⟩ = true ∧ F32.rat ⟨0x40400000⟩ ≠ 0 ∧
    F32.div ⟨0x3F800000⟩ ⟨0x40400000⟩ = some ⟨0x3EAAAAAB⟩ := by
  refine ⟨by decide, by decide, ?_, by decide⟩
  have he : F32.exponent ⟨0x40400000⟩ = 128 := by decide
  have hf : F32.fraction ⟨0x40400000⟩ = 0x400000 := by decide
  have hn : F32.negative ⟨0x40400000⟩ = false := by decide
  simp only [F32.rat, he, hf, hn]
  norm_num

theorem witness_FloatSpecialCasesFollowTheirRules :
    F32.add ⟨0xFF800000⟩ ⟨0x3F800000⟩ = some ⟨0xFF800000⟩ ∧ F32.sub ⟨0x3F800000⟩ ⟨0x7F800000⟩ = some ⟨0xFF800000⟩ ∧
    F32.mul ⟨0x7F800000⟩ ⟨0x80000001⟩ = some ⟨0xFF800000⟩ ∧ F32.div ⟨0xBF800000⟩ ⟨0x00000000⟩ = some ⟨0xFF800000⟩ ∧
    F32.div ⟨0x3F800000⟩ ⟨0xFF800000⟩ = some ⟨0x80000000⟩ ∧ F32.div ⟨0x7F800000⟩ ⟨0xFF800000⟩ = none := by decide

/-- IntegerToFloatRoundsToNearest and FtoiUndoesItof, at the integers where their clauses meet: 2^24, the first that is no datum, the last that comes back rounded, the first that
does not come back. -/
theorem witness_IntegerToFloat :
    (F32.ofInt 16777216).bits = 0x4B800000 ∧ (F32.ofInt 16777217).toInt? = some 16777216 ∧
    (F32.ofInt 2147483583).toInt? = some 2147483520 ∧ (F32.ofInt 2147483584).toInt? = none ∧
    (F32.ofInt (-2147483648)).toInt? = some (-2147483648) ∧ (F32.ofInt 0).bits = 0 ∧
    (F32.ofInt (-1)).negative = true := by decide

/-- Data on both sides of each bound of FTOI. -/
theorem witness_FloatToIntegerTruncates :
    F32.isFinite ⟨0x7FC00000⟩ = false ∧ F32.toInt? ⟨0x4EFFFFFF⟩ = some 2147483520 ∧ F32.toInt? ⟨0x4F000000⟩ = none ∧
    F32.toInt? ⟨0xCF000000⟩ = some (-2147483648) ∧ F32.toInt? ⟨0xCF000001⟩ = none := by decide

theorem witness_JumpsAfterTestFollowTheirTable :
    busy.resolve ⟨0, 8⟩ = .ok 8 ∧ busy.resolve ⟨0, 0x40⟩ = .ok 0x40 ∧ busy.reg .eax &&& 8 = 0 ∧ busy.reg .eax &&& 4 ≠ 0 := by
  decide

/-- ReturnUndoesCall and LeaveUndoesEnter: their bounds of ESP, and what CALL and ENTER leave there. -/
theorem witness_ReturnUndoesCall :
    busy.resolve ⟨0, 0x40⟩ = .ok 0x40 ∧ 0xC004 ≤ (busy.reg .esp).toInt ∧ (busy.reg .esp).toInt ≤ 0xFFFF ∧
    0xC004 ≤ (0xC004#32).toInt ∧ (0xFFFF#32).toInt ≤ 0xFFFF ∧
    (match exec (.call ⟨0, 0x40⟩) busy with | .next t => t.reg .esp | _ => 0) = 0xEFFC ∧
    (match exec (.enter ⟨0, 8⟩) busy with | .next t => t.reg .ebp | _ => 0) = 0xEFFC := by decide

theorem witness_HaltStopsTheCore : opcodeField 0xFFFFFF60#32 = 0x60 ∧ (busy.setHalted).halted = true := by decide

theorem witness_StepRunsTheDecodedInstruction :
    busy.halted = false ∧ busy.fault = none ∧ busy.pc.toNat + 3 ≤ 0xFFFF ∧ (0xFFFC#32).toNat + 3 ≤ 0xFFFF ∧
    decodeBytes [busy.byte 0, busy.byte 1, busy.byte 2, busy.byte 3] = .ok (.hlt, []) := by decide

theorem witness_StoppedCoreStepsToItself :
    (busy.setHalted).halted = true ∧ (busy.takeFault .arithmeticFault).fault ≠ none := by decide

theorem witness_FetchOutsideMemoryFaults :
    busy.halted = false ∧ busy.fault = none ∧ 0xFFFF < (0xFFFD#32).toNat + 3 ∧ ¬ 0xFFFF < (0xFFFC#32).toNat + 3 := by decide

theorem witness_UnassignedOpcodeFaults :
    (busy.setPc 0x8000).halted = false ∧ (busy.setPc 0x8000).fault = none ∧
    (busy.setPc 0x8000).pc.toNat + 3 ≤ 0xFFFF ∧ ∀ k, opc k ≠ (busy.setPc 0x8000).byte 0x8000 :=
  ⟨rfl, rfl, by decide, fun k => by cases k <;> decide⟩

/-- A state of the invariant other than the reset state, with a Step that takes a fault and one that halts. -/
theorem witness_EveryStepKeepsTheInvariant :
    busy.Inv ∧ (after busy).isSome = true ∧ (after (busy.setPc 0x8000)).isSome = true :=
  ⟨⟨by decide, fun _ => rfl, fun f h => by cases h⟩, by decide, by decide⟩

theorem witness_FaultsArePrecise :
    busy.halted = false ∧ busy.fault = none ∧
    (after (busy.setPc 0x8000)).bind (·.fault) = some (.illegalInstruction 0) ∧
    (after (busy.setPc 0xFFFD)).bind (·.fault) = some (.memoryFault 0xFFFD) := by decide

theorem witness_InfoTellsAFetchFaultApart :
    ((after (busy.setPc 0xFFFD)).map fun t => (t.fault, t.pc)) = some (some (.memoryFault 0xFFFD), 0xFFFD) := by decide

theorem witness_FieldFaultsAreTheIllFormedInstructions :
    busy.fault = none ∧ Instr.wellFormed (.call ⟨12, 0⟩) = false ∧ Instr.wellFormed (.call ⟨11, 0⟩) = true := by decide

theorem witness_TestAndCompareAloneWriteTheFlags :
    (match exec (.cmp 0 ⟨0, 7⟩) busy with | .next t => decide (t.flags ≠ busy.flags) | _ => false) = true := by decide

/-- An instruction of each clause: a CMP with legal fields, a CMP with an illegal mode, and an INC. -/
theorem witness_OnlyConditionalJumpsReadTheFlags :
    (¬ Instr.readsFlags (.inc 0) ∧ ¬ Instr.readsFlags (.cmp 0 ⟨0, 7⟩)) ∧
    (match exec (.inc 0) busy with | .next _ => true | _ => false) = true ∧
    Instr.wellFormed (.cmp 0 ⟨0, 7⟩) = true ∧ Instr.wellFormed (.cmp 0 ⟨12, 7⟩) = false ∧
    (match exec (.cmp 0 ⟨0, 7⟩) busy with | .next t => some t.flags | _ => none) = some .equal ∧
    (match exec (.cmp 0 ⟨12, 7⟩) (busy.setFlags .greater) with | .next t => some t.flags | _ => none) =
      some .greater := by
  refine ⟨?_, by decide⟩
  unfold Instr.readsFlags
  decide

/-- OtherRegistersAreKept and OtherBytesAreKept: a next state, and registers and bytes inside and outside what is written. -/
theorem witness_Frames :
    (match exec (.st 0 ⟨0, 0x4000⟩) busy with | .next _ => true | _ => false) = true ∧
    Instr.storesTo (.st 0 ⟨0, 0x4000⟩) busy = some (0x4000, 1) ∧ Instr.storesTo (.push 0) busy = some (0xEFFC, 4) ∧
    Instr.storesTo (.st 0 ⟨12, 0⟩) busy = none ∧ Instr.storesTo (.xchg 0) busy = some (0xF000, 4) ∧
    ¬ Instr.mayWrite (.st 0 ⟨0, 0⟩) .eax ∧ ¬ Instr.mayWrite (.pop 0) .ebx ∧ Instr.mayWrite (.pop 0) .esp := by
  simp only [Instr.mayWrite]
  decide

theorem witness_PcHaltedAndDrawsAreKept :
    ¬ Instr.transfersControl (.mov 0 ⟨0, 0⟩) ∧ Instr.mov 0 ⟨0, 0⟩ ≠ .hlt ∧
    Instr.mnemonic (.mov 0 ⟨0, 0⟩) ∉ [Mnemonic.fadd, .fsub, .fmul, .fdiv, .ftoi] := by
  refine ⟨?_, by decide, by decide⟩
  unfold Instr.transfersControl
  decide

/-- An image of the largest size is not refused, one byte more is. -/
theorem witness_LoadProgramCopiesOrRefuses :
    ¬ (List.replicate 0x4000 (0 : Byte)).length > 0x4000 ∧ (List.replicate 0x4001 (0 : Byte)).length > 0x4000 := by
  rw [List.length_replicate, List.length_replicate]
  omega

theorem witness_HostAccessesFollowTheirRules :
    busy.readByte 0xFFFF = some 0 ∧ busy.readByte 0x10000 = none ∧ busy.readWord 0xFFFC = some 0 ∧
    busy.readWord 0xFFFD = none ∧ (busy.writeByte 0xFFFF 1).isSome = true ∧ busy.writeByte 0x10000 1 = none ∧
    (busy.writeWord 0xFFFC 1).isSome = true ∧ busy.writeWord 0xFFFD 1 = none ∧ busy.getRegister 7 = some 0xF000 ∧
    busy.getRegister 8 = none ∧ busy.getRegister (-1) = none ∧ busy.setRegister 8 0 = none := by decide

/-- Each of the four outcomes. -/
theorem witness_RunStopsForTheReasonItGives :
    (match busy.run 1 with | .next ((out, n), _) => some (out, n) | _ => none) = some (.halted, 1) ∧
    (match busy.run 0 with | .next ((out, n), _) => some (out, n) | _ => none) = some (.cycleLimit, 0) ∧
    (match (busy.setPc 0x10000).run 5 with | .next ((out, n), _) => some (out, n) | _ => none) =
      some (.pcOutOfRange, 0) ∧
    (match (busy.setPc 0xFFFD).run 5 with | .next ((out, n), _) => some (out, n) | _ => none) =
      some (.fault (.memoryFault 0xFFFD), 1) := by decide


end Sys2Proof.Tests
end

/-! The proofs of the statements about 10_state.md. Both obligations say that a part of the state has no influence on an
instruction: the flags on any but the conditional jumps (R37), the halted bit on any at all (R40). The common idea is an
`Overlay`, a change of a state that touches nothing an instruction reads or writes; it commutes with the instruction. -/

namespace Sys2Proof.Machine

/-! ### Overlays -/

/-- A change of a state that keeps the registers, the pc, the memory and the count of draws, and that commutes with
every update an instruction makes of them and with taking a fault. -/
structure Overlay (g : State → State) : Prop where
  reg : ∀ s q, (g s).reg q = s.reg q
  pc : ∀ s, (g s).pc = s.pc
  mem : ∀ s, (g s).mem = s.mem
  draws : ∀ s, (g s).draws = s.draws
  setReg : ∀ s q v, (g s).setReg q v = g (s.setReg q v)
  setPc : ∀ s t, (g s).setPc t = g (s.setPc t)
  setMem : ∀ s m, (g s).setMem m = g (s.setMem m)
  drawn : ∀ s, (g s).drawn = g s.drawn
  takeFault : ∀ s f, (g s).takeFault f = g (s.takeFault f)

/-- The meaning `m` neither reads nor writes what `g` changes: applying `g` before it is applying `g` after it. -/
def CommutesWith (g : State → State) (m : State → Host.Outcome State Fault Refusal) : Prop :=
  ∀ s t, m s = .next t → m (g s) = .next (g t)

/-- `s` with the halted bit given. -/
def State.withHalted (s : State) (b : Bool) : State := { s with halted := b }

@[simp] theorem State.withHalted_halted (s : State) (b : Bool) : (s.withHalted b).halted = b := rfl

/-- Giving the halted bit the value it has changes nothing. -/
@[simp] theorem State.withHalted_self (s : State) : s.withHalted s.halted = s := rfl

/-- The shape of TEST and CMP: the flags computed from the register and the resolved operand, and nothing else. -/
def State.writeFlags (s : State) (r : Nibble) (o : Operand) (k : Word → Word → Flag) :
    Host.Outcome State Fault Refusal :=
  s.withRegOperand r o fun q v => pure (s.setFlags (k (s.reg q) v))

theorem exec_test (r : Nibble) (o : Operand) (s : State) : exec (.test r o) s = s.writeFlags r o testFlags := rfl

theorem exec_cmp (r : Nibble) (o : Operand) (s : State) : exec (.cmp r o) s = s.writeFlags r o compareFlags := rfl

theorem overlay_setFlags (c : Flag) : Overlay fun s => s.setFlags c := by
  constructor <;> intros <;> rfl

theorem overlay_withHalted (b : Bool) : Overlay fun s => s.withHalted b := by
  constructor <;> intros <;> rfl

section Operations

variable {g : State → State}

/-! ### Overlays under the shared operations -/

theorem Overlay.resolve (hg : Overlay g) (s : State) (o : Operand) : (g s).resolve o = s.resolve o := by
  simp only [State.resolve, hg.reg]

theorem Overlay.memRead (hg : Overlay g) (s : State) (a : Word) (n : Width) : (g s).memRead a n = s.memRead a n := by
  simp only [State.memRead, hg.mem]

theorem Overlay.memWrite (hg : Overlay g) (s : State) (a : Word) (n : Width) (v : Word) :
    (g s).memWrite a n v = g <$> s.memWrite a n v := by
  simp only [State.memWrite, hg.mem, hg.setMem]
  split <;> rfl

theorem Overlay.push (hg : Overlay g) (s : State) (val : Word) : (g s).push val = g <$> s.push val := by
  simp only [State.push, hg.reg, hg.memWrite]
  split
  · rfl
  · simp [hg.setReg]

theorem Overlay.pop (hg : Overlay g) (s : State) : (g s).pop = Prod.map id g <$> s.pop := by
  simp only [State.pop, hg.reg, hg.memRead, hg.setReg]
  split
  · rfl
  · simp

theorem Overlay.setRegNaN (hg : Overlay g) (s : State) (q : Reg) : (g s).setRegNaN q = g (s.setRegNaN q) := by
  simp only [State.setRegNaN, hg.draws, hg.drawn, hg.setReg]

theorem Overlay.setRegInvalid (hg : Overlay g) (s : State) (q : Reg) :
    (g s).setRegInvalid q = g (s.setRegInvalid q) := by
  simp only [State.setRegInvalid, hg.draws, hg.drawn, hg.setReg]

/-! ### Overlays under the shapes of instruction -/

/-- A pseudocode that commutes with `g` gives an instruction that does, its fault included. -/
theorem Overlay.commit (hg : Overlay g) {e : State → Except FaultRecord State} (he : ∀ s, e (g s) = g <$> e s) :
    CommutesWith g fun s => s.commit (e s) := by
  intro s t h
  simp only [he]
  rcases State.commit_next h with hok | ⟨f, herr, rfl⟩
  · rw [hok]; rfl
  · rw [herr, ← hg.takeFault]; rfl

theorem Overlay.withRegOperand (hg : Overlay g) (r : Nibble) (o : Operand)
    {act : State → Reg → Word → Except FaultRecord State} (ha : ∀ s q v, act (g s) q v = g <$> act s q v) :
    CommutesWith g fun s => s.withRegOperand r o (act s) :=
  hg.commit fun s => by simp only [hg.resolve, ha, map_bind]

theorem Overlay.updateWith (hg : Overlay g) (r : Nibble) (o : Operand) (f : Word → Word → Word) :
    CommutesWith g fun s => s.updateWith r o f :=
  hg.withRegOperand r o fun s q v => by simp only [hg.reg, hg.setReg, map_pure]

theorem Overlay.updateReg (hg : Overlay g) (r : Nibble) (f : Word → Word) : CommutesWith g fun s => s.updateReg r f :=
  hg.commit fun s => by simp only [hg.reg, hg.setReg, map_bind, map_pure]

theorem Overlay.divideWith (hg : Overlay g) (r : Nibble) (o : Operand) (f : Word → Word → Word) :
    CommutesWith g fun s => s.divideWith r o f :=
  hg.withRegOperand r o fun s q v => by
    split
    · rfl
    · simp only [hg.reg, hg.setReg, map_pure]

theorem Overlay.floatWith (hg : Overlay g) (r : Nibble) (o : Operand) (op : F32 → F32 → Option F32) :
    CommutesWith g fun s => s.floatWith r o op :=
  hg.withRegOperand r o fun s q v => by
    simp only [hg.reg, hg.setReg, hg.setRegNaN]
    split <;> rfl

theorem Overlay.convertWith (hg : Overlay g) (r : Nibble) (d : Half) {act : State → Reg → Reg → State}
    (ha : ∀ s q p, act (g s) q p = g (act s q p)) : CommutesWith g fun s => s.convertWith r d (act s) :=
  hg.commit fun s => by simp only [ha, map_bind, map_pure]

theorem Overlay.load (hg : Overlay g) (r : Nibble) (o : Operand) (n : Width) (f : Word → Word → Word) :
    CommutesWith g fun s => s.withRegOperand r o fun q a => (do
      let b ← s.memRead a n
      pure (s.setReg q (f (s.reg q) b))) :=
  hg.withRegOperand r o fun s q a => by simp only [hg.memRead, hg.reg, hg.setReg, map_bind, map_pure]

theorem Overlay.store (hg : Overlay g) (r : Nibble) (o : Operand) (n : Width) (f : Word → Word) :
    CommutesWith g fun s => s.withRegOperand r o fun q a => s.memWrite a n (f (s.reg q)) :=
  hg.withRegOperand r o fun s q a => by simp only [hg.reg, hg.memWrite]

/-- TEST and CMP, for an overlay that commutes with writing the flags. -/
theorem Overlay.writeFlags (hg : Overlay g) (hset : ∀ s c, (g s).setFlags c = g (s.setFlags c)) (r : Nibble)
    (o : Operand) (k : Word → Word → Flag) : CommutesWith g fun s => s.writeFlags r o k :=
  hg.withRegOperand r o fun s q v => by simp only [hg.reg, hset, map_pure]

/-- The conditional jumps, for an overlay that keeps the flags they read. -/
theorem Overlay.jumpIf (hg : Overlay g) (hflags : ∀ s, (g s).flags = s.flags) (o : Operand) (taken : Flag → Bool) :
    CommutesWith g fun s => s.jumpIf o (taken s.flags) :=
  hg.commit fun s => by simp only [hg.resolve, hflags, hg.setPc, map_bind, map_pure, apply_ite g]

/-! ### Overlays under the instructions -/

/-- An overlay commutes with every instruction, if it keeps the flags where they are read, and commutes with writing the
flags and with halting where these are written. -/
theorem Overlay.exec (hg : Overlay g) {i : Instr} (hread : i.readsFlags → ∀ s, (g s).flags = s.flags)
    (hwrite : i.mnemonic = .test ∨ i.mnemonic = .cmp → ∀ s c, (g s).setFlags c = g (s.setFlags c))
    (hhalt : i = .hlt → ∀ s, (g s).setHalted = g s.setHalted) : CommutesWith g (exec i) := by
  cases i with
  | add r o | sub r o | mul r o | and r o | or r o | xor r o => exact hg.updateWith r o _
  | mov r o => exact hg.updateWith r o fun _ v => v
  | movhi r o | fmovhi r o => exact hg.updateWith r o fun x v => withHigh x (lowHalf v)
  | movlo r o | fmovlo r o => exact hg.updateWith r o fun x v => withLow x (lowHalf v)
  | shl r o => exact hg.updateWith r o fun x v => x <<< shiftCount v
  | shr r o => exact hg.updateWith r o fun x v => shiftRight Config.shrKind x (shiftCount v)
  | rol r o => exact hg.updateWith r o fun x v => x.rotateLeft (shiftCount v)
  | ror r o => exact hg.updateWith r o fun x v => x.rotateRight (shiftCount v)
  | inc r => exact hg.updateReg r fun x => x + 1
  | dec r => exact hg.updateReg r fun x => x - 1
  | neg r => exact hg.updateReg r fun x => ~~~x + 1
  | not r => exact hg.updateReg r fun x => ~~~x
  | div r o | mod r o => exact hg.divideWith r o _
  | fadd r o | fsub r o | fmul r o | fdiv r o => exact hg.floatWith r o _
  | ld r o => exact hg.load r o .one fun _ b => b
  | ldhi r o => exact hg.load r o .two fun x h => withHigh x (lowHalf h)
  | ldlo r o => exact hg.load r o .two fun x h => withLow x (lowHalf h)
  | st r o => exact hg.store r o .one id
  | sthi r o => exact hg.store r o .two fun x => (highHalf x).setWidth 32
  | stlo r o => exact hg.store r o .two fun x => (lowHalf x).setWidth 32
  | itof r d => exact hg.convertWith r d fun s q p => by simp only [hg.reg, hg.setReg]
  | ftoi r d =>
    refine hg.convertWith r d fun s q p => ?_
    simp only [hg.reg, hg.setReg, hg.setRegInvalid]
    split <;> rfl
  | push r => exact hg.commit fun s => by simp only [hg.reg, hg.push, map_bind]
  | pop r => exact hg.commit fun s => by simp [hg.pop, hg.setReg]
  | xchg r => exact hg.commit fun s => by simp [hg.pop, hg.push, hg.reg, hg.setReg]
  | jmp o => exact hg.commit fun s => by simp only [hg.resolve, hg.setPc, map_bind, map_pure]
  | jmprel o => exact hg.commit fun s => by simp only [hg.resolve, hg.pc, hg.setPc, map_bind, map_pure]
  | jmpx t => exact hg.commit (e := fun s => pure (s.setPc (operandOf t))) fun s => by simp only [hg.setPc, map_pure]
  | call o => exact hg.commit fun s => by simp [hg.resolve, hg.push, hg.pc, hg.setPc]
  | ret => exact hg.commit fun s => by simp [hg.pop, hg.setPc]
  | enter o => exact hg.commit fun s => by simp [hg.resolve, hg.push, hg.reg, hg.setReg]
  | leave => exact hg.commit fun s => by simp [hg.reg, hg.setReg, hg.pop]
  | test r o => exact hg.writeFlags (hwrite (.inl rfl)) r o testFlags
  | cmp r o => exact hg.writeFlags (hwrite (.inr rfl)) r o compareFlags
  | jeq o | jne o | jgt o | jlt o | jge o | jle o =>
    exact hg.jumpIf (hread (by simp [Instr.readsFlags, Instr.mnemonic])) o _
  | hlt => exact hg.commit (e := fun s => pure s.setHalted) fun s => by simp only [hhalt rfl, map_pure]

end Operations

/-! ### The halted bit (10_state.md R40) -/

/-- No instruction but HLT changes the halted bit: its effect commutes with giving the bit the value it already has. -/
theorem exec_halted_of_ne_hlt {i : Instr} {s t : State} (h : exec i s = .next t) (hi : i ≠ .hlt) :
    t.halted = s.halted := by
  have hcomm : CommutesWith (fun u => u.withHalted s.halted) (exec i) :=
    (overlay_withHalted s.halted).exec (fun _ _ => rfl) (fun _ _ _ => rfl) fun hlt => absurd hlt hi
  have hsame : exec i s = .next (t.withHalted s.halted) := by
    simpa only [State.withHalted_self] using hcomm s t h
  have ht : t = t.withHalted s.halted := by
    rw [h] at hsame
    injection hsame
  rw [ht, State.withHalted_halted]

theorem does_hlt (s : State) : Does .hlt s { s.view with halted := true } := ⟨s.setHalted, rfl, s.view_setHalted⟩

/-- A core that is not Running does not fetch. -/
theorem step_of_not_running {s : State} (h : s.running = false) : step s = .next s := by
  simp [step, h]

/-- Run tests whether to stop before its first Step, whatever the limit. -/
theorem State.run_of_runStop {s : State} {out : RunOutcome} (h : s.runStop = some out) (limit : Nat) :
    s.run limit = .next ((out, 0), s) := by
  cases limit <;> simp [State.run, State.runLoop, h]

theorem State.runStop_of_halted {s : State} (hh : s.halted = true) (hf : s.fault = none) :
    s.runStop = some .halted := by
  simp [State.runStop, hh, hf]

/-! ### The flags (10_state.md R37) -/

/-- The low four bits of the sign-extended operand are those of the field (30_encoding.md R109). -/
theorem operandOf_low_toNat (h : Half) : ((operandOf h).extractLsb' 0 4).toNat = h.toNat % 16 := by
  have hbits : (operandOf h).extractLsb' 0 4 = h.extractLsb' 0 4 := by
    apply BitVec.eq_of_getLsbD_eq
    intro k hk
    rw [BitVec.getLsbD_extractLsb', BitVec.getLsbD_extractLsb', operandOf, BitVec.getLsbD_signExtend]
    simp [show k < 16 by omega, show k < 32 by omega]
  simp [hbits]

theorem operandOk_iff {o : Operand} :
    operandOk o = true ↔ o.mode.toNat < 12 ∧ (o.mode.toNat = 2 → o.imm16.toNat % 16 < 8) := by
  simp [operandOk, modeOk, modeRegOk, imp_iff_not_or]

theorem addrModeOf_two : ∀ m : Nibble, m.toNat = 2 → addrModeOf m = .register := by decide

theorem addrModeOf_illegal : ∀ m : Nibble, 12 ≤ m.toNat → addrModeOf m = .illegal := by decide

theorem State.resolve_illegal_mode {o : Operand} (hm : 12 ≤ o.mode.toNat) (s : State) :
    s.resolve o = .error (.illegalAddressingMode o.mode) := by
  simp only [State.resolve, addrModeOf_illegal o.mode hm]

theorem State.resolve_illegal_register {o : Operand} (hm : o.mode.toNat = 2) (hr : 8 ≤ o.imm16.toNat % 16)
    (s : State) : s.resolve o = .error (.illegalRegister (o.imm16.toNat % 16 : Nat)) := by
  have hc : checkReg (o.imm16.toNat % 16 : Nat) = .error (.illegalRegister (o.imm16.toNat % 16 : Nat)) :=
    checkReg_error_iff.2 ⟨.inr (by exact_mod_cast hr), rfl⟩
  simp only [State.resolve, addrModeOf_two o.mode hm, operandOf_low_toNat, hc]
  rfl

/-- The static check of an operand says when the resolver answers, whatever the state. -/
theorem State.resolve_ok_iff {s : State} {o : Operand} : (∃ v, s.resolve o = .ok v) ↔ operandOk o = true := by
  rw [operandOk_iff]
  constructor
  · rintro ⟨v, hv⟩
    refine ⟨?_, fun hm => ?_⟩
    · by_contra hm
      rw [State.resolve_illegal_mode (by omega)] at hv
      cases hv
    · by_contra hr
      rw [State.resolve_illegal_register hm (by omega)] at hv
      cases hv
  · rintro ⟨hmode, hreg⟩
    cases hv : s.resolve o with
    | ok v => exact ⟨v, rfl⟩
    | error f =>
      rcases State.resolve_error hv with ⟨hm, _⟩ | ⟨hm, hr, _⟩
      · omega
      · rw [operandOf_low_toNat] at hr
        have := hreg hm
        omega

theorem regFieldOk_field (q : Reg) : regFieldOk q.field = true := by
  simpa [regFieldOk] using q.index_lt

/-- TEST and CMP: with legal fields the flags given are overwritten, with an illegal one they are kept and the fault is
taken. -/
theorem State.writeFlags_setFlags {r : Nibble} {o : Operand} {k : Word → Word → Flag} {s t : State}
    (h : s.writeFlags r o k = .next t) (c : Flag) :
    (s.setFlags c).writeFlags r o k =
      .next (if (operandOk o && regFieldOk r) = true then t else t.setFlags c) := by
  have hresolve : (s.setFlags c).resolve o = s.resolve o := (overlay_setFlags c).resolve s o
  unfold State.writeFlags at h ⊢
  cases hv : s.resolve o with
  | error f =>
    have hbad : ¬ operandOk o = true := by simp [← State.resolve_ok_iff (s := s), hv]
    rw [State.withRegOperand_resolve_error hv] at h
    cases h
    rw [State.withRegOperand_resolve_error (hresolve.trans hv), if_neg (by simp [hbad])]
    rfl
  | ok v =>
    have hgood : operandOk o = true := State.resolve_ok_iff.1 ⟨v, hv⟩
    cases hq : regOf r with
    | error f =>
      obtain ⟨hr, -⟩ := regOf_error_iff.1 hq
      rw [State.withRegOperand_reg_error hv hr] at h
      cases h
      rw [State.withRegOperand_reg_error (hresolve.trans hv) hr, if_neg (by simp [regFieldOk, hr])]
      rfl
    | ok q =>
      obtain rfl := regOf_ok_iff.1 hq
      rw [State.withRegOperand_ok hv] at h
      cases h
      rw [State.withRegOperand_ok (hresolve.trans hv), if_pos (by simp [hgood, regFieldOk_field])]
      rfl

/-- The instructions that neither read nor write the flags pass the flags they are given on. -/
theorem exec_setFlags {i : Instr} {s t : State} (h : exec i s = .next t) (hread : ¬ i.readsFlags)
    (hwrite : ¬ (i.mnemonic = .test ∨ i.mnemonic = .cmp)) (c : Flag) :
    exec i (s.setFlags c) = .next (t.setFlags c) :=
  (overlay_setFlags c).exec (fun hr => absurd hr hread) (fun hw => absurd hw hwrite) (fun _ _ => rfl) s t h

/-- TEST and CMP overwrite the flags they are given, if their fields are legal. -/
theorem exec_setFlags_of_writes {i : Instr} {s t : State} (h : exec i s = .next t)
    (hwrite : i.mnemonic = .test ∨ i.mnemonic = .cmp) (c : Flag) :
    exec i (s.setFlags c) = .next (if i.wellFormed = true then t else t.setFlags c) := by
  cases i with
  | test r o =>
    rw [exec_test] at h ⊢
    exact State.writeFlags_setFlags h c
  | cmp r o =>
    rw [exec_cmp] at h ⊢
    exact State.writeFlags_setFlags h c
  | _ => simp [Instr.mnemonic] at hwrite

theorem Flag.value_injective : Function.Injective Flag.value := by
  intro a b
  cases a <;> cases b <;> decide

/-! ### The obligations -/

/-- Settles O40: the halted bit is kept since giving it a value commutes with every instruction but HLT. -/
theorem haltStopsTheCore : Obligations.HaltStopsTheCore := by
  unfold Obligations.HaltStopsTheCore
  refine ⟨rfl, fun _ => rfl, does_hlt, fun _ _ _ h hi => exec_halted_of_ne_hlt h hi, fun s hh => ?_, ?_⟩
  · exact step_of_not_running (by simp [State.running, hh])
  · exact fun s limit hh hf => State.run_of_runStop (State.runStop_of_halted hh hf) limit

/-- Settles O51: giving the flags commutes with every instruction that neither reads nor writes them, and TEST and CMP,
which do write them, are taken apart by their checks. -/
theorem onlyConditionalJumpsReadTheFlags : Obligations.OnlyConditionalJumpsReadTheFlags := by
  unfold Obligations.OnlyConditionalJumpsReadTheFlags
  refine ⟨fun i s t c hread h => ?_, fun s u => Flag.value_injective.eq_iff⟩
  by_cases hwrite : i.mnemonic = .test ∨ i.mnemonic = .cmp
  · simpa only [hwrite, true_and] using exec_setFlags_of_writes h hwrite c
  · simpa only [hwrite, false_and, if_false] using exec_setFlags h hread hwrite c

end Sys2Proof.Machine

/-! The proofs of the statements about 20_memory.md. The spec bounds the last byte of an access (R63, R66), the model its
end; the lemma below says that these are one test, and each statement is then its operation's two cases. -/

namespace Sys2Proof.Machine

/-- The last byte of an access lies past memory exactly if its end does: an access has at least one byte. -/
theorem lastByte_gt_iff (a : Word) (n : Width) :
    a.toNat + n.bytes - 1 > 0xFFFF ↔ Config.memSize < a.toNat + n.bytes := by
  have hpos := n.bytes_pos
  show _ ↔ 0x10000 < _
  omega

/-- Settles O9: in memory the bytes read are the little-endian sum, past its end the access faults. -/
theorem memReadIsLittleEndian : Obligations.MemReadIsLittleEndian := by
  unfold Obligations.MemReadIsLittleEndian
  intro s a w
  simp only [lastByte_gt_iff]
  rcases s.memRead_eq a w with ⟨v, hread, hsum, hin⟩ | ⟨hfault, hout⟩
  · rw [if_neg (Nat.not_lt.2 hin)]
    exact ⟨v, hread, hsum.trans (littleEndian_eq s a.toNat w.bytes).symm⟩
  · rwa [if_pos hout]

/-- Settles O10: in memory the state written looks like the old one with the bytes stored, past its end the access faults
and there is no state written. -/
theorem memWriteIsAllOrNothing : Obligations.MemWriteIsAllOrNothing := by
  unfold Obligations.MemWriteIsAllOrNothing
  intro s a v w
  simp only [lastByte_gt_iff]
  rcases s.memWrite_eq a w v with ⟨hwrite, hin⟩ | ⟨hfault, hout⟩
  · rw [if_neg (Nat.not_lt.2 hin)]
    exact ⟨_, hwrite, s.view_writeLE a.toNat v w.bytes⟩
  · rwa [if_pos hout]

end Sys2Proof.Machine

/-! The proof of the statement about the operand field of 30_encoding.md. The sign extension is written as an append once,
and the two cases of the statement are the values of its upper half. -/

namespace Sys2Proof.Machine

/-- The upper half of the operand repeats the sign bit of the field (30_encoding.md R103). -/
theorem operandOf_eq_append (h : Half) :
    operandOf h = (if h.getLsbD 15 then BitVec.allOnes 16 else 0#16) ++ h := by
  rw [operandOf, BitVec.signExtend_eq_append_of_le (by decide), BitVec.msb_eq_getLsbD_last]
  rfl

/-- Settles O6: the two cases of the sign bit. -/
theorem operandIsSignExtended : Obligations.OperandIsSignExtended := by
  unfold Obligations.OperandIsSignExtended
  intro h
  constructor
  · intro hset
    rw [operandOf_eq_append, if_pos hset]
    rfl
  · intro hclear
    rw [operandOf_eq_append, if_neg (ne_true_of_eq_false hclear)]

end Sys2Proof.Machine

/-! The proofs of the statements about 40_data_movement.md, and of the two float moves of 42_float.md. An instruction that
resolves an operand and checks a register has its decoding and its checks from that shape alone; the rules of an update, a
load and a store are proved once for each of these shapes, and each instruction is then one of the three. -/

namespace Sys2Proof.Machine

/-! ### Instructions with a register and a resolved operand -/

/-- The instructions of one mnemonic that keeps all three fields. -/
theorem decodesFull_of_instrOf {b : Byte} {k : Mnemonic} {ins : Nibble → Operand → Instr} (hk : opc k = b)
    (hins : ∀ r mode imm, instrOf k r mode imm = ins r ⟨mode, imm⟩) : DecodesFull b ins := by
  intro w hw
  rw [decodeWord_of_opcode hk hw, hins]

/-- The instructions `ins` have the shape `State.withRegOperand`, with the action given. -/
def ActsBy (ins : Nibble → Operand → Instr) (act : State → Reg → Word → Except FaultRecord State) : Prop :=
  ∀ r o s, exec (ins r o) s = s.withRegOperand r o (act s)

section Shapes

variable {b : Byte} {k : Mnemonic} {ins : Nibble → Operand → Instr}
  {act : State → Reg → Word → Except FaultRecord State} {s t : State} {o : Operand} {v : Word} {q : Reg}

/-- The order of the checks is that of the shape, whatever the action. -/
theorem ActsBy.checksInOrder (hact : ActsBy ins act) : ChecksInOrder ins := by
  constructor
  · intro s r o f hf
    exact ⟨s.takeFault f, (hact r o s).trans (State.withRegOperand_resolve_error hf r _), s.view_takeFault f⟩
  · intro s r o v hv hr
    exact ⟨_, (hact r o s).trans (State.withRegOperand_reg_error hv hr _), s.view_takeFault _⟩

/-- With both checks passed, an action that answers is what the instruction does. -/
theorem ActsBy.does_of_ok (hact : ActsBy ins act) (hv : s.resolve o = .ok v) (ht : act s q v = .ok t) :
    Does (ins q.field o) s t.view :=
  ⟨t, by rw [hact, State.withRegOperand_ok hv, ht, State.commit_ok], rfl⟩

/-- With both checks passed, the fault of an action is the fault taken. -/
theorem ActsBy.does_of_error (hact : ActsBy ins act) (hv : s.resolve o = .ok v) {f : FaultRecord}
    (hf : act s q v = .error f) : Does (ins q.field o) s (faulted s f) :=
  ⟨s.takeFault f, by rw [hact, State.withRegOperand_ok hv, hf, State.commit_error], s.view_takeFault f⟩

/-! ### Updates -/

/-- The shape `State.updateWith` follows the rule of an update. -/
theorem updateRule_of_updateWith {f : Word → Word → Word} (hk : opc k = b)
    (hins : ∀ r mode imm, instrOf k r mode imm = ins r ⟨mode, imm⟩)
    (hexec : ∀ r o s, exec (ins r o) s = State.updateWith s r o f) : UpdateRule b ins f := by
  have hact : ActsBy ins fun s q v => pure (s.setReg q (f (s.reg q) v)) := hexec
  refine ⟨decodesFull_of_instrOf hk hins, hact.checksInOrder, fun s q o v hv => ?_⟩
  rw [← State.view_setReg]
  exact hact.does_of_ok hv rfl

/-! ### Loads -/

/-- The action of a load: `x[q] <- f(x[q], bytes)` of the bytes at the address. -/
def State.loadReg (n : Width) (f : Word → Word → Word) (s : State) (q : Reg) (a : Word) : Except FaultRecord State := do
  let w ← s.memRead a n
  pure (s.setReg q (f (s.reg q) w))

theorem State.loadReg_of_ok {n : Width} {a w : Word} (hw : s.memRead a n = .ok w) (f : Word → Word → Word) (q : Reg) :
    s.loadReg n f q a = .ok (s.setReg q (f (s.reg q) w)) := by
  rw [State.loadReg, hw]
  rfl

theorem State.loadReg_of_error {n : Width} {a : Word} {e : FaultRecord} (he : s.memRead a n = .error e)
    (f : Word → Word → Word) (q : Reg) : s.loadReg n f q a = .error e := by
  rw [State.loadReg, he]
  rfl

/-- The action `State.loadReg` follows the rule of a load: the two cases are those of its read. -/
theorem loadRule_of_loadReg {f : Word → Word → Word} (n : Width) (hk : opc k = b)
    (hins : ∀ r mode imm, instrOf k r mode imm = ins r ⟨mode, imm⟩) (hact : ActsBy ins (State.loadReg n f)) :
    LoadRule b ins n.bytes f := by
  refine ⟨decodesFull_of_instrOf hk hins, hact.checksInOrder, fun s q o a ha => ?_⟩
  rcases s.memRead_eq a n with ⟨w, hread, hsum, hin⟩ | ⟨hfault, hout⟩
  · rw [if_pos hin, ← eq_wordAt hsum, ← State.view_setReg]
    exact hact.does_of_ok ha (State.loadReg_of_ok hread f q)
  · rw [if_neg (Nat.not_le.2 hout)]
    exact hact.does_of_error ha (State.loadReg_of_error hfault f q)

/-! ### Stores -/

/-- The action of a store: the low bytes of `g(x[q])` written at the address. -/
def State.storeReg (n : Width) (g : Word → Word) (s : State) (q : Reg) (a : Word) : Except FaultRecord State :=
  s.memWrite a n (g (s.reg q))

/-- The action `State.storeReg` follows the rule of a store: the two cases are those of its write. The rule may name another
word than the model stores, if the bytes stored are the same. -/
theorem storeRule_of_storeReg {f g : Word → Word} (n : Width) (hk : opc k = b)
    (hins : ∀ r mode imm, instrOf k r mode imm = ins r ⟨mode, imm⟩) (hact : ActsBy ins (State.storeReg n g))
    (hbytes : ∀ x, ∀ j < n.bytes, (g x).extractLsb' (8 * j) 8 = (f x).extractLsb' (8 * j) 8) :
    StoreRule b ins n.bytes f := by
  refine ⟨decodesFull_of_instrOf hk hins, hact.checksInOrder, fun s q o a ha => ?_⟩
  rcases s.memWrite_eq a n (g (s.reg q)) with ⟨hwrite, hin⟩ | ⟨hfault, hout⟩
  · rw [if_pos hin, ← storedAt_congr s.byte a.toNat n.bytes (hbytes (s.reg q)), ← State.view_writeLE]
    exact hact.does_of_ok ha hwrite
  · rw [if_neg (Nat.not_le.2 hout)]
    exact hact.does_of_error ha hfault

end Shapes

/-! ### Halves as stored -/

/-- The upper half of a word, stored as two bytes, is the word shifted down. -/
theorem highHalf_setWidth (x : Word) : (highHalf x).setWidth 32 = x >>> 16 := by
  apply BitVec.eq_of_toNat_eq
  have := x.isLt
  rw [BitVec.toNat_setWidth, highHalf, BitVec.extractLsb'_toNat, BitVec.toNat_ushiftRight,
    Nat.shiftRight_eq_div_pow]
  omega

/-- The two bytes of the lower half of a word are the word's own. -/
theorem lowHalf_byte (x : Word) {j : Nat} (hj : j < 2) :
    ((lowHalf x).setWidth 32).extractLsb' (8 * j) 8 = x.extractLsb' (8 * j) 8 := by
  apply BitVec.eq_of_getLsbD_eq
  intro i hi
  have hbit : 8 * j + i < 16 := by omega
  simp [lowHalf, hi, hbit, Nat.lt_trans hbit]

/-! ### The obligations -/

/-- Settles O14: the five moves are updates, with the halves put together as the rules write them. -/
theorem movesFollowTheirRules : Obligations.MovesFollowTheirRules := by
  unfold Obligations.MovesFollowTheirRules
  exact ⟨updateRule_of_updateWith (k := .mov) rfl (fun _ _ _ => rfl) fun _ _ _ => rfl,
    updateRule_of_updateWith (k := .movhi) rfl (fun _ _ _ => rfl) fun _ _ _ => rfl,
    updateRule_of_updateWith (k := .movlo) rfl (fun _ _ _ => rfl) fun _ _ _ => rfl,
    updateRule_of_updateWith (k := .fmovhi) rfl (fun _ _ _ => rfl) fun _ _ _ => rfl,
    updateRule_of_updateWith (k := .fmovlo) rfl (fun _ _ _ => rfl) fun _ _ _ => rfl⟩

/-- Settles O15: the three loads are one action, of one or two bytes. -/
theorem loadsFollowTheirRules : Obligations.LoadsFollowTheirRules := by
  unfold Obligations.LoadsFollowTheirRules
  exact ⟨loadRule_of_loadReg (k := .ld) .one rfl (fun _ _ _ => rfl) fun _ _ _ => rfl,
    loadRule_of_loadReg (k := .ldhi) .two rfl (fun _ _ _ => rfl) fun _ _ _ => rfl,
    loadRule_of_loadReg (k := .ldlo) .two rfl (fun _ _ _ => rfl) fun _ _ _ => rfl⟩

/-- Settles O16: the three stores are one action, and the half that STHI or STLO stores has the bytes that the rule
names. -/
theorem storesFollowTheirRules : Obligations.StoresFollowTheirRules := by
  unfold Obligations.StoresFollowTheirRules
  exact ⟨storeRule_of_storeReg (k := .st) (g := id) .one rfl (fun _ _ _ => rfl) (fun _ _ _ => rfl) fun _ _ _ => rfl,
    storeRule_of_storeReg (k := .sthi) (g := fun x => (highHalf x).setWidth 32) .two rfl (fun _ _ _ => rfl)
      (fun _ _ _ => rfl) fun x _ _ => by rw [highHalf_setWidth],
    storeRule_of_storeReg (k := .stlo) (g := fun x => (lowHalf x).setWidth 32) .two rfl (fun _ _ _ => rfl)
      (fun _ _ _ => rfl) fun x _ hj => lowHalf_byte x hj⟩

end Sys2Proof.Machine

/-! The proof of the statement about ADD, SUB and MUL of 41_integer_arithmetic.md. The model computes on words, the rules
on the signed values they stand for; reduction modulo 2^32 takes the exact operation to the one on words. -/

namespace Sys2Proof.Machine

/-- The library has the sum, the product and the negation of reduced integers, not the difference. -/
theorem ofInt_sub (n : Nat) (a b : Int) : BitVec.ofInt n (a - b) = BitVec.ofInt n a - BitVec.ofInt n b := by
  rw [Int.sub_eq_add_neg, BitVec.ofInt_add, BitVec.ofInt_neg, ← BitVec.sub_eq_add_neg]

/-- Settles O17: the three instructions are updates, and the exact sum, difference and product, taken modulo 2^32, are
those of the words, since `BitVec.ofInt` respects the operations and undoes `BitVec.toInt`. -/
theorem addSubMulWrap : Obligations.AddSubMulWrap := by
  unfold Obligations.AddSubMulWrap
  simp only [BitVec.ofInt_add, ofInt_sub, BitVec.ofInt_mul, BitVec.ofInt_toInt]
  exact ⟨updateRule_of_updateWith (k := .add) rfl (fun _ _ _ => rfl) fun _ _ _ => rfl,
    updateRule_of_updateWith (k := .sub) rfl (fun _ _ _ => rfl) fun _ _ _ => rfl,
    updateRule_of_updateWith (k := .mul) rfl (fun _ _ _ => rfl) fun _ _ _ => rfl⟩

end Sys2Proof.Machine

/-! The proofs of the statements about AND, OR, XOR and TEST of 43_bitwise.md, with CMP of 44_compare_control.md. The three
logic instructions are updates by the library's bitwise operations; TEST and CMP have the shape `State.writeFlags`, and the
model's two flag computations are those of the rules. That no other instruction writes the flags follows from the overlay
that gives the flags the value they have, save for the conditional jumps, which read them and are seen to keep them. -/

namespace Sys2Proof.Machine

/-! ### Writing the flags -/

/-- The shape `State.writeFlags` follows the rule of TEST and CMP. -/
theorem flagRule_of_writeFlags {b : Byte} {k : Mnemonic} {ins : Nibble → Operand → Instr} {c : Word → Word → Flag}
    (hk : opc k = b) (hins : ∀ r mode imm, instrOf k r mode imm = ins r ⟨mode, imm⟩)
    (hexec : ∀ r o s, exec (ins r o) s = State.writeFlags s r o c) : FlagRule b ins c := by
  have hact : ActsBy ins fun s q v => pure (s.setFlags (c (s.reg q) v)) := hexec
  refine ⟨decodesFull_of_instrOf hk hins, hact.checksInOrder, fun s q o v hv => ?_⟩
  rw [← State.view_setFlags]
  exact hact.does_of_ok hv rfl

/-- The conjunction of two words is zero exactly if no bit is set in both. -/
theorem word_and_eq_zero_iff (x v : Word) :
    x &&& v = 0 ↔ ∀ k : Fin 32, ¬ (x.getLsbD k = true ∧ v.getLsbD k = true) := by
  simp only [← Bool.and_eq_true, ← BitVec.getLsbD_and]
  constructor
  · intro hzero k
    simp [hzero]
  · intro hclear
    apply BitVec.eq_of_getLsbD_eq
    intro k hk
    rw [Bool.eq_false_of_not_eq_true (hclear ⟨k, hk⟩)]
    exact BitVec.getLsbD_zero.symm

/-- What TEST writes, bit by bit (43_bitwise.md R209). -/
theorem testFlags_eq (x v : Word) :
    testFlags x v = if ∀ k : Fin 32, ¬ (x.getLsbD k = true ∧ v.getLsbD k = true) then .equal else .less := by
  simp only [testFlags, word_and_eq_zero_iff]

/-- What CMP writes, by the three cases of the signed comparison (44_compare_control.md R220). -/
theorem compareFlags_eq (x v : Word) :
    compareFlags x v = if x.toInt < v.toInt then .less else if x.toInt = v.toInt then .equal else .greater := by
  simp only [compareFlags, ← BitVec.toInt_inj]
  rcases lt_trichotomy x.toInt v.toInt with hlt | heq | hgt
  · rw [if_neg hlt.ne, if_neg hlt.not_gt, if_pos hlt]
  · rw [if_pos heq, if_neg heq.not_lt, if_pos heq]
  · rw [if_neg hgt.ne', if_pos hgt, if_neg hgt.not_gt, if_neg hgt.ne']

/-! ### Keeping the flags (10_state.md R36) -/

/-- A conditional jump keeps the flags: taken it moves the pc, and a fault of its operand touches the latch only. -/
theorem State.jumpIf_flags {s t : State} {o : Operand} {taken : Bool} (h : s.jumpIf o taken = .next t) :
    t.flags = s.flags := by
  unfold State.jumpIf at h
  cases hv : s.resolve o with
  | error f =>
    rw [hv] at h
    cases h
    exact s.takeFault_flags f
  | ok v =>
    rw [hv] at h
    cases h
    split
    · exact s.setPc_flags v
    · rfl

theorem exec_flags_of_reads {i : Instr} {s t : State} (h : exec i s = .next t) (hread : i.readsFlags) :
    t.flags = s.flags := by
  cases i with
  | jeq o | jne o | jgt o | jlt o | jge o | jle o => exact State.jumpIf_flags h
  | _ => simp [Instr.readsFlags, Instr.mnemonic] at hread

/-- An instruction that neither reads nor writes the flags keeps them: giving the flags the value they have changes nothing
before it, and so nothing after it. -/
theorem exec_flags_of_ignores {i : Instr} {s t : State} (h : exec i s = .next t) (hread : ¬ i.readsFlags)
    (hwrite : ¬ (i.mnemonic = .test ∨ i.mnemonic = .cmp)) : t.flags = s.flags := by
  have hsame : exec i s = .next (t.setFlags s.flags) := exec_setFlags h hread hwrite s.flags
  have ht : t = t.setFlags s.flags := by
    rw [h] at hsame
    injection hsame
  rw [ht, State.setFlags_flags]

/-! ### The obligations -/

/-- Settles O28: the three functions are the bitwise operations of words, which the library describes bit by bit. -/
theorem logicFollowsItsRules : Obligations.LogicFollowsItsRules := by
  unfold Obligations.LogicFollowsItsRules
  refine ⟨fun x v => x &&& v, fun x v => x ||| v, fun x v => x ^^^ v, ?_, ?_, ?_, ?_, ?_, ?_⟩
  · exact fun _ _ _ => BitVec.getLsbD_and
  · exact fun _ _ _ => BitVec.getLsbD_or
  · exact fun _ _ _ => BitVec.getLsbD_xor
  · exact updateRule_of_updateWith (k := .and) rfl (fun _ _ _ => rfl) fun _ _ _ => rfl
  · exact updateRule_of_updateWith (k := .or) rfl (fun _ _ _ => rfl) fun _ _ _ => rfl
  · exact updateRule_of_updateWith (k := .xor) rfl (fun _ _ _ => rfl) fun _ _ _ => rfl

/-- Settles O30: TEST and CMP write what the rules name; any other instruction reads the flags, and is a conditional jump,
or ignores them. -/
theorem testAndCompareAloneWriteTheFlags : Obligations.TestAndCompareAloneWriteTheFlags := by
  unfold Obligations.TestAndCompareAloneWriteTheFlags
  simp only [← testFlags_eq, ← compareFlags_eq]
  refine ⟨flagRule_of_writeFlags (k := .test) rfl (fun _ _ _ => rfl) exec_test,
    flagRule_of_writeFlags (k := .cmp) rfl (fun _ _ _ => rfl) exec_cmp, fun i s t h htest hcmp => ?_⟩
  by_cases hread : i.readsFlags
  · exact exec_flags_of_reads h hread
  · exact exec_flags_of_ignores h hread (not_or.2 ⟨htest, hcmp⟩)

end Sys2Proof.Machine

/-! The proof of the statement about JMP, JMPREL and JMPX of 44_compare_control.md. An instruction with an operand and no
register has its checks from that shape alone, as one with both has; JMP and JMPREL are that shape with a jump for its
action, and JMPX resolves nothing. -/

namespace Sys2Proof.Machine

/-! ### Instructions with a resolved operand and no register -/

/-- The instructions of one mnemonic that keeps the mode and the operand field. -/
theorem decodesOperand_of_instrOf {b : Byte} {k : Mnemonic} {ins : Operand → Instr} (hk : opc k = b)
    (hins : ∀ r mode imm, instrOf k r mode imm = ins ⟨mode, imm⟩) : DecodesOperand b ins := by
  intro w hw
  rw [decodeWord_of_opcode hk hw, hins]

/-- The instructions `ins` resolve their operand and commit the action given on its value. -/
def ActsOnOperand (ins : Operand → Instr) (act : State → Word → Except FaultRecord State) : Prop :=
  ∀ o s, exec (ins o) s = s.commit (s.resolve o >>= act s)

section Shapes

variable {ins : Operand → Instr} {act : State → Word → Except FaultRecord State} {s t : State} {o : Operand} {v : Word}

/-- The operand's fault is the instruction's, whatever the action. -/
theorem ActsOnOperand.checksOperand (hact : ActsOnOperand ins act) : ChecksOperand ins := by
  intro s o f hf
  have hexec : exec (ins o) s = .next (s.takeFault f) := by
    rw [hact, hf]
    exact State.commit_error s f
  exact ⟨s.takeFault f, hexec, s.view_takeFault f⟩

/-- With the operand resolved, an action that answers is what the instruction does. -/
theorem ActsOnOperand.does_of_ok (hact : ActsOnOperand ins act) (hv : s.resolve o = .ok v) (ht : act s v = .ok t) :
    Does (ins o) s t.view := by
  have hexec : exec (ins o) s = .next t := by
    rw [hact, hv]
    exact (congrArg s.commit ht).trans (State.commit_ok s t)
  exact ⟨t, hexec, rfl⟩

/-- An action that always moves the pc follows the rule of a jump taken for each of the three flags values. -/
theorem jumpRule_of_setPc {b : Byte} {k : Mnemonic} {target : Word → Word → Word} (hk : opc k = b)
    (hins : ∀ r mode imm, instrOf k r mode imm = ins ⟨mode, imm⟩)
    (hact : ActsOnOperand ins fun s v => pure (s.setPc (target s.pc v))) :
    JumpRule b ins true true true target := by
  refine ⟨decodesOperand_of_instrOf hk hins, hact.checksOperand, fun s o v hv => ?_⟩
  have hjump : Does (ins o) s { s.view with pc := target s.pc v } := by
    rw [← State.view_setPc]
    exact hact.does_of_ok hv rfl
  cases s.flags with
  | less | equal | greater => exact hjump

end Shapes

/-! ### The obligation -/

/-- JMPX goes to its sign-extended operand field from every state. -/
theorem does_jmpx (s : State) (t : Half) : Does (.jmpx t) s { s.view with pc := t.signExtend 32 } :=
  ⟨s.setPc (operandOf t), State.commit_ok s _, s.view_setPc _⟩

/-- Settles O33: JMP and JMPREL are jumps on their resolved operand, and JMPX, which resolves none, decodes from its
opcode byte and jumps from every state. -/
theorem unconditionalJumpsFollowTheirRules : Obligations.UnconditionalJumpsFollowTheirRules := by
  unfold Obligations.UnconditionalJumpsFollowTheirRules
  refine ⟨jumpRule_of_setPc (k := .jmp) rfl (fun _ _ _ => rfl) fun _ _ => rfl,
    jumpRule_of_setPc (k := .jmprel) rfl (fun _ _ _ => rfl) fun _ _ => rfl, fun w hw => ?_, does_jmpx⟩
  exact decodeWord_of_opcode (k := .jmpx) rfl hw

end Sys2Proof.Machine

/-! The proof of the statement about the host's observers of 70_reset_and_hazards.md: an observer copies its item of the
state, but for the flags, which it shows as the number of 10_state.md R35. -/

namespace Sys2Proof.Machine

/-! ### What the observers show -/

@[simp] theorem State.observe_pc (s : State) : s.observe.pc = s.pc := rfl

@[simp] theorem State.observe_flags (s : State) : s.observe.flags = s.flags.value := rfl

@[simp] theorem State.observe_halted (s : State) : s.observe.halted = s.halted := rfl

@[simp] theorem State.observe_fault (s : State) : s.observe.fault = s.fault := rfl

/-! ### The obligation -/

/-- Settles O60: three items are shown as they are, and the flags' number is R35's in each of the three cases. -/
theorem hostObservesPcFlagsAndLatches : Obligations.HostObservesPcFlagsAndLatches := by
  unfold Obligations.HostObservesPcFlagsAndLatches
  refine fun s => ⟨s.observe_pc, s.observe_halted, s.observe_fault, ?_⟩
  rw [s.observe_flags]
  cases s.flags with
  | less | equal | greater => rfl

end Sys2Proof.Machine

/-! The proofs of the statements about the instruction word of 30_encoding.md. A word decodes to an instruction exactly if
its opcode byte is the mnemonic's and its fields are the ones the instruction holds; the round trip, the fields that matter
and the bytes that are refused follow from this. -/

namespace Sys2Proof.Machine

/-! ### The decoder and the encoder -/

/-- The instruction that an instruction's own mnemonic and fields make is itself. -/
theorem instrOf_fieldsOf (i : Instr) : instrOf i.mnemonic (fieldsOf i).1 (fieldsOf i).2.1 (fieldsOf i).2.2 = i := by
  cases i <;> rfl

/-- The round trip for one instruction, under an assignment that gives no byte twice. -/
theorem decodeWith_encodeWith {m : OpcodeMap} (hm : Function.Injective m) (i : Instr) :
    decodeWith m (encodeWith m i) = .ok i := by
  unfold decodeWith
  rw [opcodeField_encodeWith, mnemonicOf_self hm, regField_encodeWith, modeField_encodeWith, immField_encodeWith]
  exact congrArg Except.ok (instrOf_fieldsOf i)

theorem decodeWord_encode (i : Instr) : decodeWord (encode i) = .ok i := decodeWith_encodeWith opc_injective i

/-- A word decodes to an instruction exactly if it has the instruction's opcode byte and fields. -/
theorem decodeWord_ok_iff {w : Word} {i : Instr} :
    decodeWord w = .ok i ↔
      opcodeField w = opc i.mnemonic ∧ instrOf i.mnemonic (regField w) (modeField w) (immField w) = i := by
  constructor
  · intro h
    obtain ⟨k, hk, rfl⟩ := decodeWith_ok h
    rw [mnemonic_instrOf]
    exact ⟨hk.symm, rfl⟩
  · rintro ⟨hop, hfields⟩
    rw [decodeWord_of_opcode rfl hop, hfields]

/-- Two choices of fields make one instruction exactly if they agree on the fields that the mnemonic uses. -/
theorem instrOf_eq_iff (k : Mnemonic) (r r' mode mode' : Nibble) (imm imm' : Half) :
    instrOf k r mode imm = instrOf k r' mode' imm' ↔
      (k.usesReg = true → r = r') ∧ (k.usesMode = true → mode = mode') ∧ (k.usesOperand = true → imm = imm') := by
  cases k <;> simp [instrOf, Mnemonic.usesReg, Mnemonic.usesMode, Mnemonic.usesOperand]

/-! ### The four bytes -/

theorem wordOfBytes_toNat (b0 b1 b2 b3 : Byte) :
    (wordOfBytes b0 b1 b2 b3).toNat = b0.toNat + 256 * (b1.toNat + 256 * (b2.toNat + 256 * b3.toNat)) := by
  rw [wordOfBytes, BitVec.toNat_append, BitVec.toNat_append, BitVec.toNat_append,
    ← Nat.shiftLeft_add_eq_or_of_lt b2.isLt, ← Nat.shiftLeft_add_eq_or_of_lt b1.isLt,
    ← Nat.shiftLeft_add_eq_or_of_lt b0.isLt]
  simp only [Nat.shiftLeft_eq]
  omega

theorem opcodeField_toNat (w : Word) : (opcodeField w).toNat = w.toNat % 2 ^ 8 := by
  simp [opcodeField]

theorem regField_toNat (w : Word) : (regField w).toNat = w.toNat / 2 ^ 8 % 2 ^ 4 := by
  simp [regField, Nat.shiftRight_eq_div_pow]

theorem modeField_toNat (w : Word) : (modeField w).toNat = w.toNat / 2 ^ 12 % 2 ^ 4 := by
  simp [modeField, Nat.shiftRight_eq_div_pow]

theorem immField_toNat (w : Word) : (immField w).toNat = w.toNat / 2 ^ 16 % 2 ^ 16 := by
  simp [immField, Nat.shiftRight_eq_div_pow]

theorem opcodeField_wordOfBytes (b0 b1 b2 b3 : Byte) : opcodeField (wordOfBytes b0 b1 b2 b3) = b0 := by
  apply BitVec.eq_of_toNat_eq
  rw [opcodeField_toNat, wordOfBytes_toNat]
  omega

/-- Decoding the bytes of a word is decoding the word, and leaves the bytes after it. -/
theorem decodeBytes_bytesOfWord {w : Word} {i : Instr} (h : decodeWord w = .ok i) (rest : List Byte) :
    decodeBytes (bytesOfWord w ++ rest) = .ok (i, rest) := by
  simp only [bytesOfWord, List.cons_append, List.nil_append, decodeBytes, wordOfBytes_bytes, h]

/-! ### The unassigned bytes -/

/-- The table of 30_encoding.md R120 read backwards, at each of the 256 bytes. -/
theorem mnemonicOf_opc_eq_none_iff : ∀ b : Byte, mnemonicOf opc b = none ↔
    (b.toNat = 0x00 ∨ (0x0D ≤ b.toNat ∧ b.toNat ≤ 0x0F) ∨ (0x18 ≤ b.toNat ∧ b.toNat ≤ 0x1F) ∨
      (0x28 ≤ b.toNat ∧ b.toNat ≤ 0x2F) ∨ (0x39 ≤ b.toNat ∧ b.toNat ≤ 0x3F) ∨ (0x4C ≤ b.toNat ∧ b.toNat ≤ 0x4F) ∨
      (0x52 ≤ b.toNat ∧ b.toNat ≤ 0x5F) ∨ 0x61 ≤ b.toNat) := by
  decide +kernel

theorem decodeWord_of_unassigned {w : Word} (h : mnemonicOf opc (opcodeField w) = none) :
    decodeWord w = .error (.unassignedOpcode (opcodeField w)) := by
  rw [decodeWord, decodeWith, h]

theorem decodeWord_of_assigned {w : Word} (h : mnemonicOf opc (opcodeField w) ≠ none) : ∃ i, decodeWord w = .ok i := by
  obtain ⟨k, hk⟩ := Option.ne_none_iff_exists'.1 h
  exact ⟨_, decodeWord_of_opcode (mnemonicOf_some hk) rfl⟩

/-! ### The obligations -/

/-- Settles O1: the encoder's fields are read back one by one, and an injective assignment reads the mnemonic back. -/
theorem decodeInvertsEncode : Obligations.DecodeInvertsEncode := by
  unfold Obligations.DecodeInvertsEncode
  exact ⟨decodeWord_encode, fun _ hm => decodeWith_encodeWith hm⟩

/-- Settles O2: both words make the instruction from their fields, and only the fields its mnemonic uses count. -/
theorem decodeReadsExactlyTheUsedFields : Obligations.DecodeReadsExactlyTheUsedFields := by
  unfold Obligations.DecodeReadsExactlyTheUsedFields
  intro w w' i h
  obtain ⟨hop, hfields⟩ := decodeWord_ok_iff.1 h
  rw [decodeWord_ok_iff, hop, ← instrOf_eq_iff, hfields]

/-- Settles O3: each field is a digit of the word that the four bytes make. -/
theorem instructionBytesLieLittleEndian : Obligations.InstructionBytesLieLittleEndian := by
  unfold Obligations.InstructionBytesLieLittleEndian
  refine ⟨fun b0 b1 b2 b3 => ?_, fun i rest => decodeBytes_bytesOfWord (decodeWord_encode i) rest⟩
  have h0 := b0.isLt
  have h1 := b1.isLt
  have h2 := b2.isLt
  have h3 := b3.isLt
  rw [regField_toNat, modeField_toNat, immField_toNat, wordOfBytes_toNat]
  refine ⟨opcodeField_wordOfBytes b0 b1 b2 b3, ?_, ?_, ?_⟩ <;> omega

/-- Settles O4: each word has the opcode byte and the fields of its instruction. -/
theorem wordsOfTheSpecDecode : Obligations.WordsOfTheSpecDecode := by
  unfold Obligations.WordsOfTheSpecDecode
  simp only [decodeWord_ok_iff]
  decide

/-- Settles O5: the decoder refuses a word for its opcode byte alone. -/
theorem unassignedBytesAreRefused : Obligations.UnassignedBytesAreRefused := by
  unfold Obligations.UnassignedBytesAreRefused
  intro w
  simp only [← mnemonicOf_opc_eq_none_iff]
  split
  case isTrue h => exact decodeWord_of_unassigned h
  case isFalse h => exact decodeWord_of_assigned h

end Sys2Proof.Machine

/-! The proofs of the statements about the register check and the resolver of 30_encoding.md and about the accesses, the
stack and the fetch of 20_memory.md. Push and Pop are taken apart once by the bounds that the spec writes, ESP read as a
signed number; the instructions over the stack cite these cases. -/

namespace Sys2Proof.Machine

/-! ### The resolver, row by row -/

theorem addrModeOf_immediate : ∀ m : Nibble, m.toNat = 0 ∨ m.toNat = 1 → addrModeOf m = .immediate := by decide

theorem addrModeOf_heapRelative : ∀ m : Nibble, m.toNat = 3 → addrModeOf m = .heapRelative := by decide

theorem addrModeOf_basePlus (q : Reg) (hq : q.index ≤ 5) :
    ∀ m : Nibble, m.toNat = q.index + 4 → addrModeOf m = .basePlus q := by
  cases q with
  | eax | ebx | ecx | edx | esi | edi => decide
  | ebp | esp => exact absurd hq (by decide)

theorem addrModeOf_baseMinus_ebp : ∀ m : Nibble, m.toNat = 10 → addrModeOf m = .baseMinus .ebp := by decide

theorem addrModeOf_baseMinus_esp : ∀ m : Nibble, m.toNat = 11 → addrModeOf m = .baseMinus .esp := by decide

/-- The low four bits of the operand are those of its field. -/
theorem operandOf_mod_sixteen (h : Half) : (operandOf h).toNat % 16 = h.toNat % 16 := by
  rw [← operandOf_low_toNat]
  simp

theorem State.resolve_register {o : Operand} {q : Reg} (hm : o.mode.toNat = 2) (hq : o.imm16.toNat % 16 = q.index)
    (s : State) : s.resolve o = .ok (s.reg q) := by
  have hc : checkReg ((operandOf o.imm16).extractLsb' 0 4).toNat = .ok q := by
    rw [checkReg_ok_iff, operandOf_low_toNat, hq]
  simp only [State.resolve, addrModeOf_two o.mode hm, hc]
  rfl

/-! ### Parts of a word in memory -/

/-- Some of the bytes just written, read as a number: the word without the bytes below and above them. -/
theorem Memory.readLE_writeLE_within (m : Memory) (a : Nat) (v : Word) (n : Nat) {j k : Nat} (h : j + k ≤ n) :
    Memory.readLE (Memory.writeLE m a v n) (a + j) k = v.toNat / 256 ^ j % 256 ^ k := by
  induction k generalizing j with
  | zero => simp [Memory.readLE, Nat.mod_one]
  | succ k ih =>
    have hbyte : (Memory.read (Memory.writeLE m a v n) (a + j)).toNat = v.toNat / 256 ^ j % 256 := by
      rw [Memory.read_writeLE, if_pos (by omega), Nat.add_sub_cancel_left, BitVec.toNat_setWidth,
        BitVec.toNat_ushiftRight, Nat.shiftRight_eq_div_pow, Nat.pow_mul]
    rw [Memory.readLE, hbyte, Nat.add_assoc, ih (by omega), Nat.pow_succ 256 j, Nat.pow_succ' (m := 256),
      Nat.mod_mul, Nat.div_div_eq_div_mul]

/-- A read inside memory, from the number its bytes make. -/
theorem State.memRead_of_readLE {s : State} {a v : Word} {n : Width} (hin : a.toNat + n.bytes ≤ Config.memSize)
    (hv : Memory.readLE s.mem a.toNat n.bytes = v.toNat) : s.memRead a n = .ok v := by
  rcases s.memRead_eq a n with ⟨w, hread, hw, -⟩ | ⟨-, hout⟩
  · rw [hread, BitVec.eq_of_toNat_eq (hw.trans hv)]
  · omega

/-- After a write of a word at `a`, a read of some of its bytes gives that part of the word. -/
theorem State.memRead_writeLE {s : State} {a b v w : Word} {n : Width} {j : Nat} (hin : a.toNat + 4 ≤ Config.memSize)
    (hb : b.toNat = a.toNat + j) (hj : j + n.bytes ≤ 4) (hw : w.toNat = v.toNat / 256 ^ j % 256 ^ n.bytes) :
    (s.setMem (Memory.writeLE s.mem a.toNat v 4)).memRead b n = .ok w := by
  refine State.memRead_of_readLE (by omega) ?_
  rw [State.setMem_mem, hb, Memory.readLE_writeLE_within s.mem a.toNat v 4 hj, hw]

/-! ### Push and Pop by the bounds of the spec -/

/-- ESP read as a signed number is its address where it is not negative. -/
theorem toNat_of_toInt_nonneg {sp : Word} (h : 0 ≤ sp.toInt) : (sp.toNat : Int) = sp.toInt := by
  rw [BitVec.toInt_eq_toNat_cond] at h ⊢
  have := sp.isLt
  split_ifs at h ⊢ <;> omega

theorem toNat_of_toInt_neg {sp : Word} (h : sp.toInt < 0) : 2 ^ 31 ≤ sp.toNat := by
  rw [BitVec.toInt_eq_toNat_cond] at h
  split at h <;> omega

theorem toNat_sub_four {sp : Word} (h : 4 ≤ sp.toInt) : ((sp - 4).toNat : Int) = sp.toInt - 4 := by
  have hsp := toNat_of_toInt_nonneg (sp := sp) (by omega)
  rw [BitVec.toNat_sub_of_le (by rw [BitVec.le_def]; simp; omega)]
  simp
  omega

/-- What a push that does not fault leaves: the word below ESP, and ESP there. -/
def State.pushed (s : State) (val : Word) : State :=
  (s.setMem (Memory.writeLE s.mem (s.reg .esp - 4).toNat val 4)).setReg .esp (s.reg .esp - 4)

/-- What a pop that does not fault leaves: ESP moved up. -/
def State.popped (s : State) : State := s.setReg .esp (s.reg .esp + 4)

theorem State.view_pushed (s : State) (val : Word) :
    (s.pushed val).view =
      { withReg s .esp (s.reg .esp - 4) with byte := storedAt s.byte (s.reg .esp - 4).toNat 4 val } := by
  rw [State.pushed, State.view_setReg, withReg, State.view_writeLE]
  rfl

theorem State.push_of_overflow {s : State} (val : Word) (h : (s.reg .esp).toInt - 4 < 0xC000) :
    s.push val = .error (.stackFault .overflow) := if_pos h

theorem State.push_of_outside {s : State} (val : Word) (hbase : ¬ (s.reg .esp).toInt - 4 < 0xC000)
    (hout : 0x10000 < (s.reg .esp).toInt) : s.push val = .error (.memoryFault (s.reg .esp - 4)) := by
  cases h : s.push val with
  | ok t =>
    obtain ⟨-, hin, -⟩ := State.push_ok h
    have := toNat_sub_four (sp := s.reg .esp) (by omega)
    have : (s.reg .esp - 4).toNat + 4 ≤ 0x10000 := hin
    omega
  | error f =>
    rcases State.push_error h with ⟨hlow, -⟩ | ⟨-, -, rfl⟩
    · exact absurd hlow hbase
    · rfl

theorem State.push_of_inside {s : State} (val : Word) (hbase : ¬ (s.reg .esp).toInt - 4 < 0xC000)
    (hin : ¬ 0x10000 < (s.reg .esp).toInt) : s.push val = .ok (s.pushed val) := by
  have := toNat_sub_four (sp := s.reg .esp) (by omega)
  refine State.push_of_bounds val (Int.not_lt.1 hbase) ?_
  show (s.reg .esp - 4).toNat + 4 ≤ 0x10000
  omega

theorem State.pop_of_underflow {s : State} (h : 0xFFFF < (s.reg .esp).toInt + 4) :
    s.pop = .error (.stackFault .underflow) := if_pos h

theorem State.pop_of_negative {s : State} (hend : ¬ 0xFFFF < (s.reg .esp).toInt + 4) (hneg : (s.reg .esp).toInt < 0) :
    s.pop = .error (.memoryFault (s.reg .esp)) := by
  cases h : s.pop with
  | ok r =>
    obtain ⟨-, hin, -⟩ := State.pop_ok h
    have := toNat_of_toInt_neg hneg
    have : (s.reg .esp).toNat + 4 ≤ 0x10000 := hin
    omega
  | error f =>
    rcases State.pop_error h with ⟨hlow, -⟩ | ⟨-, -, rfl⟩
    · exact absurd hlow hend
    · rfl

theorem State.pop_of_inside {s : State} (hend : ¬ 0xFFFF < (s.reg .esp).toInt + 4) (hneg : ¬ (s.reg .esp).toInt < 0) :
    s.pop = .ok (wordAt s (s.reg .esp) 4, s.popped) := by
  have := toNat_of_toInt_nonneg (Int.not_lt.1 hneg)
  have hin : (s.reg .esp).toNat + 4 ≤ Config.memSize := by
    show (s.reg .esp).toNat + 4 ≤ 0x10000
    omega
  rw [State.pop_of_bounds (Int.not_lt.1 hend) hin, wordAt, littleEndian_eq]
  rfl

/-! ### The fetch -/

/-- A fetch, by the last byte it reads. -/
theorem State.fetch_eq (s : State) :
    s.fetch = if 0xFFFF < s.pc.toNat + 3 then .error (.memoryFault s.pc)
      else .ok (BitVec.ofNat 32 (littleEndian s.byte s.pc.toNat 4)) := by
  rw [State.fetch, State.memRead, littleEndian_eq]
  by_cases h : 0xFFFF < s.pc.toNat + 3
  · rw [if_pos h, if_neg (by simp [Width.bytes, Config.memSize]; omega)]
  · rw [if_neg h, if_pos (by simp [Width.bytes, Config.memSize]; omega)]
    rfl

/-! ### The obligations -/

/-- Settles O7: an index from 0 to 7 is some register's, and any other is the fault's. -/
theorem registerCheckAcceptsZeroToSeven : Obligations.RegisterCheckAcceptsZeroToSeven := by
  unfold Obligations.RegisterCheckAcceptsZeroToSeven
  intro i
  split
  case isTrue h =>
    obtain ⟨q, -, hq⟩ := Reg.ofNat?_of_lt (n := i.toNat) (by omega)
    have hi : (q.index : Int) = i := by omega
    exact ⟨q, hi, checkReg_ok_iff.2 hi.symm⟩
  case isFalse h => exact checkReg_error_iff.2 ⟨by omega, rfl⟩

/-- Settles O8: each mode has its row of the table, and each row its value. -/
theorem resolverFollowsItsTable : Obligations.ResolverFollowsItsTable := by
  unfold Obligations.ResolverFollowsItsTable
  intro s o
  simp only [operandOf_mod_sixteen]
  refine ⟨fun hm => ?_, fun hm q hq => State.resolve_register hm hq s,
    fun hm hr => State.resolve_illegal_register hm hr s, fun hm => ?_, fun q hq hm => ?_, fun hm => ?_, fun hm => ?_,
    fun hm => State.resolve_illegal_mode hm s⟩
  · simp only [State.resolve, addrModeOf_immediate o.mode hm]
  · simp only [State.resolve, addrModeOf_heapRelative o.mode hm]
  · simp only [State.resolve, addrModeOf_basePlus q hq o.mode hm]
  · simp only [State.resolve, addrModeOf_baseMinus_ebp o.mode hm]
  · simp only [State.resolve, addrModeOf_baseMinus_esp o.mode hm]

/-- Settles O11: each of the four reads is of some of the bytes written. -/
theorem mixedWidthAccessesAgree : Obligations.MixedWidthAccessesAgree := by
  unfold Obligations.MixedWidthAccessesAgree
  intro s a v ha
  have hin : a.toNat + 4 ≤ Config.memSize := by
    show a.toNat + 4 ≤ 0x10000
    omega
  have hv := v.isLt
  have hlow : (v &&& 0xFF#32).toNat = v.toNat % 2 ^ 8 := Nat.and_two_pow_sub_one_eq_mod v.toNat 8
  have hmiddle : ((v >>> 8) &&& 0xFFFF#32).toNat = v.toNat / 2 ^ 8 % 2 ^ 16 := by
    rw [← Nat.shiftRight_eq_div_pow]
    exact Nat.and_two_pow_sub_one_eq_mod (v.toNat >>> 8) 16
  rcases s.memWrite_eq a .four v with ⟨hwrite, -⟩ | ⟨-, hout⟩
  · refine ⟨_, hwrite, State.memRead_writeLE (j := 0) hin rfl (by decide) ?_,
      State.memRead_writeLE (j := 0) hin rfl (by decide) ?_, State.memRead_writeLE (j := 1) hin ?_ (by decide) ?_,
      State.memRead_writeLE (j := 3) hin ?_ (by decide) ?_⟩
    · simpa [Width.bytes] using (Nat.mod_eq_of_lt hv).symm
    · rw [hlow, Nat.pow_zero, Nat.div_one]
      rfl
    · simp; omega
    · rw [hmiddle]
      rfl
    · simp; omega
    · simp [Width.bytes, Nat.shiftRight_eq_div_pow]
      omega
  · exact absurd hin (by simpa [Width.bytes] using hout)

/-- Settles O12: the three cases of each operation, in the order of its tests. -/
theorem pushAndPopFollowTheirRules : Obligations.PushAndPopFollowTheirRules := by
  unfold Obligations.PushAndPopFollowTheirRules
  refine ⟨fun s val => ?_, fun s => ?_⟩
  · dsimp only
    split_ifs with hbase hout
    · exact State.push_of_overflow val hbase
    · exact State.push_of_outside val hbase hout
    · exact ⟨_, State.push_of_inside val hbase hout, s.view_pushed val⟩
  · dsimp only
    split_ifs with hend hneg
    · exact State.pop_of_underflow hend
    · exact State.pop_of_negative hend hneg
    · exact ⟨_, State.pop_of_inside hend hneg, s.view_setReg _ _⟩

/-- Settles O13: the bytes of the state written are the stored ones, and the fetch reads the bytes of its state. -/
theorem storeIsSeenByTheNextFetch : Obligations.StoreIsSeenByTheNextFetch := by
  unfold Obligations.StoreIsSeenByTheNextFetch
  refine ⟨State.fetch_eq, fun s t a v n h p hp => ?_, fun s t w h => ?_⟩
  · obtain ⟨rfl, -⟩ := State.memWrite_ok h
    have hbytes : (s.setMem (Memory.writeLE s.mem a.toNat v n.bytes)).byte = storedAt s.byte a.toNat n.bytes v :=
      congrArg View.byte (s.view_writeLE a.toNat v n.bytes)
    rw [State.fetch_eq, if_neg (Nat.not_lt.2 hp), ← hbytes]
    rfl
  · obtain ⟨rfl, hin⟩ := State.memWrite_ok h
    refine State.memRead_writeLE (j := 0) hin rfl (by decide) ?_
    simpa [Width.bytes] using (Nat.mod_eq_of_lt w.isLt).symm

end Sys2Proof.Machine

/-! The proofs of the statements about the unary instructions, DIV and MOD of 41_integer_arithmetic.md, NOT, the shifts and
the rotates of 43_bitwise.md, and the float instructions and conversions of 42_float.md as instructions: their decoding,
their checks and what they write. What the float operations give is in the parts below. -/

namespace Sys2Proof.Machine

/-! ### Instructions with a register alone -/

theorem decodesReg_of_instrOf {b : Byte} {k : Mnemonic} {ins : Nibble → Instr} (hk : opc k = b)
    (hins : ∀ r mode imm, instrOf k r mode imm = ins r) : DecodesReg b ins := by
  intro w hw
  rw [decodeWord_of_opcode hk hw, hins]

/-- The instructions `ins` check their register and commit the action given on it. -/
def ActsOnReg (ins : Nibble → Instr) (act : State → Reg → Except FaultRecord State) : Prop :=
  ∀ r s, exec (ins r) s = s.commit (regOf r >>= act s)

section Shapes

variable {b : Byte} {k : Mnemonic} {ins : Nibble → Instr} {act : State → Reg → Except FaultRecord State}

theorem ActsOnReg.checksReg (hact : ActsOnReg ins act) : ChecksReg ins := by
  intro s r hr
  have hexec : exec (ins r) s = .next (s.takeFault (.illegalRegister r.toNat)) := by
    rw [hact, regOf_error_iff.2 ⟨hr, rfl⟩]
    exact State.commit_error s _
  exact ⟨_, hexec, s.view_takeFault _⟩

theorem ActsOnReg.exec_field (hact : ActsOnReg ins act) (q : Reg) (s : State) :
    exec (ins q.field) s = s.commit (act s q) := by
  rw [hact, regOf_field]
  rfl

/-- The shape `State.updateReg` follows the rule of a unary instruction. -/
theorem unaryRule_of_updateReg {f : Word → Word} (hk : opc k = b)
    (hins : ∀ r mode imm, instrOf k r mode imm = ins r)
    (hexec : ∀ r s, exec (ins r) s = State.updateReg s r f) : UnaryRule b ins f := by
  have hact : ActsOnReg ins fun s q => pure (s.setReg q (f (s.reg q))) := hexec
  refine ⟨decodesReg_of_instrOf hk hins, hact.checksReg, fun s q => ?_⟩
  rw [← State.view_setReg]
  exact ⟨_, hact.exec_field q s, rfl⟩

end Shapes

/-! ### Quotient and remainder -/

theorem quotient_eq_sdiv (a b : Word) : quotient a b = a.sdiv b := by
  apply BitVec.eq_of_toInt_eq
  rw [quotient, BitVec.toInt_ofInt, BitVec.toInt_sdiv]

theorem remainder_eq_srem (a b : Word) : remainder a b = a.srem b := by
  apply BitVec.eq_of_toInt_eq
  rw [remainder, ← BitVec.toInt_srem, BitVec.ofInt_toInt]

/-- The one quotient that does not fit wraps to the dividend, and its remainder is 0. -/
theorem divide_overflow {a b : Word} (ha : a.toInt = -2 ^ 31) (hb : b.toInt = -1) :
    quotient a b = 0x80000000#32 ∧ remainder a b = 0 := by
  rw [quotient, remainder, ha, hb]
  decide

/-- Any other quotient fits. -/
theorem quotient_toInt {a b : Word} (h : ¬ (a.toInt = -2 ^ 31 ∧ b.toInt = -1)) :
    (quotient a b).toInt = a.toInt.tdiv b.toInt := by
  rw [quotient_eq_sdiv]
  refine BitVec.toInt_sdiv_of_ne_or_ne a b (not_and_or.1 fun ⟨ha, hb⟩ => h ⟨?_, ?_⟩)
  · rw [ha]; decide
  · rw [hb]; decide

theorem remainder_toInt (a b : Word) : (remainder a b).toInt = a.toInt.tmod b.toInt := by
  rw [remainder_eq_srem, BitVec.toInt_srem]

/-- The remainder of a truncated division is smaller than the divisor. -/
theorem abs_tmod_lt (a : Int) {b : Int} (hb : b ≠ 0) : |a.tmod b| < |b| := by
  rw [Int.abs_eq_natAbs, Int.abs_eq_natAbs, Int.natAbs_tmod]
  exact_mod_cast Nat.mod_lt _ (Int.natAbs_pos.2 hb)

/-- The remainder of a truncated division has the sign of the dividend, where it is not zero. -/
theorem tmod_neg_iff {a b : Int} (h : a.tmod b ≠ 0) : a.tmod b < 0 ↔ a < 0 := by
  rcases lt_or_ge a 0 with ha | ha
  · have := Int.tmod_nonneg b (show 0 ≤ -a by omega)
    rw [Int.neg_tmod] at this
    omega
  · have := Int.tmod_nonneg b ha
    omega

/-- The action of DIV and MOD: `x[q] <- f(x[q], v)`, or the fault of a zero divisor. -/
def State.divideReg (f : Word → Word → Word) (s : State) (q : Reg) (v : Word) : Except FaultRecord State :=
  if v = 0 then .error .arithmeticFault else pure (s.setReg q (f (s.reg q) v))

section Division

variable {ins : Nibble → Operand → Instr} {f : Word → Word → Word} {s : State} {o : Operand} {v : Word}

theorem does_divide_by_zero (hact : ActsBy ins (State.divideReg f)) (hv : s.resolve o = .ok v) (q : Reg) (h : v = 0) :
    Does (ins q.field o) s (faulted s .arithmeticFault) :=
  hact.does_of_error hv (if_pos h)

theorem does_divide (hact : ActsBy ins (State.divideReg f)) (hv : s.resolve o = .ok v) (q : Reg) (h : v ≠ 0) :
    Does (ins q.field o) s (withReg s q (f (s.reg q) v)) := by
  rw [← State.view_setReg]
  exact hact.does_of_ok hv (if_neg h)

end Division

/-! ### Shifts and rotates -/

theorem shiftCount_eq (v : Word) : shiftCount v = v.toNat % 32 := by
  simp [shiftCount]

theorem shiftCount_lt (v : Word) : shiftCount v < 32 := by
  rw [shiftCount_eq]
  exact Nat.mod_lt _ (by decide)

theorem shiftLeft_eq_ofNat (x : Word) (n : Nat) : x <<< n = BitVec.ofNat 32 (x.toNat * 2 ^ n) := by
  apply BitVec.eq_of_toNat_eq
  rw [BitVec.toNat_shiftLeft, BitVec.toNat_ofNat, Nat.shiftLeft_eq]

theorem shiftRight_logical_eq_ofNat (x : Word) (n : Nat) :
    shiftRight .logical x n = BitVec.ofNat 32 (x.toNat / 2 ^ n) := by
  rw [← Nat.shiftRight_eq_div_pow, ← BitVec.toNat_ushiftRight, BitVec.ofNat_toNat, BitVec.setWidth_eq]
  rfl

theorem shiftRight_arithmetic_eq_ofInt (x : Word) (n : Nat) :
    shiftRight .arithmetic x n = BitVec.ofInt 32 (x.toInt / 2 ^ n) := by
  rw [shiftRight, BitVec.sshiftRight_eq, Int.shiftRight_eq_div_pow]
  norm_cast

/-- A word moved up by `m` bits, with the bits that leave at the top entering at the bottom. -/
theorem rotated_bits (x : Word) {m : Nat} (hm : m ≤ 32) :
    x.toNat <<< m % 2 ^ 32 ||| x.toNat >>> (32 - m) = x.toNat * 2 ^ m % 2 ^ 32 + x.toNat / 2 ^ (32 - m) := by
  have hsplit : 2 ^ 32 = 2 ^ (32 - m) * 2 ^ m := by rw [← Nat.pow_add, Nat.sub_add_cancel hm]
  have hlow : x.toNat / 2 ^ (32 - m) < 2 ^ m := by
    rw [Nat.div_lt_iff_lt_mul (by positivity), Nat.mul_comm, ← hsplit]
    exact x.isLt
  have hhigh : x.toNat * 2 ^ m % 2 ^ 32 = (x.toNat % 2 ^ (32 - m)) <<< m := by
    rw [hsplit, Nat.mul_mod_mul_right, Nat.shiftLeft_eq]
  rw [Nat.shiftLeft_eq, hhigh, Nat.shiftRight_eq_div_pow, Nat.shiftLeft_add_eq_or_of_lt hlow]

theorem rotateLeft_eq_ofNat (x : Word) {n : Nat} (hn : n < 32) :
    x.rotateLeft n = BitVec.ofNat 32 (x.toNat * 2 ^ n % 2 ^ 32 + x.toNat / 2 ^ (32 - n)) := by
  have hrot := BitVec.toNat_rotateLeft (x := x) (r := n)
  rw [Nat.mod_eq_of_lt hn] at hrot
  rw [← rotated_bits x hn.le, ← hrot, BitVec.ofNat_toNat, BitVec.setWidth_eq]

theorem rotateRight_eq_ofNat (x : Word) {n : Nat} (hn : n < 32) :
    x.rotateRight n = BitVec.ofNat 32 (x.toNat / 2 ^ n + x.toNat % 2 ^ n * 2 ^ (32 - n)) := by
  have hback : 32 - (32 - n) = n := by omega
  have hsplit : 2 ^ 32 = 2 ^ n * 2 ^ (32 - n) := by rw [← Nat.pow_add, Nat.add_sub_cancel' hn.le]
  have hbits := rotated_bits x (m := 32 - n) (by omega)
  have hhigh : x.toNat * 2 ^ (32 - n) % 2 ^ 32 = x.toNat % 2 ^ n * 2 ^ (32 - n) := by
    rw [hsplit, Nat.mul_mod_mul_right]
  rw [hback, hhigh, Nat.or_comm, Nat.add_comm] at hbits
  apply BitVec.eq_of_toNat_eq
  have hrot : (x.rotateRight n).toNat = x.toNat / 2 ^ n + x.toNat % 2 ^ n * 2 ^ (32 - n) := by
    rw [BitVec.toNat_rotateRight, Nat.mod_eq_of_lt hn, hbits]
  rw [BitVec.toNat_ofNat, ← hrot, Nat.mod_eq_of_lt (x.rotateRight n).isLt]

/-! ### Float instructions -/

theorem State.view_setRegNaN (s : State) (q : Reg) :
    (s.setRegNaN q).view = { withReg s q (nanOf (Config.nanDraw s.draws)) with draws := s.draws + 1 } := by
  rw [State.setRegNaN, State.view_setReg]
  rfl

theorem State.view_setRegInvalid (s : State) (q : Reg) :
    (s.setRegInvalid q).view = { withReg s q (Config.ftoiInvalid s.draws) with draws := s.draws + 1 } := by
  rw [State.setRegInvalid, State.view_setReg]
  rfl

/-- The action of a float instruction: the datum of the operation, or the NaN drawn. -/
def State.floatReg (op : F32 → F32 → Option F32) (s : State) (q : Reg) (v : Word) : Except FaultRecord State :=
  match op ⟨s.reg q⟩ ⟨v⟩ with
  | some f => pure (s.setReg q f.bits)
  | none => pure (s.setRegNaN q)

/-- The shape `State.floatWith` follows the rule of a float instruction: the two cases are those of the operation. -/
theorem floatRule_of_floatWith {b : Byte} {k : Mnemonic} {ins : Nibble → Operand → Instr}
    {op : F32 → F32 → Option F32} (hk : opc k = b) (hins : ∀ r mode imm, instrOf k r mode imm = ins r ⟨mode, imm⟩)
    (hact : ActsBy ins (State.floatReg op)) : FloatRule b ins op := by
  refine ⟨decodesFull_of_instrOf hk hins, hact.checksInOrder, fun s q o v hv => ?_⟩
  cases hop : op ⟨s.reg q⟩ ⟨v⟩ with
  | some f =>
    have ht : s.floatReg op q v = .ok (s.setReg q f.bits) := by rw [State.floatReg, hop]; rfl
    have hdoes := hact.does_of_ok hv ht
    rwa [State.view_setReg] at hdoes
  | none =>
    have ht : s.floatReg op q v = .ok (s.setRegNaN q) := by rw [State.floatReg, hop]; rfl
    refine ⟨nanOf (Config.nanDraw s.draws), nanOf_isNaN _, ?_⟩
    rw [← State.view_setRegNaN]
    exact hact.does_of_ok hv ht

/-! ### Conversions -/

/-- The raw destination is checked as a signed number. -/
theorem rawRegOf_eq (d : Half) : rawRegOf d = checkReg d.toInt := by
  rw [rawRegOf, operandOf, BitVec.toInt_signExtend_of_le (by decide)]

theorem State.convertWith_source_error {s : State} {r : Nibble} (hr : 8 ≤ r.toNat) (d : Half)
    (act : Reg → Reg → State) : s.convertWith r d act = .next (s.takeFault (.illegalRegister r.toNat)) := by
  rw [State.convertWith, regOf_error_iff.2 ⟨hr, rfl⟩]
  rfl

theorem State.convertWith_destination_error {s : State} {d : Half} (hd : d.toInt < 0 ∨ 7 < d.toInt) (q : Reg)
    (act : Reg → Reg → State) :
    s.convertWith q.field d act = .next (s.takeFault (.illegalRegister d.toInt)) := by
  have hc : rawRegOf d = .error (.illegalRegister d.toInt) := by
    rw [rawRegOf_eq]
    exact checkReg_error_iff.2 ⟨by omega, rfl⟩
  rw [State.convertWith, regOf_field, hc]
  rfl

theorem State.convertWith_ok {s : State} {d : Half} {p : Reg} (hd : d.toInt = p.index) (q : Reg)
    (act : Reg → Reg → State) : s.convertWith q.field d act = .next (act q p) := by
  have hc : rawRegOf d = .ok p := by
    rw [rawRegOf_eq]
    exact checkReg_ok_iff.2 hd
  rw [State.convertWith, regOf_field, hc]
  rfl

/-- The shape `State.convertWith` follows the rule of a conversion, if it writes what `conv` gives or draws a value. -/
theorem convertRule_of_convertWith {b : Byte} {k : Mnemonic} {ins : Nibble → Half → Instr}
    {act : State → Reg → Reg → State} {conv : Word → Option Word} (hk : opc k = b)
    (hins : ∀ r mode imm, instrOf k r mode imm = ins r imm)
    (hexec : ∀ r d s, exec (ins r d) s = State.convertWith s r d (act s))
    (hsome : ∀ s q p v, conv (State.reg s q) = some v → act s q p = s.setReg p v)
    (hnone : ∀ s q p, conv (State.reg s q) = none → act s q p = s.setRegInvalid p) : ConvertRule b ins conv := by
  refine ⟨fun w hw => ?_, fun s r d hr => ?_, fun s q d hd => ?_, fun s q p d hd => ?_⟩
  · rw [decodeWord_of_opcode hk hw, hins]
  · exact ⟨_, (hexec r d s).trans (State.convertWith_source_error hr d _), s.view_takeFault _⟩
  · exact ⟨_, (hexec q.field d s).trans (State.convertWith_destination_error hd q _), s.view_takeFault _⟩
  · have hdone : exec (ins q.field d) s = .next (act s q p) := (hexec _ _ _).trans (State.convertWith_ok hd q _)
    cases hc : conv (s.reg q) with
    | some v => exact ⟨_, hdone, by rw [hsome s q p v hc, State.view_setReg]⟩
    | none => exact ⟨_, _, hdone, by rw [hnone s q p hc, State.view_setRegInvalid]⟩

/-! ### The obligations -/

/-- Settles O18: the exact results, taken modulo 2^32, are those of the words. -/
theorem unaryInstructionsFollowTheirRules : Obligations.UnaryInstructionsFollowTheirRules := by
  unfold Obligations.UnaryInstructionsFollowTheirRules
  simp only [BitVec.ofInt_add, ofInt_sub, BitVec.ofInt_neg, BitVec.ofInt_toInt]
  refine ⟨unaryRule_of_updateReg (k := .inc) rfl (fun _ _ _ => rfl) fun _ _ => rfl,
    unaryRule_of_updateReg (k := .dec) rfl (fun _ _ _ => rfl) fun _ _ => rfl,
    unaryRule_of_updateReg (k := .neg) rfl (fun _ _ _ => rfl) fun r s => ?_,
    unaryRule_of_updateReg (k := .not) rfl (fun _ _ _ => rfl) fun r s => ?_⟩
  · simp only [BitVec.neg_eq_not_add]
    rfl
  · show s.updateReg r (fun x => ~~~x) = _
    simp only [BitVec.not_eq_neg_add]
    rfl

/-- Settles O19: the quotient and the remainder are the truncated ones of the signed values, but for the one overflow. -/
theorem divAndModTruncate : Obligations.DivAndModTruncate := by
  unfold Obligations.DivAndModTruncate
  have hdiv : ActsBy .div (State.divideReg quotient) := fun _ _ _ => rfl
  have hmod : ActsBy .mod (State.divideReg remainder) := fun _ _ _ => rfl
  refine ⟨decodesFull_of_instrOf (k := .div) rfl fun _ _ _ => rfl,
    decodesFull_of_instrOf (k := .mod) rfl fun _ _ _ => rfl, hdiv.checksInOrder, hmod.checksInOrder,
    fun s i o v hv => ?_⟩
  dsimp only
  split
  case isTrue hzero => exact ⟨does_divide_by_zero hdiv hv i hzero, does_divide_by_zero hmod hv i hzero⟩
  case isFalse hzero =>
    refine ⟨_, _, does_divide hdiv hv i hzero, does_divide hmod hv i hzero, ?_⟩
    split
    case isTrue hover => exact divide_overflow hover.1 hover.2
    case isFalse hover =>
      have hne : v.toInt ≠ 0 := fun h => hzero (BitVec.eq_of_toInt_eq h)
      rw [quotient_toInt hover, remainder_toInt]
      exact ⟨(Int.tdiv_mul_add_tmod _ _).symm, abs_tmod_lt _ hne, tmod_neg_iff⟩

/-- Settles O20: each is the action of its operation on the data. -/
theorem floatInstructionsFollowTheirRules : Obligations.FloatInstructionsFollowTheirRules := by
  unfold Obligations.FloatInstructionsFollowTheirRules
  exact ⟨floatRule_of_floatWith (k := .fadd) rfl (fun _ _ _ => rfl) fun _ _ _ => rfl,
    floatRule_of_floatWith (k := .fsub) rfl (fun _ _ _ => rfl) fun _ _ _ => rfl,
    floatRule_of_floatWith (k := .fmul) rfl (fun _ _ _ => rfl) fun _ _ _ => rfl,
    floatRule_of_floatWith (k := .fdiv) rfl (fun _ _ _ => rfl) fun _ _ _ => rfl⟩

/-- Settles O21: ITOF always converts, FTOI where the datum does. -/
theorem conversionInstructionsFollowTheirRules : Obligations.ConversionInstructionsFollowTheirRules := by
  unfold Obligations.ConversionInstructionsFollowTheirRules
  refine ⟨convertRule_of_convertWith (k := .itof) rfl (fun _ _ _ => rfl) (fun _ _ _ => rfl) (fun s q p v h => ?_)
      (fun s q p h => ?_),
    convertRule_of_convertWith (k := .ftoi) rfl (fun _ _ _ => rfl) (fun _ _ _ => rfl) (fun s q p v h => ?_)
      (fun s q p h => ?_)⟩
  · cases h
    rfl
  · cases h
  · obtain ⟨z, hz, rfl⟩ := Option.map_eq_some_iff.1 h
    simp only [hz]
  · simp only [Option.map_eq_none_iff.1 h]

/-- Settles O29: shifts multiply and divide by `2^n`, and a rotate puts together the two parts it divides the word into. -/
theorem shiftsAndRotatesFollowTheirRules : Obligations.ShiftsAndRotatesFollowTheirRules := by
  unfold Obligations.ShiftsAndRotatesFollowTheirRules
  simp only [← shiftCount_eq, ← shiftLeft_eq_ofNat, ← shiftRight_logical_eq_ofNat,
    ← rotateLeft_eq_ofNat _ (shiftCount_lt _), ← rotateRight_eq_ofNat _ (shiftCount_lt _)]
  exact ⟨updateRule_of_updateWith (k := .shl) rfl (fun _ _ _ => rfl) fun _ _ _ => rfl,
    updateRule_of_updateWith (k := .shr) rfl (fun _ _ _ => rfl) fun _ _ _ => rfl,
    updateRule_of_updateWith (k := .rol) rfl (fun _ _ _ => rfl) fun _ _ _ => rfl,
    updateRule_of_updateWith (k := .ror) rfl (fun _ _ _ => rfl) fun _ _ _ => rfl,
    fun x n _ => shiftRight_arithmetic_eq_ofInt x n⟩

end Sys2Proof.Machine

/-! The proofs of the statements about the conditional jumps, CALL and RET of 44_compare_control.md and about the stack and
frame instructions of 45_stack_frames.md. An instruction that begins with a push or a pop has the cases of that operation,
whatever it does after it; so each of these statements is the state that its last case leaves, looked at. -/

namespace Sys2Proof.Machine

/-! ### Conditional jumps -/

section ConditionalJumps

variable {ins : Operand → Instr} {taken : Flag → Bool} {s : State} {o : Operand} {v : Word}

theorem does_of_taken (hact : ActsOnOperand ins fun s v => pure (if taken s.flags then s.setPc v else s))
    (hv : s.resolve o = .ok v) (h : taken s.flags = true) : Does (ins o) s { s.view with pc := v } := by
  rw [← State.view_setPc]
  exact hact.does_of_ok hv (congrArg Except.ok (if_pos h))

theorem does_of_not_taken (hact : ActsOnOperand ins fun s v => pure (if taken s.flags then s.setPc v else s))
    (hv : s.resolve o = .ok v) (h : taken s.flags = false) : Does (ins o) s s.view :=
  hact.does_of_ok hv (congrArg Except.ok (if_neg (by simp [h])))

/-- A jump by a predicate of the flags follows the rule of its row of the table (44_compare_control.md R221). -/
theorem jumpRule_of_predicate {b : Byte} {k : Mnemonic} (hk : opc k = b)
    (hins : ∀ r mode imm, instrOf k r mode imm = ins ⟨mode, imm⟩)
    (hact : ActsOnOperand ins fun s v => pure (if taken s.flags then s.setPc v else s)) :
    JumpRule b ins (taken .less) (taken .equal) (taken .greater) fun _ v => v := by
  refine ⟨decodesOperand_of_instrOf hk hins, hact.checksOperand, fun s o v hv => ?_⟩
  cases hflags : s.flags with
  | less | equal | greater =>
    dsimp only
    split
    case isTrue h => exact does_of_taken hact hv (by rw [hflags, h])
    case isFalse h => exact does_of_not_taken hact hv (by rwa [hflags, ← Bool.not_eq_true])

end ConditionalJumps

theorem actsOnOperand_jeq :
    ActsOnOperand .jeq fun s v => pure (if takenJeq s.flags then s.setPc v else s) := fun _ _ => rfl
theorem actsOnOperand_jne :
    ActsOnOperand .jne fun s v => pure (if takenJne s.flags then s.setPc v else s) := fun _ _ => rfl
theorem actsOnOperand_jgt :
    ActsOnOperand .jgt fun s v => pure (if takenJgt s.flags then s.setPc v else s) := fun _ _ => rfl
theorem actsOnOperand_jlt :
    ActsOnOperand .jlt fun s v => pure (if takenJlt s.flags then s.setPc v else s) := fun _ _ => rfl
theorem actsOnOperand_jge :
    ActsOnOperand .jge fun s v => pure (if takenJge s.flags then s.setPc v else s) := fun _ _ => rfl
theorem actsOnOperand_jle :
    ActsOnOperand .jle fun s v => pure (if takenJle s.flags then s.setPc v else s) := fun _ _ => rfl

/-! ### Instructions that begin with a push or a pop -/

section StackShapes

variable {i : Instr} {s t : State}

/-- The cases of the push are the instruction's. -/
theorem pushCases_of_commit {val : Word} {act : State → Except FaultRecord State}
    (hexec : exec i s = s.commit (s.push val >>= act)) (ht : act (s.pushed val) = .ok t) : PushCases i s t.view := by
  unfold PushCases
  split_ifs with hbase hout
  · rw [State.push_of_overflow val hbase] at hexec
    exact ⟨_, hexec, s.view_takeFault _⟩
  · rw [State.push_of_outside val hbase hout] at hexec
    exact ⟨_, hexec, s.view_takeFault _⟩
  · rw [State.push_of_inside val hbase hout] at hexec
    exact ⟨t, hexec.trans (congrArg s.commit ht), rfl⟩

/-- The cases of the pop are the instruction's; LEAVE pops in the state `u` whose ESP it has set. -/
theorem popCases_of_commit {u : State} {act : Word × State → Except FaultRecord State}
    (hexec : exec i s = s.commit (u.pop >>= act)) (ht : act (wordAt u (u.reg .esp) 4, u.popped) = .ok t) :
    PopCases i s (u.reg .esp) t.view := by
  unfold PopCases
  split_ifs with hend hneg
  · rw [State.pop_of_underflow hend] at hexec
    exact ⟨_, hexec, s.view_takeFault _⟩
  · rw [State.pop_of_negative hend hneg] at hexec
    exact ⟨_, hexec, s.view_takeFault _⟩
  · rw [State.pop_of_inside hend hneg] at hexec
    exact ⟨t, hexec.trans (congrArg s.commit ht), rfl⟩

/-- Where a pop does not fault, the instruction does what its last case shows. -/
theorem PopCases.does {sp : Word} {done : View} (h : PopCases i s sp done) (hneg : 0 ≤ sp.toInt)
    (hend : sp.toInt + 4 ≤ 0xFFFF) : Does i s done := by
  unfold PopCases at h
  rwa [if_neg (Int.not_lt.2 hend), if_neg (Int.not_lt.2 hneg)] at h

end StackShapes

/-! ### Views of the stack states -/

theorem toInt_sub_four {sp : Word} (h : 4 ≤ sp.toInt) : (sp - 4).toInt = sp.toInt - 4 := by
  have hnat := toNat_sub_four h
  have hlt := BitVec.toInt_lt (x := sp)
  rw [BitVec.toInt_eq_toNat_of_lt (by omega), hnat]

theorem State.setReg_reg_eq (s : State) (q : Reg) (v : Word) : (s.setReg q v).reg = Function.update s.reg q v :=
  congrArg View.reg (s.view_setReg q v)

/-- Two registers written in turn. -/
theorem State.view_setReg_setReg (s : State) (p q : Reg) (u v : Word) :
    ((s.setReg p u).setReg q v).view = { s.view with reg := Function.update (Function.update s.reg p u) q v } := by
  rw [State.view_setReg, withReg, State.view_setReg, State.setReg_reg_eq]
  rfl

/-- A register written with the value it holds. -/
theorem State.setReg_self (s : State) (q : Reg) : s.setReg q (s.reg q) = s := by
  cases q <;> rfl

theorem State.setReg_setReg (s : State) (q : Reg) (u v : Word) : (s.setReg q u).setReg q v = s.setReg q v := by
  cases q <;> rfl

/-- A push after a pop puts its word where the popped one was, and ESP back. -/
theorem State.pushed_popped (s : State) (val : Word) :
    s.popped.pushed val = s.setMem (Memory.writeLE s.mem (s.reg .esp).toNat val 4) := by
  have hesp : s.popped.reg .esp - 4 = s.reg .esp := by
    rw [State.popped, State.setReg_reg, if_pos rfl, BitVec.add_sub_cancel]
  have hcomm (m : Memory) : s.popped.setMem m = (s.setMem m).setReg .esp (s.reg .esp + 4) := rfl
  rw [State.pushed, hesp, hcomm, State.setReg_setReg]
  exact State.setReg_self (s.setMem _) .esp

theorem State.popped_esp_toInt {s : State} (hend : ¬ 0xFFFF < (s.reg .esp).toInt + 4)
    (hneg : ¬ (s.reg .esp).toInt < 0) : (s.popped.reg .esp).toInt = (s.reg .esp).toInt + 4 := by
  have hnat := toNat_of_toInt_nonneg (Int.not_lt.1 hneg)
  have hsum : (s.reg .esp + 4).toNat = (s.reg .esp).toNat + 4 := by
    rw [BitVec.toNat_add_of_lt] <;> simp
    omega
  rw [State.popped, State.setReg_reg, if_pos rfl, BitVec.toInt_eq_toNat_of_lt (by omega)]
  omega

/-- Words at one address are equal where the bytes there are. -/
theorem wordAt_congr {s u : State} {a : Word} {n : Nat}
    (h : ∀ b, a.toNat ≤ b → b < a.toNat + n → u.byte b = s.byte b) : wordAt u a n = wordAt s a n := by
  rw [wordAt, wordAt, littleEndian_eq, littleEndian_eq, Memory.readLE_congr h]

/-- The word that a push leaves below the old ESP. -/
theorem wordAt_pushed (s : State) (val : Word) : wordAt (s.pushed val) (s.reg .esp - 4) 4 = val := by
  have hread : Memory.readLE (s.pushed val).mem (s.reg .esp - 4).toNat 4 = val.toNat % 2 ^ 32 :=
    Memory.readLE_writeLE s.mem _ val 4
  rw [wordAt, littleEndian_eq, hread, Nat.mod_eq_of_lt val.isLt]
  simp

/-! ### What the instructions over the stack do -/

theorem ActsOnOperand.exec_of_resolve {ins : Operand → Instr} {act : State → Word → Except FaultRecord State}
    {s : State} {o : Operand} {v : Word} (hact : ActsOnOperand ins act) (hv : s.resolve o = .ok v) :
    exec (ins o) s = s.commit (act s v) := by
  rw [hact, hv]
  rfl

theorem actsOnOperand_call : ActsOnOperand .call fun s v => s.push s.pc >>= fun t => pure (t.setPc v) := fun _ _ => rfl

theorem actsOnOperand_enter : ActsOnOperand .enter fun s v => s.push (s.reg .ebp) >>= fun t =>
    pure ((t.setReg .ebp (t.reg .esp)).setReg .esp ((t.setReg .ebp (t.reg .esp)).reg .esp - v)) := fun _ _ => rfl

/-- What ENTER leaves: the old EBP below the old ESP, EBP there, and ESP the size of the frame lower. -/
def State.entered (s : State) (size : Word) : State :=
  ((s.pushed (s.reg .ebp)).setReg .ebp (s.reg .esp - 4)).setReg .esp (s.reg .esp - 4 - size)

theorem State.view_entered (s : State) (size : Word) :
    (s.entered size).view =
      { s.view with
        reg := Function.update (Function.update s.reg .ebp (s.reg .esp - 4)) .esp (s.reg .esp - 4 - size),
        byte := storedAt s.byte (s.reg .esp - 4).toNat 4 (s.reg .ebp) } := by
  have hreg : (s.pushed (s.reg .ebp)).reg = Function.update s.reg .esp (s.reg .esp - 4) :=
    congrArg View.reg (s.view_pushed _)
  rw [State.entered, State.view_setReg_setReg, State.view_pushed, hreg,
    Function.update_comm (a := Reg.esp) (b := Reg.ebp) (by decide), Function.update_idem]
  rfl

theorem does_ret (s : State) : PopCases .ret s (s.reg .esp) (s.popped.setPc (wordAt s (s.reg .esp) 4)).view :=
  popCases_of_commit (u := s) (act := fun r => pure (r.2.setPc r.1)) rfl rfl

theorem actsOnReg_push : ActsOnReg .push fun s q => s.push (s.reg q) := fun _ _ => rfl

theorem actsOnReg_pop : ActsOnReg .pop fun s q => s.pop >>= fun r => pure (r.2.setReg q r.1) := fun _ _ => rfl

theorem actsOnReg_xchg : ActsOnReg .xchg fun s q => s.pop >>= fun r =>
    r.2.push (s.reg q) >>= fun u => pure (u.setReg q r.1) := fun _ _ => rfl

/-- XCHG after a pop that answers: what its push answers is what remains. -/
theorem exec_xchg_of_pop {s t : State} {q : Reg} {w : Word} {e : Except FaultRecord State}
    (hpop : s.pop = .ok (w, t)) (hpush : t.push (s.reg q) = e) :
    exec (.xchg q.field) s = s.commit (e >>= fun u => pure (u.setReg q w)) := by
  rw [actsOnReg_xchg.exec_field, hpop, ← hpush]
  rfl

theorem does_leave (s : State) :
    PopCases .leave s (s.reg .ebp)
      ((s.setReg .esp (s.reg .ebp + 4)).setReg .ebp (wordAt s (s.reg .ebp) 4)).view :=
  popCases_of_commit (u := s.setReg .esp (s.reg .ebp)) (act := fun r => pure (r.2.setReg .ebp r.1)) rfl rfl

/-- Where ESP lies inside the stack segment, an instruction that begins with a push does not fault in it. -/
theorem exec_of_push_inside {i : Instr} {s t : State} {val : Word} {act : State → Except FaultRecord State}
    (hexec : exec i s = s.commit (s.push val >>= act)) (ht : act (s.pushed val) = .ok t)
    (hlow : 0xC004 ≤ (s.reg .esp).toInt) (hhigh : (s.reg .esp).toInt ≤ 0xFFFF) : exec i s = .next t := by
  rw [hexec, State.push_of_inside val (by omega) (by omega)]
  exact congrArg s.commit ht

/-! ### The obligations -/

/-- Settles O31: each jump's predicate, at the three values of the flags, is its row of the table. -/
theorem conditionalJumpsFollowTheirTable : Obligations.ConditionalJumpsFollowTheirTable := by
  unfold Obligations.ConditionalJumpsFollowTheirTable
  exact ⟨jumpRule_of_predicate (k := .jeq) rfl (fun _ _ _ => rfl) actsOnOperand_jeq,
    jumpRule_of_predicate (k := .jne) rfl (fun _ _ _ => rfl) actsOnOperand_jne,
    jumpRule_of_predicate (k := .jgt) rfl (fun _ _ _ => rfl) actsOnOperand_jgt,
    jumpRule_of_predicate (k := .jlt) rfl (fun _ _ _ => rfl) actsOnOperand_jlt,
    jumpRule_of_predicate (k := .jge) rfl (fun _ _ _ => rfl) actsOnOperand_jge,
    jumpRule_of_predicate (k := .jle) rfl (fun _ _ _ => rfl) actsOnOperand_jle⟩

/-- Settles O32: TEST leaves Equal for a zero result and Less for any other, and each jump's predicate decides there. -/
theorem jumpsAfterTestFollowTheirTable : Obligations.JumpsAfterTestFollowTheirTable := by
  unfold Obligations.JumpsAfterTestFollowTheirTable
  intro s q o p v w hv hw
  have htest : exec (.test q.field o) s = .next (s.setFlags (testFlags (s.reg q) v)) := by
    rw [exec_test, State.writeFlags, State.withRegOperand_ok hv]
    rfl
  refine ⟨_, htest, ?_⟩
  dsimp only
  rw [testFlags]
  split
  · have hp : (s.setFlags .equal).resolve p = .ok w := ((overlay_setFlags .equal).resolve s p).trans hw
    exact ⟨does_of_taken actsOnOperand_jeq hp rfl, does_of_not_taken actsOnOperand_jne hp rfl,
      does_of_not_taken actsOnOperand_jgt hp rfl, does_of_not_taken actsOnOperand_jlt hp rfl,
      does_of_taken actsOnOperand_jge hp rfl, does_of_taken actsOnOperand_jle hp rfl⟩
  · have hp : (s.setFlags .less).resolve p = .ok w := ((overlay_setFlags .less).resolve s p).trans hw
    exact ⟨does_of_not_taken actsOnOperand_jeq hp rfl, does_of_taken actsOnOperand_jne hp rfl,
      does_of_not_taken actsOnOperand_jgt hp rfl, does_of_taken actsOnOperand_jlt hp rfl,
      does_of_not_taken actsOnOperand_jge hp rfl, does_of_taken actsOnOperand_jle hp rfl⟩

/-- Settles O34: the cases of the push and of the pop, and the pc written after them. -/
theorem callAndReturnFollowTheirRules : Obligations.CallAndReturnFollowTheirRules := by
  unfold Obligations.CallAndReturnFollowTheirRules
  refine ⟨decodesOperand_of_instrOf (k := .call) rfl fun _ _ _ => rfl, actsOnOperand_call.checksOperand,
    fun s o v hv => ?_, fun w hw => decodeWord_of_opcode (k := .ret) rfl hw, fun s => ?_⟩
  · have h := pushCases_of_commit (actsOnOperand_call.exec_of_resolve hv) rfl
    rwa [State.view_setPc, State.view_pushed] at h
  · have h := does_ret s
    rwa [State.view_setPc, State.popped, State.view_setReg] at h

/-- Settles O35: the register is read before the push and written after the pop. -/
theorem pushAndPopInstructionsFollowTheirRules : Obligations.PushAndPopInstructionsFollowTheirRules := by
  unfold Obligations.PushAndPopInstructionsFollowTheirRules
  refine ⟨decodesReg_of_instrOf (k := .push) rfl fun _ _ _ => rfl, actsOnReg_push.checksReg,
    decodesReg_of_instrOf (k := .pop) rfl fun _ _ _ => rfl, actsOnReg_pop.checksReg, fun s q => ⟨?_, ?_⟩⟩
  · dsimp only
    rw [← State.view_pushed]
    refine pushCases_of_commit (act := pure) ?_ rfl
    rw [actsOnReg_push.exec_field, bind_pure]
  · dsimp only
    rw [← State.view_setReg_setReg]
    exact popCases_of_commit (u := s) (actsOnReg_pop.exec_field q s) rfl

/-- Settles O36: the tests are the pop's and then the push's on an ESP four higher, and the two moves of ESP cancel. -/
theorem xchgExchangesWithTheTopOfTheStack : Obligations.XchgExchangesWithTheTopOfTheStack := by
  unfold Obligations.XchgExchangesWithTheTopOfTheStack
  refine ⟨decodesReg_of_instrOf (k := .xchg) rfl fun _ _ _ => rfl, actsOnReg_xchg.checksReg, fun s q => ?_⟩
  dsimp only
  split_ifs with hend hneg hbase
  · have hexec := actsOnReg_xchg.exec_field q s
    rw [State.pop_of_underflow hend] at hexec
    exact ⟨_, hexec, s.view_takeFault _⟩
  · have hexec := actsOnReg_xchg.exec_field q s
    rw [State.pop_of_negative hend hneg] at hexec
    exact ⟨_, hexec, s.view_takeFault _⟩
  · have hesp := State.popped_esp_toInt hend hneg
    have hpush := State.push_of_overflow (s := s.popped) (s.reg q) (by omega)
    exact ⟨_, exec_xchg_of_pop (State.pop_of_inside hend hneg) hpush, s.view_takeFault _⟩
  · have hesp := State.popped_esp_toInt hend hneg
    have hpush := State.push_of_inside (s := s.popped) (s.reg q) (by omega) (by omega)
    rw [State.pushed_popped] at hpush
    refine ⟨_, exec_xchg_of_pop (State.pop_of_inside hend hneg) hpush, ?_⟩
    rw [State.view_setReg, withReg, State.view_writeLE]
    rfl

/-- Settles O37: the cases of the push and of the pop, and the two registers written. -/
theorem enterAndLeaveFollowTheirRules : Obligations.EnterAndLeaveFollowTheirRules := by
  unfold Obligations.EnterAndLeaveFollowTheirRules
  refine ⟨decodesOperand_of_instrOf (k := .enter) rfl fun _ _ _ => rfl, actsOnOperand_enter.checksOperand,
    fun s o v hv => ?_, fun w hw => decodeWord_of_opcode (k := .leave) rfl hw, fun s => ?_⟩
  · dsimp only
    rw [← State.view_entered]
    exact pushCases_of_commit (actsOnOperand_enter.exec_of_resolve hv) rfl
  · have h := does_leave s
    rwa [State.view_setReg_setReg] at h

/-- Settles O38: RET pops the word that CALL pushed, from where CALL left ESP. -/
theorem returnUndoesCall : Obligations.ReturnUndoesCall := by
  unfold Obligations.ReturnUndoesCall
  intro s o v hv hlow hhigh
  refine ⟨(s.pushed s.pc).setPc v, exec_of_push_inside (actsOnOperand_call.exec_of_resolve hv) rfl hlow hhigh, rfl,
    fun u hesp hbytes => ?_⟩
  have htop : ((s.pushed s.pc).setPc v).reg .esp = s.reg .esp - 4 := by
    simp [State.pushed]
  rw [htop] at hesp hbytes
  have hword : wordAt u (s.reg .esp - 4) 4 = s.pc := by
    rw [← wordAt_pushed s s.pc]
    exact wordAt_congr hbytes
  have hint := toInt_sub_four (sp := s.reg .esp) (by omega)
  have h := (does_ret u).does (by rw [hesp]; omega) (by rw [hesp]; omega)
  rwa [State.view_setPc, State.popped, State.view_setReg, hesp, BitVec.sub_add_cancel, hword] at h

/-- Settles O39: LEAVE pops the word that ENTER pushed, from where ENTER left EBP. -/
theorem leaveUndoesEnter : Obligations.LeaveUndoesEnter := by
  unfold Obligations.LeaveUndoesEnter
  intro s o v hv hlow hhigh
  refine ⟨s.entered v, exec_of_push_inside (actsOnOperand_enter.exec_of_resolve hv) rfl hlow hhigh, fun u hebp hbytes => ?_⟩
  have hframe : (s.entered v).reg .ebp = s.reg .esp - 4 := by
    simp [State.entered]
  rw [hframe] at hebp hbytes
  have hword : wordAt u (s.reg .esp - 4) 4 = s.reg .ebp := by
    rw [← wordAt_pushed s (s.reg .ebp)]
    exact wordAt_congr hbytes
  have hint := toInt_sub_four (sp := s.reg .esp) (by omega)
  have h := (does_leave u).does (by rw [hebp]; omega) (by rw [hebp]; omega)
  rwa [State.view_setReg_setReg, hebp, BitVec.sub_add_cancel, hword] at h

end Sys2Proof.Machine

/-! The proofs of the statements about Steps and faults (10_state.md, 60_exceptions.md), about what an instruction leaves
unchanged (30_encoding.md R122, 20_memory.md R69) and about the invariant. All of them rest on one lemma, `exec_cases`: an
instruction that answers has stayed within its footprint, or has latched a legal record and changed nothing else; and the
record is one of the fields exactly where the instruction is ill-formed. -/

namespace Sys2Proof.Machine

/-! ### Footprints -/

/-- What an instruction that does not fault may have changed: the registers of its row, the bytes it stores to, the pc if it
transfers control and the count of draws if it is a float instruction. -/
structure Footprint (i : Instr) (s t : State) : Prop where
  fault : t.fault = s.fault
  pc : ¬ i.transfersControl → t.pc = s.pc
  draws : i.mnemonic ∉ [Mnemonic.fadd, .fsub, .fmul, .fdiv, .ftoi] → t.draws = s.draws
  reg : ∀ q, ¬ i.mayWrite q → t.reg q = s.reg q
  mem : t.mem = s.mem ∨
    ∃ a n v, i.storesTo s = some (a, n) ∧ a + n ≤ Config.memSize ∧ t.mem = Memory.writeLE s.mem a v n

section Footprints

variable {i : Instr} {s t : State}

theorem Footprint.refl : Footprint i s s := ⟨rfl, fun _ => rfl, fun _ => rfl, fun _ _ => rfl, .inl rfl⟩

theorem Footprint.setMem {a n : Nat} (hstore : i.storesTo s = some (a, n)) (hin : a + n ≤ Config.memSize) {v : Word} :
    Footprint i s (s.setMem (Memory.writeLE s.mem a v n)) :=
  ⟨rfl, fun _ => rfl, fun _ => rfl, fun _ _ => rfl, .inr ⟨a, n, v, hstore, hin, rfl⟩⟩

theorem Footprint.setReg (h : Footprint i s t) {q : Reg} (hq : i.mayWrite q) {v : Word} :
    Footprint i s (t.setReg q v) := by
  refine ⟨h.fault, h.pc, h.draws, fun p hp => ?_, h.mem⟩
  rw [State.setReg_reg, if_neg (fun e : p = q => hp (e ▸ hq)), h.reg p hp]

theorem Footprint.setPc (h : Footprint i s t) (hi : i.transfersControl) {v : Word} : Footprint i s (t.setPc v) :=
  ⟨h.fault, fun hn => absurd hi hn, h.draws, h.reg, h.mem⟩

theorem Footprint.setFlags (h : Footprint i s t) {c : Flag} : Footprint i s (t.setFlags c) :=
  ⟨h.fault, h.pc, h.draws, h.reg, h.mem⟩

theorem Footprint.setHalted (h : Footprint i s t) : Footprint i s t.setHalted :=
  ⟨h.fault, h.pc, h.draws, h.reg, h.mem⟩

theorem Footprint.drawn (h : Footprint i s t) (hi : i.mnemonic ∈ [Mnemonic.fadd, .fsub, .fmul, .fdiv, .ftoi]) :
    Footprint i s t.drawn :=
  ⟨h.fault, h.pc, fun hn => absurd hi hn, h.reg, h.mem⟩

/-- A push stores below ESP and writes ESP. -/
theorem Footprint.pushed (hstore : i.storesTo s = some ((s.reg .esp - 4).toNat, 4)) (hesp : i.mayWrite .esp)
    (hin : (s.reg .esp - 4).toNat + 4 ≤ Config.memSize) {val : Word} : Footprint i s (s.pushed val) :=
  (Footprint.setMem hstore hin).setReg hesp

end Footprints

/-! ### How a pseudocode ends -/

/-- How the pseudocode of an instruction ends: `P` holds of the state it makes, or its fault is a legal record, one of the
fields exactly if the static checks `ok` fail. -/
def Ends (ok : Bool) (P : State → Prop) : Except FaultRecord State → Prop
  | .ok t => ok = true ∧ P t
  | .error f => f.legal ∧ f.isStatic = !ok

section EndsRules

variable {ok : Bool} {P : State → Prop} {s : State}

/-- The resolver answers if the operand is well-formed; its faults are of the fields. -/
theorem Ends.resolve_bind {o : Operand} {k : Word → Except FaultRecord State}
    (h : ∀ v, s.resolve o = .ok v → Ends ok P (k v)) : Ends (operandOk o && ok) P (s.resolve o >>= k) := by
  cases hv : s.resolve o with
  | ok v =>
    rw [State.resolve_ok_iff.1 ⟨v, hv⟩, Bool.true_and]
    exact h v hv
  | error f =>
    have hbad : operandOk o = false := by
      rw [← Bool.not_eq_true, ← State.resolve_ok_iff (s := s), hv]
      exact fun ⟨_, h⟩ => nomatch h
    rw [hbad]
    rcases State.resolve_error hv with ⟨hm, rfl⟩ | ⟨-, hr, rfl⟩
    · exact ⟨hm, rfl⟩
    · have hlt := ((operandOf o.imm16).extractLsb' 0 4).isLt
      exact ⟨⟨by omega, by omega, .inr (by omega)⟩, rfl⟩

/-- The check of a register field answers if the field is well-formed; its fault is of the fields. -/
theorem Ends.regOf_bind {r : Nibble} {k : Reg → Except FaultRecord State}
    (h : ∀ q : Reg, r = q.field → Ends ok P (k q)) : Ends (regFieldOk r && ok) P (regOf r >>= k) := by
  cases hq : regOf r with
  | ok q =>
    obtain rfl := regOf_ok_iff.1 hq
    rw [regFieldOk_field, Bool.true_and]
    exact h q rfl
  | error f =>
    obtain ⟨hr, rfl⟩ := regOf_error_iff.1 hq
    have hbad : regFieldOk r = false := by simpa [regFieldOk] using hr
    have hlt := r.isLt
    rw [hbad]
    exact ⟨⟨by omega, by omega, .inr (by omega)⟩, rfl⟩

/-- A raw destination is 0 to 7 exactly if it is as an unsigned number. -/
theorem rawRegOk_iff (d : Half) : rawRegOk d = true ↔ 0 ≤ d.toInt ∧ d.toInt ≤ 7 := by
  have hlt := d.isLt
  rw [rawRegOk, decide_eq_true_iff, BitVec.toInt_eq_toNat_cond]
  split_ifs <;> omega

/-- The check of a raw destination. -/
theorem Ends.rawRegOf_bind {d : Half} {k : Reg → Except FaultRecord State}
    (h : ∀ q : Reg, d.toInt = q.index → Ends true P (k q)) : Ends (rawRegOk d) P (rawRegOf d >>= k) := by
  rw [rawRegOf_eq]
  cases hq : checkReg d.toInt with
  | ok q =>
    have hd := checkReg_ok_iff.1 hq
    have hlt := q.index_lt
    rw [(rawRegOk_iff d).2 (by omega)]
    exact h q hd
  | error f =>
    obtain ⟨hd, rfl⟩ := checkReg_error_iff.1 hq
    have hbad : rawRegOk d = false := by
      rw [← Bool.not_eq_true, rawRegOk_iff]
      omega
    have hlow := BitVec.le_toInt d
    have hhigh := BitVec.toInt_lt (x := d)
    rw [hbad]
    exact ⟨⟨by omega, by omega, by omega⟩, rfl⟩

theorem Ends.ofOk {t : State} (h : P t) : Ends true P (.ok t) := ⟨rfl, h⟩

theorem legal_memoryFault {a : Word} {n : Width} (h : Config.memSize < a.toNat + n.bytes) :
    (FaultRecord.memoryFault a).legal := by
  have := n.bytes_pos
  show Config.memSize < a.toNat + 4
  omega

theorem Ends.memRead_bind {a : Word} {n : Width} {k : Word → Except FaultRecord State}
    (h : ∀ v, Ends true P (k v)) : Ends true P (s.memRead a n >>= k) := by
  rcases s.memRead_eq a n with ⟨v, hread, -⟩ | ⟨hfault, hout⟩
  · rw [hread]
    exact h v
  · rw [hfault]
    exact ⟨legal_memoryFault hout, rfl⟩

theorem Ends.memWrite {a v : Word} {n : Width}
    (h : a.toNat + n.bytes ≤ Config.memSize → P (s.setMem (Memory.writeLE s.mem a.toNat v n.bytes))) :
    Ends true P (s.memWrite a n v) := by
  rcases s.memWrite_eq a n v with ⟨hwrite, hin⟩ | ⟨hfault, hout⟩
  · rw [hwrite]
    exact Ends.ofOk (h hin)
  · rw [hfault]
    exact ⟨legal_memoryFault hout, rfl⟩

theorem Ends.push_bind {val : Word} {k : State → Except FaultRecord State}
    (h : (s.reg .esp - 4).toNat + 4 ≤ Config.memSize → Ends true P (k (s.pushed val))) :
    Ends true P (s.push val >>= k) := by
  cases hp : s.push val with
  | ok t =>
    obtain ⟨-, hin, rfl⟩ := State.push_ok hp
    exact h hin
  | error f =>
    rcases State.push_error hp with ⟨-, rfl⟩ | ⟨-, hout, rfl⟩
    · exact ⟨trivial, rfl⟩
    · exact ⟨hout, rfl⟩

theorem Ends.pop_bind {k : Word × State → Except FaultRecord State}
    (h : ∀ val, (s.reg .esp).toNat + 4 ≤ Config.memSize → Ends true P (k (val, s.popped))) :
    Ends true P (s.pop >>= k) := by
  cases hp : s.pop with
  | ok r =>
    obtain ⟨-, hin, -, ht⟩ := State.pop_ok (t := r.2) (val := r.1) hp
    have hr : r = (r.1, s.popped) := Prod.ext rfl ht
    rw [hr]
    exact h r.1 hin
  | error f =>
    rcases State.pop_error hp with ⟨-, rfl⟩ | ⟨-, hout, rfl⟩
    · exact ⟨trivial, rfl⟩
    · exact ⟨hout, rfl⟩

/-- The shape of an instruction with an operand and no register. -/
theorem Ends.operand {o : Operand} {k : Word → Except FaultRecord State}
    (h : ∀ v, s.resolve o = .ok v → Ends true P (k v)) : Ends (operandOk o) P (s.resolve o >>= k) := by
  simpa only [Bool.and_true] using Ends.resolve_bind h

/-- The shape of an instruction with a register alone. -/
theorem Ends.register {r : Nibble} {k : Reg → Except FaultRecord State}
    (h : ∀ q : Reg, r = q.field → Ends true P (k q)) : Ends (regFieldOk r) P (regOf r >>= k) := by
  simpa only [Bool.and_true] using Ends.regOf_bind h

/-- The shape of an instruction with an operand and a register. -/
theorem Ends.both {r : Nibble} {o : Operand} {act : Reg → Word → Except FaultRecord State}
    (h : ∀ q v, r = Reg.field q → s.resolve o = .ok v → Ends true P (act q v)) :
    Ends (operandOk o && regFieldOk r) P (s.resolve o >>= fun v => regOf r >>= fun q => act q v) :=
  Ends.resolve_bind fun v hv => Ends.register fun q hq => h q v hq hv

end EndsRules

/-! ### What an instruction can do -/

/-- Every instruction commits a pseudocode that stays within its footprint or ends in a legal fault. -/
theorem exec_ends (i : Instr) (s : State) :
    ∃ e, exec i s = s.commit e ∧ Ends i.wellFormed (Footprint i s) e := by
  cases i with
  | mov r o | movhi r o | movlo r o | fmovhi r o | fmovlo r o | add r o | sub r o | mul r o | and r o | or r o | xor r o
  | shl r o | shr r o | rol r o | ror r o =>
    exact ⟨_, rfl, Ends.both fun q v hq _ => .ofOk (.setReg .refl (by exact hq))⟩
  | div r o | mod r o =>
    refine ⟨_, rfl, Ends.both fun q v hq _ => ?_⟩
    split
    · exact ⟨trivial, rfl⟩
    · exact .ofOk (.setReg .refl (by exact hq))
  | fadd r o | fsub r o | fmul r o | fdiv r o =>
    refine ⟨_, rfl, Ends.both fun q v hq _ => ?_⟩
    split
    · exact .ofOk (.setReg .refl (by exact hq))
    · exact .ofOk (.setReg (.drawn .refl (by simp [Instr.mnemonic])) (by exact hq))
  | ld r o | ldhi r o | ldlo r o =>
    exact ⟨_, rfl, Ends.both fun q a hq _ => .memRead_bind fun v => .ofOk (.setReg .refl (by exact hq))⟩
  | st r o | sthi r o | stlo r o =>
    refine ⟨_, rfl, Ends.both fun q a hq ha => .memWrite fun hin => Footprint.setMem ?_ hin⟩
    simp [Instr.storesTo, ha, hostResult, Width.bytes]
  | test r o | cmp r o =>
    exact ⟨_, rfl, Ends.both fun q v _ _ => .ofOk (.setFlags .refl)⟩
  | inc r | dec r | neg r | not r =>
    exact ⟨_, rfl, Ends.register fun q hq => .ofOk (.setReg .refl (by exact hq))⟩
  | itof r d =>
    exact ⟨_, rfl, Ends.regOf_bind fun q _ => .rawRegOf_bind fun p hp => .ofOk (.setReg .refl (by exact hp))⟩
  | ftoi r d =>
    refine ⟨_, rfl, Ends.regOf_bind fun q _ => .rawRegOf_bind fun p hp => .ofOk ?_⟩
    dsimp only
    split
    · exact .setReg .refl (by exact hp)
    · exact .setReg (.drawn .refl (by simp [Instr.mnemonic])) (by exact hp)
  | push r =>
    refine ⟨_, rfl, Ends.register fun q _ => ?_⟩
    rw [← bind_pure (s.push (s.reg q))]
    exact .push_bind fun hin => .ofOk (.pushed rfl (by rfl) hin)
  | pop r =>
    exact ⟨_, rfl, Ends.register fun q hq => .pop_bind fun val _ =>
      .ofOk (.setReg (.setReg .refl (by exact .inr rfl)) (by exact .inl hq))⟩
  | xchg r =>
    refine ⟨_, actsOnReg_xchg r s, Ends.register fun q hq => .pop_bind fun val hin => .push_bind fun _ => ?_⟩
    rw [State.pushed_popped]
    exact .ofOk (.setReg (.setMem rfl hin) (by exact hq))
  | jeq o | jne o | jgt o | jlt o | jge o | jle o =>
    refine ⟨_, rfl, Ends.operand fun v _ => .ofOk ?_⟩
    split
    · exact .setPc .refl (by simp [Instr.transfersControl, Instr.mnemonic])
    · exact Footprint.refl
  | jmp o | jmprel o =>
    exact ⟨_, rfl, Ends.operand fun v _ =>
      .ofOk (.setPc .refl (by simp [Instr.transfersControl, Instr.mnemonic]))⟩
  | jmpx t =>
    exact ⟨_, rfl, .ofOk (.setPc .refl (by simp [Instr.transfersControl, Instr.mnemonic]))⟩
  | call o =>
    exact ⟨_, rfl, Ends.operand fun v _ => .push_bind fun hin =>
      .ofOk (.setPc (.pushed rfl (by rfl) hin) (by simp [Instr.transfersControl, Instr.mnemonic]))⟩
  | ret =>
    exact ⟨_, rfl, .pop_bind fun val _ =>
      .ofOk (.setPc (.setReg .refl (by rfl)) (by simp [Instr.transfersControl, Instr.mnemonic]))⟩
  | enter o =>
    exact ⟨_, rfl, Ends.operand fun v _ => .push_bind fun hin =>
      .ofOk (.setReg (.setReg (.pushed rfl (by exact .inr rfl) hin) (by exact .inl rfl)) (by exact .inr rfl))⟩
  | leave =>
    exact ⟨_, rfl, .pop_bind fun val _ =>
      .ofOk (.setReg (.setReg (.setReg .refl (by exact .inr rfl)) (by exact .inr rfl)) (by exact .inl rfl))⟩
  | hlt => exact ⟨_, rfl, .ofOk (.setHalted .refl)⟩

theorem exec_next (i : Instr) (s : State) : ∃ t, exec i s = .next t := by
  obtain ⟨e, he, -⟩ := exec_ends i s
  cases e with
  | ok t => exact ⟨t, he⟩
  | error f => exact ⟨s.takeFault f, he⟩

/-- Everything an instruction can do: well-formed it may stay within its footprint; else it takes a legal fault, one of the
fields exactly if it is ill-formed. -/
theorem exec_cases {i : Instr} {s t : State} (h : exec i s = .next t) :
    (i.wellFormed = true ∧ Footprint i s t) ∨
    ∃ f : FaultRecord, t = s.takeFault f ∧ f.legal ∧ f.isStatic = !i.wellFormed := by
  obtain ⟨e, he, hends⟩ := exec_ends i s
  rw [he] at h
  rcases State.commit_next h with rfl | ⟨f, rfl, rfl⟩
  · exact .inl hends
  · exact .inr ⟨f, rfl, hends⟩

/-! ### Steps -/

/-- The word fetched is made of the four bytes at the pc. -/
theorem State.fetch_eq_wordOfBytes {s : State} (h : s.pc.toNat + 3 ≤ 0xFFFF) :
    s.fetch = .ok (wordOfBytes (s.byte s.pc.toNat) (s.byte (s.pc.toNat + 1)) (s.byte (s.pc.toNat + 2))
      (s.byte (s.pc.toNat + 3))) := by
  refine State.memRead_of_readLE (by simp [Width.bytes, Config.memSize]; omega) ?_
  rw [wordOfBytes_toNat]
  simp only [Width.bytes, Memory.readLE, State.byte, Nat.mul_zero, Nat.add_zero]

theorem step_of_decodes {s : State} {w : Word} {i : Instr} (hr : s.running = true) (hw : s.fetch = .ok w)
    (hi : decodeWord w = .ok i) : step s = exec i s.advancePc := by
  simp only [step, hr, if_true, hw, hi]
  rfl

theorem step_of_refused {s : State} {w : Word} {e : DecodeError} (hr : s.running = true) (hw : s.fetch = .ok w)
    (he : decodeWord w = .error e) : step s = .next (s.advancePc.takeFault (.illegalInstruction (opcodeField w))) := by
  simp only [step, hr, if_true, hw, he]
  rfl

theorem step_of_fetch_error {s : State} {f : FaultRecord} (hr : s.running = true) (hf : s.fetch = .error f) :
    step s = .next (s.takeFault f) := by
  simp only [step, hr, if_true, hf]

theorem step_next (s : State) : ∃ t, step s = .next t := by
  rcases step_cases s with ⟨-, h⟩ | ⟨-, -, h⟩ | ⟨-, -, w, -, ⟨-, h⟩ | ⟨i, -, h⟩⟩
  · exact ⟨_, h⟩
  · exact ⟨_, h⟩
  · exact ⟨_, h⟩
  · rw [h]
    exact exec_next i s.advancePc

theorem decodeBytes_eq_ok {b0 b1 b2 b3 : Byte} {i : Instr} (h : decodeBytes [b0, b1, b2, b3] = .ok (i, [])) :
    decodeWord (wordOfBytes b0 b1 b2 b3) = .ok i := by
  cases hw : decodeWord (wordOfBytes b0 b1 b2 b3) with
  | ok j => simpa [decodeBytes, hw] using h
  | error e => simp [decodeBytes, hw] at h

/-! ### The invariant -/

theorem State.Inv.advancePc {s : State} (h : s.Inv) : s.advancePc.Inv := ⟨h.mem, h.exclusive, h.legal⟩

/-- A core that is not Halted keeps the invariant when it takes a legal fault. -/
theorem State.Inv.takeFault {s : State} (h : s.Inv) (hh : s.halted = false) {f : FaultRecord} (hf : f.legal) :
    (s.takeFault f).Inv := by
  refine ⟨h.mem, fun ht => ?_, fun g hg => ?_⟩
  · exact absurd ht (by simp [hh])
  · obtain rfl := Option.some.inj hg
    exact hf

/-- An instruction that stays within its footprint keeps the invariant, if no fault was latched. -/
theorem State.Inv.footprint {s t : State} {i : Instr} (h : s.Inv) (hs : s.fault = none) (hst : Footprint i s t) :
    t.Inv := by
  have hfault : t.fault = none := hst.fault.trans hs
  refine ⟨?_, fun _ => hfault, fun g hg => ?_⟩
  · rcases hst.mem with hmem | ⟨a, n, v, -, hin, hmem⟩
    · exact hmem ▸ h.mem
    · exact hmem ▸ Memory.wf_writeLE h.mem v hin
  · rw [hfault] at hg
    cases hg

/-! ### A fault of an access at the post-fetch pc -/

/-- `LD EAX` at 0xFFFC from the address 0x10000 that EBX holds, which is the post-fetch pc. -/
def loadAtTop : State :=
  { State.reset with
    regs := { State.reset.regs with ebx := 0x00010000#32 }, pc := 0x0000FFFC#32, mem := [(0xFFFC, 0x04#8), (0xFFFD, 0x50#8)] }

theorem step_loadAtTop :
    step loadAtTop = .next (loadAtTop.advancePc.takeFault (.memoryFault 0x00010000#32)) := by
  have hfetch : loadAtTop.fetch = .ok 0x00005004#32 := by decide
  have hdecode : decodeWord 0x00005004#32 = .ok (.ld 0 ⟨5, 0⟩) := decodeWord_ok_iff.2 (by decide)
  rw [step_of_decodes rfl hfetch hdecode]
  rfl

/-! ### The obligations -/

/-- Settles O46: a Step leaves the state, takes a legal fault, or runs an instruction within its footprint. -/
theorem everyStepKeepsTheInvariant : Obligations.EveryStepKeepsTheInvariant := by
  unfold Obligations.EveryStepKeepsTheInvariant
  intro s t hs ht
  rcases step_cases s with ⟨-, h⟩ | ⟨hr, hout, h⟩ | ⟨hr, -, w, -, ⟨hop, h⟩ | ⟨i, -, h⟩⟩ <;> rw [h] at ht
  · cases ht
    exact hs
  · cases ht
    exact hs.takeFault ((State.running_iff s).1 hr).1 hout
  · cases ht
    exact hs.advancePc.takeFault ((State.running_iff s).1 hr).1 hop
  · obtain ⟨hh, hf⟩ := (State.running_iff s).1 hr
    rcases exec_cases ht with ⟨-, hfoot⟩ | ⟨f, rfl, hlegal, -⟩
    · exact hs.advancePc.footprint hf hfoot
    · exact hs.advancePc.takeFault hh hlegal

/-- Settles O45: a fault is a next state too, of the fetch, of the opcode or of an instruction. -/
theorem everyStepAnswersANextState : Obligations.EveryStepAnswersANextState := by
  unfold Obligations.EveryStepAnswersANextState
  exact step_next

/-- Settles O48: an instruction within its footprint leaves the latch empty, so a fault is one of the three kinds of Step
that latch a record, and these change nothing else. -/
theorem faultsArePrecise : Obligations.FaultsArePrecise := by
  unfold Obligations.FaultsArePrecise
  intro s t f hh hs ht hf
  rcases step_cases s with ⟨hr, -⟩ | ⟨-, hout, h⟩ | ⟨-, hin, w, -, hrest⟩
  · exact absurd ((State.running_iff s).2 ⟨hh, hs⟩) (by simp [hr])
  · rw [h] at ht
    cases ht
    obtain rfl := Option.some.inj hf
    rw [if_pos (by simp [Config.memSize] at hout; omega)]
    exact s.view_takeFault _
  · rw [if_neg (by simp [Config.memSize] at hin; omega)]
    rcases hrest with ⟨-, h⟩ | ⟨i, -, h⟩ <;> rw [h] at ht
    · cases ht
      obtain rfl := Option.some.inj hf
      exact s.advancePc.view_takeFault _
    · rcases exec_cases ht with ⟨-, hfoot⟩ | ⟨g, rfl, -⟩
      · have hnone : t.fault = none := hfoot.fault.trans hs
        rw [hnone] at hf
        cases hf
      · obtain rfl := Option.some.inj hf
        exact s.advancePc.view_takeFault _

/-- Refutes O49: the load of `loadAtTop` is fetched inside memory and accesses the address that its pc then holds. -/
theorem not_infoTellsAFetchFaultApart : ¬ Obligations.InfoTellsAFetchFaultApart := by
  unfold Obligations.InfoTellsAFetchFaultApart
  intro h
  exact absurd (h loadAtTop _ rfl rfl step_loadAtTop rfl) (by decide)

/-- Settles O50: the cases of `exec_cases` tell which faults are static. -/
theorem fieldFaultsAreTheIllFormedInstructions : Obligations.FieldFaultsAreTheIllFormedInstructions := by
  unfold Obligations.FieldFaultsAreTheIllFormedInstructions
  intro i s hs
  constructor
  · intro hbad
    obtain ⟨t, ht⟩ := exec_next i s
    rcases exec_cases ht with ⟨hgood, -⟩ | ⟨f, rfl, -, hstatic⟩
    · rw [hbad] at hgood
      cases hgood
    · exact ⟨_, f, ht, rfl, by rw [hstatic, hbad]; rfl⟩
  · rintro ⟨t, f, ht, hf, hstatic⟩
    rcases exec_cases ht with ⟨-, hfoot⟩ | ⟨g, rfl, -, hg⟩
    · rw [hfoot.fault, hs] at hf
      cases hf
    · obtain rfl := Option.some.inj hf
      rwa [hg, Bool.not_eq_true'] at hstatic

/-- Settles O52: a fault writes no register, and the footprint holds the registers of the row. -/
theorem otherRegistersAreKept : Obligations.OtherRegistersAreKept := by
  unfold Obligations.OtherRegistersAreKept
  intro i s t h q hq
  rcases exec_cases h with ⟨-, hfoot⟩ | ⟨f, rfl, -⟩
  · exact hfoot.reg q hq
  · rfl

/-- Settles O53: a fault writes no byte, and the footprint holds the bytes stored to. -/
theorem otherBytesAreKept : Obligations.OtherBytesAreKept := by
  unfold Obligations.OtherBytesAreKept
  intro i s t h b hb
  rcases exec_cases h with ⟨-, hfoot⟩ | ⟨f, rfl, -⟩
  · rcases hfoot.mem with hmem | ⟨a, n, v, hstore, -, hmem⟩
    · exact congrArg (Memory.read · b) hmem
    · have hout := hb a n hstore
      rw [State.byte, hmem, Memory.read_writeLE, if_neg (by omega)]
      rfl
  · rfl

/-- Settles O54: the footprint for the pc and the draws; the halted bit is kept by every instruction but HLT. -/
theorem pcHaltedAndDrawsAreKept : Obligations.PcHaltedAndDrawsAreKept := by
  unfold Obligations.PcHaltedAndDrawsAreKept
  intro i s t h
  have hhalted : i ≠ .hlt → t.halted = s.halted := exec_halted_of_ne_hlt h
  rcases exec_cases h with ⟨-, hfoot⟩ | ⟨f, rfl, -⟩
  · exact ⟨hfoot.pc, hhalted, hfoot.draws⟩
  · exact ⟨fun _ => rfl, hhalted, fun _ => rfl⟩

/-- Settles O41: the word fetched is the one that the four bytes make. -/
theorem stepRunsTheDecodedInstruction : Obligations.StepRunsTheDecodedInstruction := by
  unfold Obligations.StepRunsTheDecodedInstruction
  intro s i hh hf hpc hi
  exact step_of_decodes ((State.running_iff s).2 ⟨hh, hf⟩) (State.fetch_eq_wordOfBytes hpc) (decodeBytes_eq_ok hi)

/-- Settles O42: a core that is not Running steps to itself, and the host is told so. -/
theorem stoppedCoreStepsToItself : Obligations.StoppedCoreStepsToItself := by
  unfold Obligations.StoppedCoreStepsToItself
  intro s hs
  have hr : s.running = false := by
    rw [← Bool.not_eq_true, State.running_iff]
    rintro ⟨hh, hf⟩
    rcases hs with h | h
    · exact absurd h (by simp [hh])
    · exact h hf
  have hstep := step_of_not_running hr
  refine ⟨hstep, ?_⟩
  simp [State.hostStep, hstep, stepResult, hr]

/-- Settles O43: the fetch faults, and its fault is taken where the pc stands. -/
theorem fetchOutsideMemoryFaults : Obligations.FetchOutsideMemoryFaults := by
  unfold Obligations.FetchOutsideMemoryFaults
  intro s hh hf hout
  have hfetch : s.fetch = .error (.memoryFault s.pc) := by
    rw [State.fetch_eq, if_pos hout]
  exact ⟨_, step_of_fetch_error ((State.running_iff s).2 ⟨hh, hf⟩) hfetch, s.view_takeFault _⟩

/-- Settles O44: the byte at the pc is the opcode byte of the word fetched, which the decoder refuses. -/
theorem unassignedOpcodeFaults : Obligations.UnassignedOpcodeFaults := by
  unfold Obligations.UnassignedOpcodeFaults
  intro s hh hf hpc hop
  have hfetch := State.fetch_eq_wordOfBytes hpc
  have hbad := decodeWord_of_unassigned (w := wordOfBytes (s.byte s.pc.toNat) (s.byte (s.pc.toNat + 1))
    (s.byte (s.pc.toNat + 2)) (s.byte (s.pc.toNat + 3))) (mnemonicOf_none_iff.2 (by simpa only [opcodeField_wordOfBytes]))
  have hstep := step_of_refused ((State.running_iff s).2 ⟨hh, hf⟩) hfetch hbad
  rw [opcodeField_wordOfBytes] at hstep
  exact ⟨_, hstep, s.advancePc.view_takeFault _⟩

/-- Settles O47: at reset memory lists nothing, the core is not Halted and the latch is empty. -/
theorem resetHasTheInvariant : Obligations.ResetHasTheInvariant := by
  unfold Obligations.ResetHasTheInvariant
  exact ⟨Memory.wf_nil, fun _ => rfl, fun _ hf => nomatch hf⟩

/-- Settles O55: Reset gives each register the value it has at power-on, and keeps memory. -/
theorem resetRestoresTheCore : Obligations.ResetRestoresTheCore := by
  unfold Obligations.ResetRestoresTheCore
  intro s
  have hreg (q : Reg) : s.hostReset.reg q = if q = .ebp ∨ q = .esp then Config.resetSp else 0 := State.reset_reg q
  refine ⟨fun q hbp hsp => ?_, hreg .ebp, hreg .esp, rfl, rfl, rfl, rfl, rfl, rfl⟩
  rw [hreg, if_neg (by simp [hbp, hsp])]

/-- Settles O56: each item of the power-on state is the one written out. -/
theorem powerOnIsTheResetState : Obligations.PowerOnIsTheResetState := by
  unfold Obligations.PowerOnIsTheResetState
  exact ⟨State.reset_reg, rfl, rfl, rfl, rfl, Memory.read_nil⟩

end Sys2Proof.Machine

/-! The proofs of the statements about the host of 70_reset_and_hazards.md: the image it loads, its accesses, and Run. A
run is described by its ending, `RunEnds`, which a Step in front keeps; so Run's loop is one induction on the limit. -/

namespace Sys2Proof.Machine

/-! ### Loading an image -/

theorem State.view_setMem (s : State) (m : Memory) : (s.setMem m).view = { s.view with byte := Memory.read m } := rfl

/-- Memory after an image is copied to address 0. -/
theorem Memory.read_copyIn_zero (m : Memory) (bytes : List Byte) :
    Memory.read (Memory.copyIn m 0 bytes) = fun a => if h : a < bytes.length then bytes[a] else Memory.read m a := by
  funext a
  rw [Memory.read_copyIn, if_pos (Nat.zero_le a), Nat.sub_zero]
  split
  case isTrue h => exact List.getD_eq_getElem _ _ h
  case isFalse h => exact List.getD_eq_default _ _ (Nat.not_lt.1 h)

/-! ### Accesses of the host -/

theorem State.readByte_eq (s : State) (a : Word) :
    s.readByte a = if a.toNat ≤ 0xFFFF then some (s.byte a.toNat) else none := by
  rcases s.memRead_eq a .one with ⟨v, hread, hv, hin⟩ | ⟨hfault, hout⟩
  · have hle : a.toNat ≤ 0xFFFF := Nat.le_of_lt_succ hin
    have hbyte : v.setWidth 8 = s.byte a.toNat := by
      apply BitVec.eq_of_toNat_eq
      rw [BitVec.toNat_setWidth, hv]
      exact Nat.mod_eq_of_lt (s.byte a.toNat).isLt
    rw [State.readByte, hread, if_pos hle, ← hbyte]
    rfl
  · rw [State.readByte, hfault, if_neg (Nat.not_le.2 (Nat.lt_of_succ_lt_succ hout))]
    rfl

theorem State.readWord_eq (s : State) (a : Word) :
    s.readWord a = if a.toNat + 3 ≤ 0xFFFF then some (wordAt s a 4) else none := by
  rcases s.memRead_eq a .four with ⟨v, hread, hv, hin⟩ | ⟨hfault, hout⟩
  · have hle : a.toNat + 3 ≤ 0xFFFF := Nat.le_of_lt_succ hin
    rw [State.readWord, hread, if_pos hle, eq_wordAt hv]
    rfl
  · rw [State.readWord, hfault, if_neg (Nat.not_le.2 (Nat.lt_of_succ_lt_succ hout))]
    rfl

/-- One byte stored. -/
theorem storedAt_one (old : Nat → Byte) (a : Nat) (b : Byte) :
    storedAt old a 1 (b.setWidth 32) = Function.update old a b := by
  funext c
  rw [storedAt, Function.update_apply]
  by_cases h : c = a
  · subst h
    rw [if_pos (by omega), if_pos rfl, Nat.sub_self]
    apply BitVec.eq_of_toNat_eq
    simpa using b.isLt
  · rw [if_neg (by omega), if_neg h]

theorem Memory.cleared_eq : Memory.cleared = [] := rfl

/-- The register an index names for the host. -/
theorem hostReg_index (q : Reg) : hostReg q.index = some q := by
  cases q <;> rfl

theorem hostReg_eq_none {i : Int} (h : i < 0 ∨ 7 < i) : hostReg i = none := by
  unfold hostReg
  split
  · exact Reg.ofNat?_of_ge (by omega)
  · rfl

/-! ### Run -/

theorem State.runStop_eq_none_iff {s : State} :
    s.runStop = none ↔ s.fault = none ∧ s.halted = false ∧ s.pc.toNat < 65536 := by
  unfold State.runStop
  cases s.fault with
  | some f => simp
  | none =>
    cases s.halted with
    | true => simp
    | false => simp [Config.memSize]

/-- The reasons to stop, in the order they are tested. -/
theorem State.runStop_eq_some {s : State} {out : RunOutcome} (h : s.runStop = some out) :
    (∃ f, out = .fault f ∧ s.fault = some f) ∨ (out = .halted ∧ s.fault = none ∧ s.halted = true) ∨
    (out = .pcOutOfRange ∧ s.fault = none ∧ s.halted = false ∧ 65536 ≤ s.pc.toNat) := by
  unfold State.runStop at h
  cases hf : s.fault with
  | some f =>
    rw [hf] at h
    exact .inl ⟨f, (Option.some.inj h).symm, rfl⟩
  | none =>
    simp only [hf] at h
    split_ifs at h with hh hpc
    · exact .inr (.inl ⟨(Option.some.inj h).symm, rfl, hh⟩)
    · exact .inr (.inr ⟨(Option.some.inj h).symm, rfl, by simpa using hh, hpc⟩)

/-- How a run with a limit ends: after `n` Steps, each from a state where Run goes on, for the reason `out`. -/
structure RunEnds (s : State) (limit : Nat) (out : RunOutcome) (n : Nat) (t : State) : Prop where
  le : n ≤ limit
  run : Host.Core.run core n s = .next t
  before : ∀ j < n, ∃ u : State, Host.Core.run core j s = .next u ∧ u.runStop = none
  reason : t.runStop = some out ∨ (t.runStop = none ∧ out = .cycleLimit ∧ n = limit)

theorem run_succ_of_step {s t : State} (h : step s = .next t) (n : Nat) :
    Host.Core.run core (n + 1) s = Host.Core.run core n t := by
  have hcore : core.step s = .next t := h
  simp only [Host.Core.run, hcore]

/-- A reason to stop ends the run before its first Step. -/
theorem RunEnds.stopped {s : State} {out : RunOutcome} (h : s.runStop = some out) (limit : Nat) :
    RunEnds s limit out 0 s :=
  ⟨Nat.zero_le _, rfl, fun _ hj => absurd hj (Nat.not_lt_zero _), .inl h⟩

/-- A Step in front of a run. -/
theorem RunEnds.step {s t u : State} {limit n : Nat} {out : RunOutcome} (hgo : s.runStop = none)
    (hstep : Machine.step s = .next t) (h : RunEnds t limit out n u) : RunEnds s (limit + 1) out (n + 1) u := by
  refine ⟨Nat.succ_le_succ h.le, (run_succ_of_step hstep n).trans h.run, fun j hj => ?_, ?_⟩
  · cases j with
    | zero => exact ⟨s, rfl, hgo⟩
    | succ j =>
      rw [run_succ_of_step hstep]
      exact h.before j (Nat.lt_of_succ_lt_succ hj)
  · exact h.reason.imp_right fun ⟨hnone, hout, hn⟩ => ⟨hnone, hout, congrArg (· + 1) hn⟩

theorem State.runLoop_ends (limit : Nat) (s : State) :
    ∃ out n t, State.runLoop limit s = .next ((out, n), t) ∧ RunEnds s limit out n t := by
  induction limit generalizing s with
  | zero =>
    cases hgo : s.runStop with
    | some out => exact ⟨out, 0, s, State.run_of_runStop hgo 0, .stopped hgo 0⟩
    | none =>
      refine ⟨.cycleLimit, 0, s, ?_, le_rfl, rfl, fun _ hj => absurd hj (Nat.not_lt_zero _), .inr ⟨hgo, rfl, rfl⟩⟩
      simp only [State.runLoop, hgo]
  | succ limit ih =>
    cases hgo : s.runStop with
    | some out => exact ⟨out, 0, s, State.run_of_runStop hgo (limit + 1), .stopped hgo (limit + 1)⟩
    | none =>
      obtain ⟨t, ht⟩ := step_next s
      obtain ⟨out, n, u, hloop, hends⟩ := ih t
      refine ⟨out, n + 1, u, ?_, hends.step hgo ht⟩
      simp only [State.runLoop, hgo, ht, hloop]

/-! ### The obligations -/

/-- Settles O57: the image is copied to address 0, byte by byte. -/
theorem loadProgramCopiesOrRefuses : Obligations.LoadProgramCopiesOrRefuses := by
  unfold Obligations.LoadProgramCopiesOrRefuses
  intro s bytes
  split
  case isTrue h => exact if_pos h
  case isFalse h =>
    refine ⟨_, if_neg h, ?_⟩
    rw [State.view_setMem, Memory.read_copyIn_zero]
    rfl

/-- Settles O58: an access of the host is the machine's, refused where that faults, and a register is named by its index. -/
theorem hostAccessesFollowTheirRules : Obligations.HostAccessesFollowTheirRules := by
  unfold Obligations.HostAccessesFollowTheirRules
  refine ⟨fun s a => ⟨s.readByte_eq a, s.readWord_eq a⟩, fun s a b => ?_, fun s a v => ?_,
    fun s => ⟨fun a _ => ?_, rfl⟩, fun s q v f => ?_, fun s i v f hi => ?_⟩
  · rcases s.memWrite_eq a .one (b.setWidth 32) with ⟨hwrite, hin⟩ | ⟨hfault, hout⟩
    · rw [if_pos (Nat.le_of_lt_succ hin), ← storedAt_one, ← State.view_writeLE]
      exact ⟨_, congrArg hostResult hwrite, rfl⟩
    · rw [if_neg (Nat.not_le.2 (Nat.lt_of_succ_lt_succ hout))]
      exact congrArg hostResult hfault
  · rcases s.memWrite_eq a .four v with ⟨hwrite, hin⟩ | ⟨hfault, hout⟩
    · rw [if_pos (Nat.le_of_lt_succ hin), ← State.view_writeLE]
      exact ⟨_, congrArg hostResult hwrite, rfl⟩
    · rw [if_neg (Nat.not_le.2 (Nat.lt_of_succ_lt_succ hout))]
      exact congrArg hostResult hfault
  · rw [State.clear, Memory.cleared_eq]
    rfl
  · simp only [State.getRegister, State.getRegisterAsFloat, State.setRegister, State.setRegisterAsFloat,
      hostReg_index, Option.map_some, true_and]
    exact ⟨⟨_, rfl, s.view_setReg q v⟩, ⟨_, rfl, s.view_setReg q f.bits⟩⟩
  · simp only [State.getRegister, State.getRegisterAsFloat, State.setRegister, State.setRegisterAsFloat,
      hostReg_eq_none hi, Option.map_none, and_self]

/-- Settles O59: the reason the loop stops for, read off the state it leaves. -/
theorem runStopsForTheReasonItGives : Obligations.RunStopsForTheReasonItGives := by
  unfold Obligations.RunStopsForTheReasonItGives
  refine ⟨fun _ => rfl, fun s limit => ?_⟩
  obtain ⟨out, n, t, hloop, hends⟩ := State.runLoop_ends limit s
  refine ⟨out, n, t, hloop, hends.le, hends.run, fun j hj => ?_, ?_⟩
  · obtain ⟨u, hu, hgo⟩ := hends.before j hj
    exact ⟨u, hu, State.runStop_eq_none_iff.1 hgo⟩
  · rcases hends.reason with hstop | ⟨hgo, rfl, hn⟩
    · rcases State.runStop_eq_some hstop with ⟨f, rfl, hf⟩ | ⟨rfl, hf, hh⟩ | ⟨rfl, hf, hh, hpc⟩
      · exact hf
      · exact ⟨hf, hh⟩
      · exact ⟨hf, hh, hpc⟩
    · obtain ⟨hf, hh, hpc⟩ := State.runStop_eq_none_iff.1 hgo
      exact ⟨hf, hh, hpc, hn⟩

end Sys2Proof.Machine

/-! The proofs of the statements about the float operations on data and the conversions of 42_float.md. A datum and an exact
result are counted in units of 2^-149, and `F32.round_roundsTo` says that the one operation that rounds does it correctly;
what remains is that the model rounds the exact result, with the right sign. The conversions rest on that rounding too: a
datum that is the exact result is the only one at distance zero from it. -/

namespace Sys2Proof.Machine

/-! ### Signed numbers of units -/

theorem signedMag_eq (neg : Bool) (mag : Nat) : signedMag neg mag = signOf neg * mag := by
  cases neg <;> simp [signedMag, signOf]

theorem F32.rat_eq_signedMag (f : F32) : f.rat = ((signedMag f.negative f.magnitude : ℤ) : ℚ) / 2 ^ 149 := by
  rw [F32.rat_eq, signedMag_eq]
  push_cast
  rfl

theorem units_neg_iff (z : ℤ) : (z : ℚ) / 2 ^ 149 < 0 ↔ z < 0 := by
  rw [div_lt_iff₀ (by positivity), zero_mul]
  exact Int.cast_lt_zero

theorem units_eq_zero_iff (z : ℤ) : (z : ℚ) / 2 ^ 149 = 0 ↔ z = 0 := by
  simp

/-- The sign of a product. -/
theorem signOf_xor (s t : Bool) : signOf (s != t) = signOf s * signOf t := by
  cases s <;> cases t <;> rfl

theorem signOf_not (s : Bool) : signOf (!s) = -signOf s := by
  cases s <;> rfl

theorem signedMag_eq_zero_iff (neg : Bool) (mag : Nat) : signedMag neg mag = 0 ↔ mag = 0 := by
  cases neg <;> simp [signedMag]

theorem F32.rat_eq_zero_iff (f : F32) : f.rat = 0 ↔ f.magnitude = 0 := by
  rw [F32.rat_eq_signedMag, units_eq_zero_iff, signedMag_eq_zero_iff]

/-! ### What rounding answers -/

theorem F32.round_negative (neg : Bool) (n d : Nat) : (F32.round neg n d).negative = neg :=
  F32.pack_negative neg (lt_of_le_of_lt (roundMagnitude_le n d) (by decide))

theorem F32.round_magnitude (neg : Bool) (n d : Nat) :
    (F32.round neg n d).magnitude = lowMagnitude (roundMagnitude n d) :=
  F32.magnitude_pack neg (lt_of_le_of_lt (roundMagnitude_le n d) (by decide))

/-- Rounding an integer number of units, a zero included. -/
theorem F32.roundInt_eq_round (z : ℤ) (zeroNeg : Bool) :
    F32.roundInt z zeroNeg = F32.round (if z = 0 then zeroNeg else decide (z < 0)) z.natAbs 1 := by
  unfold F32.roundInt
  split
  case isTrue h =>
    subst h
    rfl
  case isFalse => rfl

theorem F32.roundInt_roundsTo (z : ℤ) (zeroNeg : Bool) :
    RoundsTo ((z : ℚ) / 2 ^ 149) (F32.roundInt z zeroNeg) := by
  have hz : signOf (if z = 0 then zeroNeg else decide (z < 0)) * (z.natAbs : ℤ) = z := by
    split
    case isTrue h => simp [h]
    case isFalse h =>
      rcases lt_or_gt_of_ne h with hneg | hpos
      · rw [decide_eq_true hneg, signOf, if_pos rfl]
        omega
      · rw [decide_eq_false hpos.not_gt, signOf, if_neg Bool.false_ne_true]
        omega
  have h := F32.round_roundsTo (if z = 0 then zeroNeg else decide (z < 0)) z.natAbs Nat.one_pos
  have hcast : (signOf (if z = 0 then zeroNeg else decide (z < 0)) : ℚ) * ((z.natAbs : ℚ) / (1 : ℕ)) = z := by
    rw [Nat.cast_one, div_one, ← Int.cast_natCast (R := ℚ), ← Int.cast_mul, hz]
  rwa [hcast, ← F32.roundInt_eq_round] at h

theorem F32.roundInt_negative (z : ℤ) (zeroNeg : Bool) :
    (F32.roundInt z zeroNeg).negative = true ↔ z < 0 ∨ (z = 0 ∧ zeroNeg = true) := by
  rw [F32.roundInt_eq_round, F32.round_negative]
  split
  case isTrue h => simp [h]
  case isFalse h => simp [h]

/-- Where a datum is the exact result, the rounded result is that number. -/
theorem RoundsTo.rat_eq {x : ℚ} {y z : F32} (h : RoundsTo x z) (hx : |x| < (2 ^ 25 - 1) * 2 ^ 103)
    (hy : y.isFinite = true) (hyx : y.rat = x) : z.rat = x := by
  have hnear := ((h.2 hx).2 y hy).1
  rw [hyx, sub_self, abs_zero] at hnear
  exact sub_eq_zero.1 (abs_eq_zero.1 (le_antisymm hnear (abs_nonneg _)))

/-! ### Sums and differences -/

theorem F32.flip_isFinite (f : F32) : f.flip.isFinite = f.isFinite := by
  rw [F32.isFinite, F32.isFinite, F32.flip_exponent]

theorem F32.flip_isInfinite (f : F32) : f.flip.isInfinite = f.isInfinite := by
  rw [F32.isInfinite, F32.isInfinite, F32.flip_exponent, F32.flip_fraction]

theorem F32.flip_isNaN (f : F32) : f.flip.isNaN = f.isNaN := by
  rw [F32.isNaN, F32.isNaN, F32.flip_exponent, F32.flip_fraction]

theorem F32.flip_rat (f : F32) : f.flip.rat = -f.rat := by
  have hmag : f.flip.magnitude = f.magnitude := by
    rw [F32.magnitude, F32.magnitude, F32.flip_exponent, F32.flip_fraction]
  rw [F32.rat_eq, F32.rat_eq, hmag, F32.flip_negative, signOf_not]
  push_cast
  ring

/-- The sum of two finite data is their exact sum, rounded. -/
theorem F32.add_finite {x y : F32} (hx : x.isFinite = true) (hy : y.isFinite = true) :
    ∃ z, x.add y = some z ∧ RoundsTo (x.rat + y.rat) z ∧
      (z.negative = true ↔ x.rat + y.rat < 0 ∨ (x.rat + y.rat = 0 ∧ x.negative = true ∧ y.negative = true)) := by
  have hsum : x.rat + y.rat =
      ((signedMag x.negative x.magnitude + signedMag y.negative y.magnitude : ℤ) : ℚ) / 2 ^ 149 := by
    rw [x.rat_eq_signedMag, y.rat_eq_signedMag]
    push_cast
    ring
  rw [hsum, units_neg_iff, units_eq_zero_iff, ← Bool.and_eq_true]
  refine ⟨_, ?_, F32.roundInt_roundsTo _ (x.negative && y.negative), F32.roundInt_negative _ _⟩
  simp only [F32.add, F32.value_finite hx, F32.value_finite hy]

/-! ### Products and quotients -/

theorem F32.mul_finite {x y : F32} (hx : x.isFinite = true) (hy : y.isFinite = true) :
    ∃ z, x.mul y = some z ∧ RoundsTo (x.rat * y.rat) z ∧ z.negative = (x.negative != y.negative) := by
  have hprod : x.rat * y.rat =
      signOf (x.negative != y.negative) * (((x.magnitude * y.magnitude : ℕ) : ℚ) / (2 ^ 149 : ℕ)) / 2 ^ 149 := by
    rw [x.rat_eq, y.rat_eq, signOf_xor]
    push_cast
    ring
  rw [hprod]
  refine ⟨_, ?_, F32.round_roundsTo _ _ (by positivity), F32.round_negative _ _ _⟩
  simp only [F32.mul, F32.value_finite hx, F32.value_finite hy]

theorem F32.div_finite {x y : F32} (hx : x.isFinite = true) (hy : y.isFinite = true) (hne : y.rat ≠ 0) :
    ∃ z, x.div y = some z ∧ RoundsTo (x.rat / y.rat) z ∧ z.negative = (x.negative != y.negative) := by
  have hmag : y.magnitude ≠ 0 := fun h => hne (y.rat_eq_zero_iff.2 h)
  have hquot : x.rat / y.rat =
      signOf (x.negative != y.negative) * (((x.magnitude * 2 ^ 149 : ℕ) : ℚ) / y.magnitude) / 2 ^ 149 := by
    have hcast : (y.magnitude : ℚ) ≠ 0 := Nat.cast_ne_zero.2 hmag
    rw [x.rat_eq, y.rat_eq, signOf_xor]
    generalize signOf x.negative = a
    cases y.negative <;> simp [signOf] <;> field_simp <;> norm_num
  rw [hquot]
  refine ⟨_, ?_, F32.round_roundsTo _ _ (Nat.pos_of_ne_zero hmag), F32.round_negative _ _ _⟩
  simp only [F32.div, F32.value_finite hx, F32.value_finite hy, if_neg hmag]

/-! ### Infinities, zeros and NaNs -/

/-- The three kinds of data, each with what the other two tests say of it. -/
theorem F32.kinds (f : F32) :
    (f.isFinite = true ∧ f.isInfinite = false ∧ f.isNaN = false ∧ f.value = .finite f.negative f.magnitude) ∨
    (f.isFinite = false ∧ f.isInfinite = true ∧ f.isNaN = false ∧ f.value = .infinite f.negative) ∨
    (f.isFinite = false ∧ f.isInfinite = false ∧ f.isNaN = true ∧ f.value = .nan) := by
  rcases f.isFinite_or with h | h | h
  · have he : f.exponent ≠ 255 := by simpa [F32.isFinite] using h
    exact .inl ⟨h, by simp [F32.isInfinite, he], by simp [F32.isNaN, he], F32.value_finite h⟩
  · have he : f.exponent = 255 ∧ f.fraction = 0 := by simpa [F32.isInfinite] using h
    exact .inr (.inl ⟨by simp [F32.isFinite, he], h, by simp [F32.isNaN, he], F32.value_infinite h⟩)
  · have he : f.exponent = 255 ∧ f.fraction ≠ 0 := by simpa [F32.isNaN] using h
    exact .inr (.inr ⟨by simp [F32.isFinite, he], by simp [F32.isInfinite, he], h, F32.value_nan h⟩)

/-- An infinity is known by its sign. -/
theorem F32.inf_negative_eq {f : F32} (h : f.isInfinite = true) : F32.inf f.negative = f := by
  have hf : f.exponent = 255 ∧ f.fraction = 0 := by simpa [F32.isInfinite] using h
  obtain ⟨hi, hn⟩ := F32.inf_isInfinite f.negative
  have hg : (F32.inf f.negative).exponent = 255 ∧ (F32.inf f.negative).fraction = 0 := by
    simpa [F32.isInfinite] using hi
  exact F32.ext_fields hn (hg.1.trans hf.1.symm) (hg.2.trans hf.2.symm)

theorem F32.zero_facts (neg : Bool) :
    (F32.zero neg).isFinite = true ∧ (F32.zero neg).rat = 0 ∧ (F32.zero neg).negative = neg := by
  have hmag : (F32.zero neg).magnitude = 0 := F32.magnitude_pack neg (by decide)
  refine ⟨?_, (F32.rat_eq_zero_iff _).2 hmag, F32.pack_negative neg (by decide)⟩
  cases neg <;> decide

theorem F32.add_eq_none_iff (x y : F32) :
    x.add y = none ↔ (x.isNaN = true ∨ y.isNaN = true) ∨
      ((x.isInfinite = true ∧ y.isInfinite = true) ∧ x.negative ≠ y.negative) := by
  rcases x.kinds with ⟨-, hxi, hxn, hx⟩ | ⟨-, hxi, hxn, hx⟩ | ⟨-, hxi, hxn, hx⟩ <;>
    rcases y.kinds with ⟨-, hyi, hyn, hy⟩ | ⟨-, hyi, hyn, hy⟩ | ⟨-, hyi, hyn, hy⟩ <;>
    simp [F32.add, hx, hy, hxi, hyi, hxn, hyn]

theorem F32.mul_eq_none_iff (x y : F32) :
    x.mul y = none ↔ (x.isNaN = true ∨ y.isNaN = true) ∨
      (x.isInfinite = true ∧ y.rat = 0 ∧ y.isFinite = true) ∨
      (y.isInfinite = true ∧ x.rat = 0 ∧ x.isFinite = true) := by
  rcases x.kinds with ⟨hxf, hxi, hxn, hx⟩ | ⟨hxf, hxi, hxn, hx⟩ | ⟨hxf, hxi, hxn, hx⟩ <;>
    rcases y.kinds with ⟨hyf, hyi, hyn, hy⟩ | ⟨hyf, hyi, hyn, hy⟩ | ⟨hyf, hyi, hyn, hy⟩ <;>
    simp [F32.mul, hx, hy, hxf, hyf, hxi, hyi, hxn, hyn, F32.rat_eq_zero_iff]

theorem F32.div_eq_none_iff (x y : F32) :
    x.div y = none ↔ (x.isNaN = true ∨ y.isNaN = true) ∨ (x.isInfinite = true ∧ y.isInfinite = true) ∨
      (x.isFinite = true ∧ y.isFinite = true ∧ x.rat = 0 ∧ y.rat = 0) := by
  rcases x.kinds with ⟨hxf, hxi, hxn, hx⟩ | ⟨hxf, hxi, hxn, hx⟩ | ⟨hxf, hxi, hxn, hx⟩ <;>
    rcases y.kinds with ⟨hyf, hyi, hyn, hy⟩ | ⟨hyf, hyi, hyn, hy⟩ | ⟨hyf, hyi, hyn, hy⟩ <;>
    simp [F32.div, hx, hy, hxf, hyf, hxi, hyi, hxn, hyn, F32.rat_eq_zero_iff]
  by_cases hzero : y.magnitude = 0 <;> simp [hzero]

/-- A sum with an infinity is that infinity. -/
theorem F32.add_infinite {x y z : F32} (h : x.add y = some z) :
    (x.isInfinite = true → z = x) ∧ (y.isInfinite = true → z = y) := by
  rcases x.kinds with ⟨-, hxi, -, hx⟩ | ⟨-, hxi, -, hx⟩ | ⟨-, hxi, -, hx⟩ <;>
    rcases y.kinds with ⟨-, hyi, -, hy⟩ | ⟨-, hyi, -, hy⟩ | ⟨-, hyi, -, hy⟩ <;>
    simp only [F32.add, hx, hy, reduceCtorEq, Option.some.injEq, Option.ite_none_right_eq_some] at h
  · simp [hxi, hyi]
  · simp [hxi, ← h, F32.inf_negative_eq hyi]
  · simp [hyi, ← h, F32.inf_negative_eq hxi]
  · obtain ⟨hsign, h⟩ := h
    exact ⟨fun _ => h ▸ F32.inf_negative_eq hxi, fun _ => h ▸ hsign ▸ F32.inf_negative_eq hyi⟩

/-- A product with an infinity is an infinity. -/
theorem F32.mul_infinite {x y z : F32} (h : x.mul y = some z) (hinf : x.isInfinite = true ∨ y.isInfinite = true) :
    z.isInfinite = true ∧ z.negative = (x.negative != y.negative) := by
  suffices hz : F32.inf (x.negative != y.negative) = z from hz ▸ F32.inf_isInfinite _
  rcases x.kinds with ⟨-, hxi, -, hx⟩ | ⟨-, hxi, -, hx⟩ | ⟨-, hxi, -, hx⟩ <;>
    rcases y.kinds with ⟨-, hyi, -, hy⟩ | ⟨-, hyi, -, hy⟩ | ⟨-, hyi, -, hy⟩ <;>
    simp only [F32.mul, hx, hy, reduceCtorEq, Option.some.injEq, Option.ite_none_left_eq_some] at h
  · simp [hxi, hyi] at hinf
  · exact h.2
  · exact h.2
  · exact h

/-- A quotient of an infinity, and a quotient by zero, is an infinity. -/
theorem F32.div_gives_infinite {x y z : F32} (h : x.div y = some z)
    (hinf : x.isInfinite = true ∨ (y.isFinite = true ∧ y.rat = 0)) :
    z.isInfinite = true ∧ z.negative = (x.negative != y.negative) := by
  suffices hz : F32.inf (x.negative != y.negative) = z from hz ▸ F32.inf_isInfinite _
  rw [F32.rat_eq_zero_iff] at hinf
  rcases x.kinds with ⟨-, hxi, -, hx⟩ | ⟨-, hxi, -, hx⟩ | ⟨-, hxi, -, hx⟩ <;>
    rcases y.kinds with ⟨hyf, -, -, hy⟩ | ⟨hyf, -, -, hy⟩ | ⟨hyf, -, -, hy⟩ <;>
    simp only [F32.div, hx, hy, reduceCtorEq, Option.some.injEq] at h
  · have hzero : y.magnitude = 0 := (hinf.resolve_left (by simp [hxi])).2
    rw [if_pos hzero, Option.ite_none_left_eq_some, Option.some.injEq] at h
    exact h.2
  · simp [hxi, hyf] at hinf
  · exact h

/-- A quotient by an infinity is a zero. -/
theorem F32.div_by_infinite {x y z : F32} (h : x.div y = some z) (hy : y.isInfinite = true) :
    z.isFinite = true ∧ z.rat = 0 ∧ z.negative = (x.negative != y.negative) := by
  suffices hz : F32.zero (x.negative != y.negative) = z from hz ▸ F32.zero_facts _
  rcases x.kinds with ⟨-, -, -, hx⟩ | ⟨-, -, -, hx⟩ | ⟨-, -, -, hx⟩ <;>
    simp only [F32.div, hx, F32.value_infinite hy, Option.some.injEq, reduceCtorEq] at h
  exact h

/-! ### The obligations on the operations -/

/-- Settles O22: a difference is the sum with the second sign flipped. -/
theorem floatSumsAreCorrectlyRounded : Obligations.FloatSumsAreCorrectlyRounded := by
  unfold Obligations.FloatSumsAreCorrectlyRounded
  intro x y hx hy
  have hsub := F32.add_finite hx (y := y.flip) (by rw [F32.flip_isFinite, hy])
  rw [F32.flip_rat, ← sub_eq_add_neg, F32.flip_negative, Bool.not_eq_true'] at hsub
  exact ⟨F32.add_finite hx hy, hsub⟩

/-- Settles O23: the exact product and quotient are what is rounded, with the sign of the signs' product. -/
theorem floatProductsAreCorrectlyRounded : Obligations.FloatProductsAreCorrectlyRounded := by
  unfold Obligations.FloatProductsAreCorrectlyRounded
  exact fun x y hx hy => ⟨F32.mul_finite hx hy, F32.div_finite hx hy⟩

/-- Settles O24: the cases of each operation on the kinds of its operands, a difference being a sum. -/
theorem floatSpecialCasesFollowTheirRules : Obligations.FloatSpecialCasesFollowTheirRules := by
  unfold Obligations.FloatSpecialCasesFollowTheirRules
  intro x y
  have hsub : x.sub y = none ↔ (x.isNaN = true ∨ y.isNaN = true) ∨
      ((x.isInfinite = true ∧ y.isInfinite = true) ∧ x.negative = y.negative) := by
    have h := F32.add_eq_none_iff x y.flip
    rwa [F32.flip_isNaN, F32.flip_isInfinite, F32.flip_negative, Bool.ne_not] at h
  refine ⟨F32.add_eq_none_iff x y, hsub, F32.mul_eq_none_iff x y, F32.div_eq_none_iff x y,
    fun z h => F32.add_infinite h, fun z h => ?_, fun z h => F32.mul_infinite h,
    fun z h => ⟨F32.div_gives_infinite h, F32.div_by_infinite h⟩⟩
  obtain ⟨hx, hy⟩ := F32.add_infinite (y := y.flip) h
  refine ⟨hx, fun hinf => ?_⟩
  obtain rfl := hy (by rw [F32.flip_isInfinite, hinf])
  exact ⟨by rw [F32.flip_isInfinite, hinf], y.flip_negative⟩

end Sys2Proof.Machine

/-! The proofs of the statements about ITOF and FTOI on data (42_float.md R191 to R193). An integer with at most 24
significant bits is a datum, and ITOF gives it; any other integer is bracketed by such integers, and the datum that ITOF
gives, being the nearest one, lies between them. That is enough to know when FTOI takes it back. -/

namespace Sys2Proof.Machine

/-! ### FTOI -/

/-- The truncated value of a finite datum. -/
theorem F32.trunc_rat (f : F32) :
    (if 0 ≤ f.rat then ⌊f.rat⌋ else ⌈f.rat⌉) = signedMag f.negative (f.magnitude / 2 ^ 149) := by
  have hfloor : ⌊(f.magnitude : ℚ) / 2 ^ 149⌋ = ((f.magnitude / 2 ^ 149 : ℕ) : ℤ) := by
    exact_mod_cast Rat.floor_natCast_div_natCast f.magnitude (2 ^ 149)
  have hpos : (0 : ℚ) ≤ f.magnitude / 2 ^ 149 := by positivity
  rw [F32.rat_eq_signedMag]
  cases f.negative with
  | false => simpa [signedMag, hpos] using hfloor
  | true =>
    have hneg : (((signedMag true f.magnitude : ℤ) : ℚ) / 2 ^ 149) = -((f.magnitude : ℚ) / 2 ^ 149) := by
      simp [signedMag, neg_div]
    rw [hneg, Int.ceil_neg, hfloor]
    split
    case isTrue h =>
      have hzero : (f.magnitude : ℚ) / 2 ^ 149 = 0 := le_antisymm (neg_nonneg.1 h) hpos
      rw [hzero, Int.floor_zero] at hfloor
      rw [hzero, neg_zero, Int.floor_zero, Int.natCast_eq_zero.1 hfloor.symm]
      rfl
    case isFalse => rfl

theorem F32.toInt?_finite {f : F32} (hf : f.isFinite = true) :
    f.toInt? = if -2 ^ 31 ≤ signedMag f.negative (f.magnitude / 2 ^ 149) ∧
        signedMag f.negative (f.magnitude / 2 ^ 149) ≤ 2 ^ 31 - 1
      then some (signedMag f.negative (f.magnitude / 2 ^ 149)) else none := by
  simp only [F32.toInt?, F32.value_finite hf]

theorem F32.toInt?_not_finite {f : F32} (hf : f.isFinite = false) : f.toInt? = none := by
  rcases f.kinds with ⟨h, -⟩ | ⟨-, -, -, hv⟩ | ⟨-, -, -, hv⟩
  · exact absurd h (by simp [hf])
  · simp only [F32.toInt?, hv]
  · simp only [F32.toInt?, hv]

/-- A datum that is an integer in range converts to it. -/
theorem F32.toInt?_of_rat {f : F32} {m : ℤ} (hf : f.isFinite = true) (hm : f.rat = m) (hlow : -2 ^ 31 ≤ m)
    (hhigh : m ≤ 2 ^ 31 - 1) : f.toInt? = some m := by
  have htrunc : signedMag f.negative (f.magnitude / 2 ^ 149) = m := by
    rw [← F32.trunc_rat, hm, Int.floor_intCast, Int.ceil_intCast, ite_self]
  rw [F32.toInt?_finite hf, htrunc, if_pos ⟨hlow, hhigh⟩]

/-! ### Integers that are data -/

/-- An integer with at most 24 significant bits. -/
def IsShort (n : ℤ) : Prop := ∃ (c : ℤ) (k : ℕ), n = c * 2 ^ k ∧ c.natAbs ≤ 2 ^ 24

/-- A magnitude with at most 24 significant bits is not changed by rounding. -/
theorem roundMagnitude_exact {q j : Nat} (hq : q < 2 ^ 24) (hfin : roundMagnitude (q * 2 ^ j) 1 ≠ infinityBits) :
    lowMagnitude (roundMagnitude (q * 2 ^ j) 1) = q * 2 ^ j := by
  rcases Nat.eq_zero_or_pos q with rfl | hpos
  · rw [Nat.zero_mul]
    decide
  · obtain ⟨hu1, hu2⟩ := rounding_unit (q * 2 ^ j) Nat.one_pos
    have hlog : (q * 2 ^ j / 1).log2 - 23 ≤ j := by
      have hlt : q * 2 ^ j < 2 ^ (24 + j) := by
        rw [Nat.pow_add]
        exact Nat.mul_lt_mul_of_pos_right hq (by positivity)
      have := (Nat.log2_lt (Nat.mul_pos hpos (by positivity)).ne').2 hlt
      rw [Nat.div_one]
      omega
    revert hfin
    unfold roundMagnitude
    generalize (q * 2 ^ j / 1).log2 - 23 = k at *
    simp only
    intro hfin
    have hsplit : q * 2 ^ j = q * 2 ^ (j - k) * (1 * 2 ^ k) := by
      rw [Nat.one_mul, Nat.mul_assoc, ← Nat.pow_add, Nat.sub_add_cancel hlog]
    have hunit : 0 < 1 * 2 ^ k := by positivity
    rw [hsplit] at hu1 hu2 hfin ⊢
    rw [roundHalfEven_mul _ hunit] at hfin ⊢
    have hmin : min (k * 2 ^ 23 + q * 2 ^ (j - k)) infinityBits = k * 2 ^ 23 + q * 2 ^ (j - k) := by omega
    rw [hmin, lowMagnitude_scaled (Nat.lt_of_mul_lt_mul_right hu1).le
      (hu2.imp_right fun h => Nat.le_of_mul_le_mul_right h hunit), Nat.one_mul]

/-- A magnitude far below the largest one does not overflow. -/
theorem roundMagnitude_ne_infinity {a : Nat} (ha : a ≤ 2 ^ 31) : roundMagnitude (a * 2 ^ 149) 1 ≠ infinityBits := by
  rw [Ne, roundMagnitude_eq_infinity _ Nat.one_pos]
  have : a * 2 ^ 149 ≤ 2 ^ 31 * 2 ^ 149 := Nat.mul_le_mul_right _ ha
  norm_num at this ⊢
  omega

theorem abs_lt_overflow {n : ℤ} (hn : n.natAbs ≤ 2 ^ 31) : |(n : ℚ)| < (2 ^ 25 - 1) * 2 ^ 103 := by
  have h : |(n : ℚ)| ≤ 2 ^ 31 := by
    rw [← Int.cast_abs, Int.abs_eq_natAbs]
    exact_mod_cast hn
  exact lt_of_le_of_lt h (by norm_num)

/-- An integer in units of 2^-149, as a number. -/
theorem units_of_integer (n : ℤ) : ((n * 2 ^ 149 : ℤ) : ℚ) / 2 ^ 149 = n := by
  rw [Int.cast_mul, Int.cast_pow, Int.cast_ofNat, mul_div_cancel_right₀ _ (by positivity)]

theorem F32.ofInt_roundsTo (n : ℤ) : RoundsTo n (F32.ofInt n) := by
  have h := F32.roundInt_roundsTo (n * 2 ^ 149) false
  rwa [units_of_integer] at h

theorem F32.ofInt_isFinite {n : ℤ} (hn : n.natAbs ≤ 2 ^ 31) : (F32.ofInt n).isFinite = true :=
  ((F32.ofInt_roundsTo n).2 (abs_lt_overflow hn)).1

theorem F32.ofInt_negative (n : ℤ) : (F32.ofInt n).negative = true ↔ n < 0 := by
  rw [F32.ofInt, F32.roundInt_negative]
  simp only [Bool.false_eq_true, and_false, or_false]
  omega

/-- ITOF rounds the magnitude of the integer. -/
theorem F32.ofInt_magnitude (n : ℤ) :
    (F32.ofInt n).magnitude = lowMagnitude (roundMagnitude (n.natAbs * 2 ^ 149) 1) := by
  rw [F32.ofInt, F32.roundInt_eq_round, F32.round_magnitude, Int.natAbs_mul]
  rfl

/-- ITOF gives a short integer exactly. -/
theorem F32.ofInt_rat_of_isShort {n : ℤ} (hn : n.natAbs ≤ 2 ^ 31) (hshort : IsShort n) : (F32.ofInt n).rat = n := by
  have hexact : lowMagnitude (roundMagnitude (n.natAbs * 2 ^ 149) 1) = n.natAbs * 2 ^ 149 := by
    have hfin := roundMagnitude_ne_infinity hn
    obtain ⟨c, k, rfl, hc⟩ := hshort
    have habs : (c * 2 ^ k).natAbs * 2 ^ 149 = c.natAbs * 2 ^ (k + 149) := by
      rw [Int.natAbs_mul, Int.natAbs_pow, Nat.pow_add, Nat.mul_assoc]
      rfl
    rw [habs] at hfin ⊢
    rcases Nat.lt_or_eq_of_le hc with hlt | heq
    · exact roundMagnitude_exact hlt hfin
    · rw [heq, ← Nat.pow_add, ← Nat.one_mul (2 ^ _)] at hfin ⊢
      exact roundMagnitude_exact (by norm_num) hfin
  have hsigned : signedMag (F32.ofInt n).negative (n.natAbs * 2 ^ 149) = n * 2 ^ 149 := by
    cases hneg : (F32.ofInt n).negative with
    | true =>
      have := (F32.ofInt_negative n).1 hneg
      simp [signedMag, abs_of_neg this]
    | false =>
      have : ¬ n < 0 := fun h => by simp [(F32.ofInt_negative n).2 h] at hneg
      simp [signedMag, abs_of_nonneg (not_lt.1 this)]
  rw [F32.rat_eq_signedMag, F32.ofInt_magnitude, hexact, hsigned, units_of_integer]

/-- No short integer is nearer to an integer than what ITOF gives. -/
theorem F32.ofInt_nearest {n m : ℤ} (hn : n.natAbs ≤ 2 ^ 31) (hm : m.natAbs ≤ 2 ^ 31) (hshort : IsShort m) :
    |(F32.ofInt n).rat - n| ≤ |(m : ℚ) - n| := by
  have h := (((F32.ofInt_roundsTo n).2 (abs_lt_overflow hn)).2 (F32.ofInt m) (F32.ofInt_isFinite hm)).1
  rwa [F32.ofInt_rat_of_isShort hm hshort] at h

theorem isShort_of_natAbs_le {n : ℤ} (hn : n.natAbs ≤ 2 ^ 24) : IsShort n := ⟨n, 0, by simp, hn⟩

/-! ### ITOF gives an integer -/

/-- A datum is an integer or lies below 2^23 in magnitude. -/
theorem F32.rat_integer_or_small (f : F32) : (∃ m : ℤ, f.rat = m) ∨ |f.rat| < 2 ^ 23 := by
  have habs : |f.rat| = (f.magnitude : ℚ) / 2 ^ 149 := by
    rw [F32.rat_eq, mul_div_assoc, abs_mul, abs_of_nonneg (show (0 : ℚ) ≤ f.magnitude / 2 ^ 149 by positivity)]
    cases f.negative <;> simp [signOf]
  rcases lowMagnitude_cases (f.exponent * 2 ^ 23 + f.fraction) 149 with ⟨j, hj⟩ | ⟨-, hlt⟩
  · refine .inl ⟨signOf f.negative * j, ?_⟩
    rw [F32.rat_eq_signedMag, F32.magnitude_eq, hj, signedMag_eq, Nat.cast_mul, ← mul_assoc, Nat.cast_pow,
      Nat.cast_ofNat, units_of_integer]
  · right
    rw [habs, div_lt_iff₀ (by positivity), F32.magnitude_eq]
    exact_mod_cast hlt

/-- What ITOF gives is an integer: a short one is exact, and any other is too far from the data below 2^23. -/
theorem F32.ofInt_rat_integer {n : ℤ} (hn : n.natAbs ≤ 2 ^ 31) : ∃ m : ℤ, (F32.ofInt n).rat = m := by
  by_cases hshort : n.natAbs ≤ 2 ^ 24
  · exact ⟨n, F32.ofInt_rat_of_isShort hn (isShort_of_natAbs_le hshort)⟩
  · rcases (F32.ofInt n).rat_integer_or_small with h | h
    · exact h
    · exfalso
      obtain ⟨hleft, hright⟩ := abs_lt.1 h
      rcases lt_or_ge n 0 with hneg | hpos
      · have hnear := F32.ofInt_nearest (m := -2 ^ 24) hn (by decide) (isShort_of_natAbs_le (by decide))
        have hle : (n : ℚ) ≤ -2 ^ 24 := by exact_mod_cast (by omega : n ≤ -2 ^ 24)
        push_cast at hnear
        rw [abs_of_nonneg (by linarith), abs_of_nonneg (by linarith)] at hnear
        linarith
      · have hnear := F32.ofInt_nearest (m := 2 ^ 24) hn (by decide) (isShort_of_natAbs_le (by decide))
        have hge : (2 ^ 24 : ℚ) ≤ n := by exact_mod_cast (by omega : 2 ^ 24 ≤ n)
        push_cast at hnear
        rw [abs_of_nonpos (by linarith), abs_of_nonpos (by linarith)] at hnear
        linarith

/-- Below 2147483584 what ITOF gives is in range for FTOI. -/
theorem F32.ofInt_rat_bounds {n m : ℤ} (hn : n.natAbs ≤ 2 ^ 31) (hlt : n < 2147483584) (hm : (F32.ofInt n).rat = m) :
    -2 ^ 31 ≤ m ∧ m ≤ 2 ^ 31 - 1 := by
  have hlow := F32.ofInt_nearest (m := -2 ^ 31) hn (by decide) ⟨-1, 31, by norm_num, by decide⟩
  have hhigh := F32.ofInt_nearest (m := 2147483520) hn (by decide) ⟨16777215, 7, by norm_num, by decide⟩
  rw [hm] at hlow hhigh
  have hlow' : |m - n| ≤ |-2 ^ 31 - n| := by exact_mod_cast hlow
  have hhigh' : |m - n| ≤ |2147483520 - n| := by exact_mod_cast hhigh
  constructor
  · by_contra h
    rw [abs_of_nonpos (by omega), abs_of_nonpos (by omega)] at hlow'
    omega
  · by_contra h
    rw [abs_of_nonneg (by omega)] at hhigh'
    rcases abs_cases (2147483520 - n) with ⟨habs, -⟩ | ⟨habs, -⟩ <;> omega

/-- The nearest integer to a quotient, with both parts scaled. -/
theorem roundHalfEven_mul_right (n d : Nat) {c : Nat} (hc : 0 < c) :
    roundHalfEven (n * c) (d * c) = roundHalfEven n d := by
  have hscale (r : Nat) : 2 * (r * c) = 2 * r * c := by ring
  simp only [roundHalfEven, Nat.mul_mod_mul_right, Nat.mul_div_mul_right _ _ hc, hscale,
    Nat.mul_lt_mul_right hc]

/-- From 2147483584 on ITOF rounds up to 2^31. -/
theorem F32.ofInt_top {n : ℤ} (hlow : 2147483584 ≤ n) (hhigh : n ≤ 2 ^ 31 - 1) :
    F32.ofInt n = ⟨0x4F000000#32⟩ := by
  have hne : n * 2 ^ 149 ≠ 0 := by omega
  have hpos : ¬ n * 2 ^ 149 < 0 := by omega
  have habs : (n * 2 ^ 149).natAbs = n.natAbs * 2 ^ 149 := Int.natAbs_mul n _
  have hmag : roundMagnitude (n.natAbs * 2 ^ 149) 1 = 0x4F000000 := by
    have hlog : (n.natAbs * 2 ^ 149 / 1).log2 = 179 := by
      rw [Nat.div_one, Nat.log2_eq_iff (by omega)]
      omega
    have hhalf : roundHalfEven (n.natAbs * 2 ^ 149) (128 * 2 ^ 149) = 2 ^ 24 := by
      rw [roundHalfEven_mul_right _ _ (by positivity)]
      unfold roundHalfEven
      split_ifs <;> omega
    have hunit : 1 * 2 ^ (179 - 23) = 128 * 2 ^ 149 := by norm_num
    rw [roundMagnitude, hlog, hunit, hhalf]
    decide
  rw [F32.ofInt, F32.roundInt_eq_round, if_neg hne, decide_eq_false hpos, habs, F32.round, hmag]
  decide

theorem toInt_natAbs_le (x : Word) : x.toInt.natAbs ≤ 2 ^ 31 := by
  have hlow := BitVec.le_toInt x
  have hhigh := BitVec.toInt_lt (x := x)
  omega

/-! ### The obligations on the conversions -/

/-- Settles O25: the integer's own number of units is rounded; a short integer is a datum. -/
theorem integerToFloatRoundsToNearest : Obligations.IntegerToFloatRoundsToNearest := by
  unfold Obligations.IntegerToFloatRoundsToNearest
  intro x
  have hx := toInt_natAbs_le x
  refine ⟨F32.ofInt_roundsTo _, F32.ofInt_isFinite hx, fun hsmall =>
    F32.ofInt_rat_of_isShort hx (isShort_of_natAbs_le hsmall), F32.ofInt_negative _, ?_⟩
  rintro rfl
  decide

/-- Settles O26: the whole units of 2^0 in the magnitude are the truncated value. -/
theorem floatToIntegerTruncates : Obligations.FloatToIntegerTruncates := by
  unfold Obligations.FloatToIntegerTruncates
  refine fun f => ⟨F32.toInt?_not_finite, fun hf => ?_⟩
  simp only [F32.trunc_rat]
  exact F32.toInt?_finite hf

/-- Settles O27: a datum in range comes back, and what ITOF gives is in range below 2147483584. -/
theorem ftoiUndoesItof : Obligations.FtoiUndoesItof := by
  unfold Obligations.FtoiUndoesItof
  intro x
  have hx := toInt_natAbs_le x
  have hlow := BitVec.le_toInt x
  have hhigh := BitVec.toInt_lt (x := x)
  have hback (h : (F32.ofInt x.toInt).rat = x.toInt) : (F32.ofInt x.toInt).toInt? = some x.toInt :=
    F32.toInt?_of_rat (F32.ofInt_isFinite hx) h (by omega) (by omega)
  refine ⟨fun ⟨y, hy, hyx⟩ => hback ((F32.ofInt_roundsTo _).rat_eq (abs_lt_overflow hx) hy hyx),
    fun hshort => hback (F32.ofInt_rat_of_isShort hx hshort), ?_⟩
  split
  case isTrue htop =>
    rw [F32.ofInt_top htop (by omega)]
    decide
  case isFalse htop =>
    obtain ⟨m, hm⟩ := F32.ofInt_rat_integer hx
    obtain ⟨hmlow, hmhigh⟩ := F32.ofInt_rat_bounds hx (by omega) hm
    exact ⟨m, F32.toInt?_of_rat (F32.ofInt_isFinite hx) hm hmlow hmhigh, hm, F32.ofInt_roundsTo _⟩

end Sys2Proof.Machine
